-- ==== Sys2Proof/Word.lean ====
section
/-! DEFINITION. The two word types of the block: the byte of a frame and the 16-bit register (spec/00_scope.md R5, R6). -/

namespace Sys2Proof

/-- A `u8` of the spec: one byte of a frame, a peripheral address, a function code (R6). -/
abbrev Byte := BitVec 8

/-- A `u16` of the spec: a register value, a wire field, the CRC accumulator (R6). -/
abbrev Word := BitVec 16

end Sys2Proof
end

