-- ==== Sys2Proof/Config.lean ====
section
/-! DEFINITION. The fixed constants of spec/00_scope.md R5, the implementation parameters (the rows R5 marks "argument")
and the free values the spec leaves open. -/

namespace Sys2Proof

/-- The four exceptions a response can carry (spec/60_exceptions.md R203). -/
inductive ModbusException where
  | illegalFunction
  | illegalAddress
  | illegalValue
  | deviceFailure
deriving DecidableEq, Repr, Inhabited

/-- What the external extension handler hands back (spec/45_functions.md R190): a normal payload, or one of the four
exceptions.  The type IS the contract "either `{f_fc, payload}` or `{f_fc or 0x80, [code]}` with code in 1..4". -/
inductive ExtReply where
  | normal (payload : List Byte)
  | exception (e : ModbusException)
deriving DecidableEq, Repr, Inhabited

/-- The parameters that spec/00_scope.md R5 gives as arguments of the model.  They are carried in the machine's state and
no step changes them, so a statement about every state is a statement for every value of them.  (`UNIT_ID` is the
register `State.unitId`.) -/
structure Params where
  /-- `TABLE_CAP`: the largest number of entries the register table can hold (R5, R128). -/
  tableCap : Nat
  /-- `RX_MAX`: the longest received frame, `none` for unbounded (R5, R153). -/
  rxMax : Option Nat
  /-- `RESP_BYTE_COUNT`: `true` for `present` (R5, R191). -/
  respByteCount : Bool
  /-- `EXT_CODES`: the function codes of the extension handler (R5, R190). -/
  extCodes : List Byte
deriving DecidableEq, Repr

namespace Config

/-- `CRC_POLY` (R90). -/
def crcPoly : Word := 0xA001#16
/-- `CRC_INIT` (R90). -/
def crcInit : Word := 0xFFFF#16
/-- `BASE_COIL` (R160). -/
def baseCoil : Nat := 0
/-- `BASE_DISCRETE` (R160). -/
def baseDiscrete : Nat := 10000
/-- `BASE_INPUT` (R160). -/
def baseInput : Nat := 30000
/-- `BASE_HOLDING` (R160). -/
def baseHolding : Nat := 40000
/-- `SPAN_MAX`: the largest wire-relative address, and the bound on start + amount (R162). -/
def spanMax : Nat := 9998
/-- `MAX_BITS` (R161). -/
def maxBits : Nat := 7000
/-- `MAX_WORDS` (R161). -/
def maxWords : Nat := 125
/-- `COIL_ON`: the value stored for a coil that is set (R185, decision D16). -/
def coilOn : Word := 0x0001#16
/-- The wire value that sets a coil in a Write Coil request (R185). -/
def wireOn : Word := 0xFF00#16
/-- The wire value that clears a coil in a Write Coil request (R185). -/
def wireOff : Word := 0x0000#16
/-- `BROADCAST`: the broadcast peripheral address (R155). -/
def broadcast : Byte := 0x00#8
/-- The eight supported function codes (spec/30_encoding.md R70). -/
def supportedCodes : List Byte := [0x01#8, 0x02#8, 0x03#8, 0x04#8, 0x05#8, 0x06#8, 0x0F#8, 0x10#8]

/-- `cfg_unit_id` at the first reset.  DESIGN CHOICE, unsafe, notes/assumptions/1.md: R5 gives no default; 3 is the
identity of the spec's own test vectors. -/
def unitIdAtReset : Byte := 0x03#8

/-- FREE VALUE, notes/assumptions/5.md.  What the extension handler answers to its `n`-th call with a code and a payload
(R190: "a model takes `ext` as an uninterpreted function argument").  It depends on the count because the handler may
keep state of its own. -/
opaque extHandler : Nat → Byte → List Byte → ExtReply

/-- FREE VALUE, notes/assumptions/6.md.  How many bytes of a response had left the block when a reset struck the cycle
that was sending it (spec/70_reset_and_hazards.md R239: "sent, cut short or lost is not specified"). -/
opaque inFlight : Nat → Nat

end Config

/-- The defaults of spec/00_scope.md R5. -/
def Params.default : Params :=
  { tableCap := 65536, rxMax := none, respByteCount := false, extCodes := [] }

/-- The legal ranges of spec/00_scope.md R5 and spec/30_encoding.md R72: `TABLE_CAP` in 1..65536, `RX_MAX` at least 264 or
unbounded, `EXT_CODES` disjoint from the eight supported codes and without a code of 0x80 or above. -/
def Params.wf (p : Params) : Bool :=
  decide (1 ≤ p.tableCap) && decide (p.tableCap ≤ 65536) &&
    (match p.rxMax with
     | none => true
     | some n => decide (264 ≤ n)) &&
    p.extCodes.all (fun c => !(Config.supportedCodes.contains c) && decide (c.toNat < 0x80))

end Sys2Proof
end

