-- ==== Sys2Proof/Machine/Bytes.lean ====
section
/-! DEFINITION. Bytes of a word and byte order (spec/00_scope.md R6, R7; spec/20_memory.md R44, R45). -/

namespace Sys2Proof

/-- `hi(v) = v[15:8]` (R7). -/
def hiByte (v : Word) : Byte := v.extractLsb' 8 8

/-- `lo(v) = v[7:0]` (R7). -/
def loByte (v : Word) : Byte := v.extractLsb' 0 8

/-- `be16(h, l) = (h << 8) or l` (R7): the big-endian pair of R44. -/
def be16 (h l : Byte) : Word := (h.setWidth 16 <<< 8) ||| l.setWidth 16

/-- `ceil8(n) = (n + 7) >> 3`: the number of bytes that hold `n` bits (R6). -/
def ceil8 (n : Nat) : Nat := (n + 7) >>> 3

/-- Byte `i` of a sequence (R7); every use is at an index below the length. -/
def byteAt (s : List Byte) (i : Nat) : Byte := s.getD i 0x00#8

end Sys2Proof
end

