-- ==== Sys2Proof/Machine/Crc.lean ====
section
/-! DEFINITION. The CRC-16 engine as a pure function (spec/40_crc16.md R90 to R94). -/

namespace Sys2Proof

/-- One shift of the register (R93). -/
def crcBit (x : Word) : Word :=
  if x.getLsbD 0 then (x >>> 1) ^^^ Config.crcPoly else x >>> 1

/-- `n` shifts of the register (the `repeat` of R92). -/
def crcShift : Nat → Word → Word
  | 0, x => x
  | n + 1, x => crcShift n (crcBit x)

/-- Absorb one byte: it goes into the low 8 bits, then eight shifts (R92). -/
def crcStep (c : Word) (b : Byte) : Word := crcShift 8 (c ^^^ b.setWidth 16)

/-- The accumulator after a sequence of bytes has been fed to it (`crc_feed` in index order, R94). -/
def crcFeed (c : Word) (s : List Byte) : Word := s.foldl crcStep c

/-- The Modbus CRC-16 of a byte sequence (R91): `crc_init`, then `crc_feed` for every byte, then `crc_value` (R94). -/
def crc16 (s : List Byte) : Word := crcFeed Config.crcInit s

/-- Entry `k` of the table of the table-driven form (R94: `TABLE[k] = crc_step(0x0000, k)`). -/
def crcTable (k : Byte) : Word := crcStep 0x0000#16 k

/-- The table-driven form of R92 that R94 allows. -/
def crcStepByTable (c : Word) (b : Byte) : Word :=
  (c >>> 8) ^^^ crcTable (loByte (c ^^^ b.setWidth 16))

end Sys2Proof
end

