-- ==== Sys2Proof/Syntax.lean ====
section
/-! DEFINITION. The instructions: one constructor per row of spec/opcode_table.json.  An instruction is one request
(spec/00_scope.md R4): a function code arriving in a frame at the protocol port, or one operation at the administrative
port. -/

namespace Sys2Proof

/-- A frame split by `parse` (spec/10_state.md R18, spec/43_frame_codec.md R141). -/
structure Frame where
  addr : Byte
  fc : Byte
  payload : List Byte
  crc : Word
deriving DecidableEq, Repr

/-- The payload of the function codes 0x01 to 0x06 (format `AQ`, spec/30_encoding.md R63).  A payload of any other length
than 4 is a request too, one that the value check (v1) of R161 rejects, so it has a form of its own. -/
inductive AqOperands where
  | fields (w q : Word)
  | badLength (payload : List Byte)
deriving DecidableEq, Repr

/-- The payload of the function codes 0x0F and 0x10 (format `AQBD`, spec/30_encoding.md R64).  `bc` is the declared byte
count, `data` whatever follows it; a payload shorter than 5 bytes has no byte count (R159). -/
inductive AqbdOperands where
  | fields (w q : Word) (bc : Byte) (data : List Byte)
  | short (payload : List Byte)
deriving DecidableEq, Repr

/-- The requests.  `u` is the address byte of the frame (R75).  The rows for unsupported function codes cover every other
code (R71); a row that covers more than one code carries the code. -/
inductive Instr where
  | rdcoil (u : Byte) (o : AqOperands)
  | rddisc (u : Byte) (o : AqOperands)
  | rdhold (u : Byte) (o : AqOperands)
  | rdinp (u : Byte) (o : AqOperands)
  | wrcoil (u : Byte) (o : AqOperands)
  | wrhold (u : Byte) (o : AqOperands)
  | wrcoils (u : Byte) (o : AqbdOperands)
  | wrholds (u : Byte) (o : AqbdOperands)
  | ext (u code : Byte) (payload : List Byte)
  | unsupported0000 (u : Byte) (payload : List Byte)
  | unsupported0707 (u : Byte) (payload : List Byte)
  | unsupported080B (u fc : Byte) (payload : List Byte)
  | unsupported0C0D (u fc : Byte) (payload : List Byte)
  | unsupported0E0E (u : Byte) (payload : List Byte)
  | unsupported1111 (u : Byte) (payload : List Byte)
  | unsupported1213 (u fc : Byte) (payload : List Byte)
  | unsupported1417 (u fc : Byte) (payload : List Byte)
  | unsupported181F (u fc : Byte) (payload : List Byte)
  | unsupported203F (u fc : Byte) (payload : List Byte)
  | unsupported407F (u fc : Byte) (payload : List Byte)
  | unsupported80FF (u fc : Byte) (payload : List Byte)
  | admGet (addr : Word)
  | admSet (addr wdata : Word)
  | admVset (addr wdata : Word)
  | admExists (addr : Word)
  | admDelete (addr : Word)
  | admReserved5
  | admReserved67 (low : Bool)
deriving DecidableEq, Repr

/-- What a port delivers: a whole frame at the protocol port (R60), or `adm_op`, `adm_addr`, `adm_wdata` at the
administrative port (R69).  The port is fixed by the physical path (spec/60_exceptions.md R209), never by the bits. -/
inductive PortWord where
  | frame (raw : List Byte)
  | adm (op : BitVec 3) (addr wdata : Word)
deriving DecidableEq, Repr

end Sys2Proof
end

