-- ==== Sys2Proof/Machine/FrameCodec.lean ====
section
/-! DEFINITION. The frame codec: `parse`, `check_crc`, `serialize` (spec/43_frame_codec.md R140 to R145). -/

namespace Sys2Proof

/-- The structural split of a frame; `none` is `TooShort` (R141).  The CRC's low byte comes first (spec/20_memory.md R45,
spec/90_conflicts.md C1) and the payload is the half-open range of C7. -/
def parse (raw : List Byte) : Option Frame :=
  if raw.length < 4 then none
  else some
    { addr := byteAt raw 0
      fc := byteAt raw 1
      payload := (raw.drop 2).take (raw.length - 4)
      crc := be16 (byteAt raw (raw.length - 1)) (byteAt raw (raw.length - 2)) }

/-- The CRC over address, function code and payload (R142). -/
def bodyCrc (addr fc : Byte) (payload : List Byte) : Word := crc16 ([addr, fc] ++ payload)

/-- `check_crc` (R142). -/
def checkCrc (f : Frame) : Bool := bodyCrc f.addr f.fc f.payload == f.crc

/-- `serialize` (R143): the body, then the CRC, low byte first (spec/90_conflicts.md C1). -/
def serialize (addr fc : Byte) (payload : List Byte) : List Byte :=
  [addr, fc] ++ payload ++ [loByte (bodyCrc addr fc payload), hiByte (bodyCrc addr fc payload)]

end Sys2Proof
end

