-- ==== Sys2Proof/WellFormed.lean ====
section
/-! DEFINITION. Which terms of `Instr` stand for a request that can arrive, given the extension codes `EXT_CODES`. -/

namespace Sys2Proof

/-- `badLength` holds a payload that is not 4 bytes long (R63). -/
def AqOperands.wellFormed : AqOperands → Bool
  | .fields _ _ => true
  | .badLength p => decide (p.length ≠ 4)

/-- `short` holds a payload of fewer than 5 bytes (R64). -/
def AqbdOperands.wellFormed : AqbdOperands → Bool
  | .fields _ _ _ _ => true
  | .short p => decide (p.length < 5)

/-- The function code lies in the row given by `mask` and `pattern` of spec/opcode_table.json, and no extension claims it
(the extension codes are tested first, spec/44_dispatcher.md R157). -/
def rowCode (ext : List Byte) (mask pattern fc : Byte) : Bool :=
  fc &&& mask == pattern && !ext.contains fc

/-- A term of `Instr` that some frame, or some operation of the administrative port, decodes to. -/
def Instr.wellFormed (ext : List Byte) : Instr → Bool
  | .rdcoil _ o => o.wellFormed && !ext.contains 0x01#8
  | .rddisc _ o => o.wellFormed && !ext.contains 0x02#8
  | .rdhold _ o => o.wellFormed && !ext.contains 0x03#8
  | .rdinp _ o => o.wellFormed && !ext.contains 0x04#8
  | .wrcoil _ o => o.wellFormed && !ext.contains 0x05#8
  | .wrhold _ o => o.wellFormed && !ext.contains 0x06#8
  | .wrcoils _ o => o.wellFormed && !ext.contains 0x0F#8
  | .wrholds _ o => o.wellFormed && !ext.contains 0x10#8
  | .ext _ code _ => ext.contains code
  | .unsupported0000 _ _ => !ext.contains 0x00#8
  | .unsupported0707 _ _ => !ext.contains 0x07#8
  | .unsupported080B _ fc _ => rowCode ext 0xFC#8 0x08#8 fc
  | .unsupported0C0D _ fc _ => rowCode ext 0xFE#8 0x0C#8 fc
  | .unsupported0E0E _ _ => !ext.contains 0x0E#8
  | .unsupported1111 _ _ => !ext.contains 0x11#8
  | .unsupported1213 _ fc _ => rowCode ext 0xFE#8 0x12#8 fc
  | .unsupported1417 _ fc _ => rowCode ext 0xFC#8 0x14#8 fc
  | .unsupported181F _ fc _ => rowCode ext 0xF8#8 0x18#8 fc
  | .unsupported203F _ fc _ => rowCode ext 0xE0#8 0x20#8 fc
  | .unsupported407F _ fc _ => rowCode ext 0xC0#8 0x40#8 fc
  | .unsupported80FF _ fc _ => rowCode ext 0x80#8 0x80#8 fc
  | .admGet _ => true
  | .admSet _ _ => true
  | .admVset _ _ => true
  | .admExists _ => true
  | .admDelete _ => true
  | .admReserved5 => true
  | .admReserved67 _ => true

end Sys2Proof
end

