-- ==== Sys2Proof/Decode.lean ====
section
/-! DEFINITION. The decoder, total on every frame and every administrative operation, and the encoder
(spec/30_encoding.md, spec/opcode_table.json). -/

namespace Sys2Proof

/-- Why the protocol port's decoder finds no request in a frame.  None of them stops the machine: the step ends the cycle
with the silent outcome the spec names. -/
inductive Reject where
  /-- fewer than 4 bytes (spec/43_frame_codec.md R141) -/
  | tooShort
  /-- the two CRC bytes are not the CRC of the rest (R142) -/
  | badCrc
  /-- no row of the opcode table covers the function code; R71 leaves no such code -/
  | noRow
deriving DecidableEq, Repr

/-- The decoder's answer. -/
inductive Decoded where
  | instr (i : Instr)
  | rejected (r : Reject)
deriving DecidableEq, Repr

/-! ### Operands -/

/-- Format `AQ` (spec/30_encoding.md R63). -/
def AqOperands.ofBytes : List Byte → AqOperands
  | [w1, w0, q1, q0] => .fields (be16 w1 w0) (be16 q1 q0)
  | p => .badLength p

/-- Format `AQ`, written out (R63). -/
def AqOperands.toBytes : AqOperands → List Byte
  | .fields w q => [hiByte w, loByte w, hiByte q, loByte q]
  | .badLength p => p

/-- Format `AQBD` (spec/30_encoding.md R64). -/
def AqbdOperands.ofBytes : List Byte → AqbdOperands
  | w1 :: w0 :: q1 :: q0 :: bc :: data => .fields (be16 w1 w0) (be16 q1 q0) bc data
  | p => .short p

/-- Format `AQBD`, written out (R64). -/
def AqbdOperands.toBytes : AqbdOperands → List Byte
  | .fields w q bc data => [hiByte w, loByte w, hiByte q, loByte q, bc] ++ data
  | .short p => p

/-! ### The protocol port -/

/-- A row of spec/opcode_table.json at the protocol port: it matches a function code `fc` when `fc & mask = pattern`, and
`build` makes the request from the address byte, the function code and the payload. -/
structure OpRow where
  mask : Byte
  pattern : Byte
  build : Byte → Byte → List Byte → Instr

/-- Whether a row covers a function code. -/
def OpRow.covers (r : OpRow) (fc : Byte) : Bool := fc &&& r.mask == r.pattern

/-- The eight supported codes (R70). -/
def supportedRows : List OpRow :=
  [ ⟨0xFF#8, 0x01#8, fun u _ p => .rdcoil u (.ofBytes p)⟩,
    ⟨0xFF#8, 0x02#8, fun u _ p => .rddisc u (.ofBytes p)⟩,
    ⟨0xFF#8, 0x03#8, fun u _ p => .rdhold u (.ofBytes p)⟩,
    ⟨0xFF#8, 0x04#8, fun u _ p => .rdinp u (.ofBytes p)⟩,
    ⟨0xFF#8, 0x05#8, fun u _ p => .wrcoil u (.ofBytes p)⟩,
    ⟨0xFF#8, 0x06#8, fun u _ p => .wrhold u (.ofBytes p)⟩,
    ⟨0xFF#8, 0x0F#8, fun u _ p => .wrcoils u (.ofBytes p)⟩,
    ⟨0xFF#8, 0x10#8, fun u _ p => .wrholds u (.ofBytes p)⟩ ]

/-- Every other code, as the twelve rows of the table cover them (R71). -/
def unsupportedRows : List OpRow :=
  [ ⟨0xFF#8, 0x00#8, fun u _ p => .unsupported0000 u p⟩,
    ⟨0xFF#8, 0x07#8, fun u _ p => .unsupported0707 u p⟩,
    ⟨0xFC#8, 0x08#8, .unsupported080B⟩,
    ⟨0xFE#8, 0x0C#8, .unsupported0C0D⟩,
    ⟨0xFF#8, 0x0E#8, fun u _ p => .unsupported0E0E u p⟩,
    ⟨0xFF#8, 0x11#8, fun u _ p => .unsupported1111 u p⟩,
    ⟨0xFE#8, 0x12#8, .unsupported1213⟩,
    ⟨0xFC#8, 0x14#8, .unsupported1417⟩,
    ⟨0xF8#8, 0x18#8, .unsupported181F⟩,
    ⟨0xE0#8, 0x20#8, .unsupported203F⟩,
    ⟨0xC0#8, 0x40#8, .unsupported407F⟩,
    ⟨0x80#8, 0x80#8, .unsupported80FF⟩ ]

/-- The protocol rows of the opcode table, but for the extension row, which is tested before them. -/
def protocolRows : List OpRow := supportedRows ++ unsupportedRows

/-- The request that an address byte, a function code and a payload stand for: the extension codes first
(spec/44_dispatcher.md R157), then the rows of the table (R70, R71). -/
def decodeRequest (ext : List Byte) (u fc : Byte) (payload : List Byte) : Option Instr :=
  if ext.contains fc then some (.ext u fc payload)
  else (protocolRows.find? (·.covers fc)).map (·.build u fc payload)

/-- The request in a frame (R62): split, CRC, then the function code. -/
def decodeFrame (ext : List Byte) (raw : List Byte) : Decoded :=
  match parse raw with
  | none => .rejected .tooShort
  | some f =>
    if checkCrc f then
      match decodeRequest ext f.addr f.fc f.payload with
      | some i => .instr i
      | none => .rejected .noRow
    else .rejected .badCrc

/-! ### The administrative port -/

/-- The operation the three bits `adm_op` select (R69). -/
def decodeAdm (op : BitVec 3) (addr wdata : Word) : Instr :=
  if op = 0#3 then .admGet addr
  else if op = 1#3 then .admSet addr wdata
  else if op = 2#3 then .admVset addr wdata
  else if op = 3#3 then .admExists addr
  else if op = 4#3 then .admDelete addr
  else if op = 5#3 then .admReserved5
  else .admReserved67 (op.getLsbD 0)

/-- The decoder, on whatever a port delivers. -/
def decode (ext : List Byte) : PortWord → Decoded
  | .frame raw => decodeFrame ext raw
  | .adm op addr wdata => .instr (decodeAdm op addr wdata)

/-! ### The encoder -/

/-- The words of a request: its frame, or the administrative port's inputs.  An operation that does not use `adm_wdata`, or
`adm_addr`, is encoded with zeros there (R69). -/
def encode : Instr → PortWord
  | .rdcoil u o => .frame (serialize u 0x01#8 o.toBytes)
  | .rddisc u o => .frame (serialize u 0x02#8 o.toBytes)
  | .rdhold u o => .frame (serialize u 0x03#8 o.toBytes)
  | .rdinp u o => .frame (serialize u 0x04#8 o.toBytes)
  | .wrcoil u o => .frame (serialize u 0x05#8 o.toBytes)
  | .wrhold u o => .frame (serialize u 0x06#8 o.toBytes)
  | .wrcoils u o => .frame (serialize u 0x0F#8 o.toBytes)
  | .wrholds u o => .frame (serialize u 0x10#8 o.toBytes)
  | .ext u code p => .frame (serialize u code p)
  | .unsupported0000 u p => .frame (serialize u 0x00#8 p)
  | .unsupported0707 u p => .frame (serialize u 0x07#8 p)
  | .unsupported080B u fc p => .frame (serialize u fc p)
  | .unsupported0C0D u fc p => .frame (serialize u fc p)
  | .unsupported0E0E u p => .frame (serialize u 0x0E#8 p)
  | .unsupported1111 u p => .frame (serialize u 0x11#8 p)
  | .unsupported1213 u fc p => .frame (serialize u fc p)
  | .unsupported1417 u fc p => .frame (serialize u fc p)
  | .unsupported181F u fc p => .frame (serialize u fc p)
  | .unsupported203F u fc p => .frame (serialize u fc p)
  | .unsupported407F u fc p => .frame (serialize u fc p)
  | .unsupported80FF u fc p => .frame (serialize u fc p)
  | .admGet addr => .adm 0#3 addr 0#16
  | .admSet addr wdata => .adm 1#3 addr wdata
  | .admVset addr wdata => .adm 2#3 addr wdata
  | .admExists addr => .adm 3#3 addr 0#16
  | .admDelete addr => .adm 4#3 addr 0#16
  | .admReserved5 => .adm 5#3 0#16 0#16
  | .admReserved67 low => .adm (if low then 7#3 else 6#3) 0#16 0#16

/-! ### The words of spec/opcode_table.json

The table numbers the bits of the byte that selects a row: the function code `raw[1]`, or `adm_op`.  The two ports share the
values 0 to 6 of that byte, and the table gives a Read or Write row a second byte (`frame_length` at bit 8).  So a table
word of one byte below 7 is read at the administrative port, every other word at the protocol port
(notes/assumptions/10.md). -/

/-- How many payload bytes the frame of a table word has: 4 for format `AQ`, at least 5 for `AQBD`, and for every other
code the bytes the table gives after the function code. -/
def tablePayloadLength (nbits : Nat) (fc : Byte) : Nat :=
  if 0x01#8 ≤ fc ∧ fc ≤ 0x06#8 then 4
  else if fc = 0x0F#8 ∨ fc = 0x10#8 then max 5 (nbits / 8 - 1)
  else nbits / 8 - 1

/-- What the port delivers for a table word `w` of `nbits` bits: byte `k` of `w` is frame byte `1 + k`, the address byte and
every bit above `nbits` are 0, and the frame ends with its CRC. -/
def tableWord (nbits w : Nat) : PortWord :=
  if nbits < 8 ∨ (nbits = 8 ∧ w % 256 < 7) then .adm (BitVec.ofNat 3 w) 0#16 0#16
  else
    let fc : Byte := BitVec.ofNat 8 w
    .frame (serialize 0x00#8 fc
      ((List.range (tablePayloadLength nbits fc)).map fun k => BitVec.ofNat 8 (w >>> (8 * (k + 1)))))

/-- The instruction the decoder reads from a word of spec/opcode_table.json, with the default parameters. -/
def decodeTableWord (nbits w : Nat) : Option Instr :=
  match decode Params.default.extCodes (tableWord nbits w) with
  | .instr i => some i
  | .rejected _ => none

end Sys2Proof
end

