-- ==== Sys2Proof/Machine/State.lean ====
section
/-! DEFINITION. The state of the block (spec/10_state.md R10 to R27), the reasons a step can stop, and the state after reset. -/

namespace Sys2Proof.Machine

/-- A register of the table: the pair `{ address: u16, value: u16 }` (R11).  `addr` is a memory key, so a Nat; that it is
below 65536 is part of `Memory.wf`. -/
structure Entry where
  addr : Nat
  val : Word
deriving DecidableEq, Repr

/-- The register table `T`: `T.ent[0 .. T.n-1]`, and `T.n` is its length (R11).  The block's only data memory (spec/20_memory.md
R40, R41).  A listed address is present, an unlisted one absent, and absent is distinct from value zero (R13), so an entry
holding 0 stays in the list.  Its canonical form is `Memory.wf` (Machine/Table.lean). -/
abbrev Memory := List Entry

/-- The dispatcher phase register (R16): the seven states of the request cycle, no eighth. -/
inductive Phase where
  | awaitingFrame
  | parsed
  | addressChecked
  | functionChecked
  | rangeValidated
  | executed
  | responseReady
deriving DecidableEq, Repr

/-- The outcome of a cycle (spec/60_exceptions.md R200, R201); `none` until a cycle has finished. -/
inductive CycleOutcome where
  | none
  | normal
  | timeout
  | frameError
  | badCrc
  | notRecipient
  | illegalFunction
  | illegalAddress
  | illegalValue
  | deviceFailure
deriving DecidableEq, Repr

/-- The scratch state of one cycle (R10, R17 to R24).  It carries nothing from one cycle to the next (R27). -/
structure Scratch where
  /-- the receive buffer; `raw_len` is its length (R17) -/
  raw : List Byte
  /-- the parsed frame (R18) -/
  fAddr : Byte
  fFc : Byte
  fPayload : List Byte
  fCrc : Word
  /-- the decoded request fields (R19) -/
  w : Word
  q : Word
  bc : Byte
  /-- reply suppression (R22) -/
  suppress : Bool
  /-- aggregate write success (R23) -/
  wrOk : Bool
  /-- the outcome of the cycle in progress (R4: "the reported `outcome`"; the local of spec/44_dispatcher.md R151) -/
  verdict : CycleOutcome
  /-- the Result (R20); in phase `Executed` of a read, `rPayload` is its data (notes/assumptions/17.md) -/
  rFc : Byte
  rPayload : List Byte
  /-- the transmit buffer; `tx_len` is its length (R21) -/
  tx : List Byte
  /-- the CRC accumulator (R24) -/
  crc : Word
deriving DecidableEq, Repr

/-- What the administrative port answered to its last operation (spec/30_encoding.md R69): `adm_rdata` and `adm_flag`, each
`none` where the operation returns nothing there. -/
structure AdmResult where
  rdata : Option Word
  flag : Option Bool
deriving DecidableEq, Repr

/-- What can reach the block from outside (spec/60_exceptions.md R206): a request at one of the ports, the transport's
`Timeout`, a reset with its `cfg_unit_id` (spec/70_reset_and_hazards.md R230), or a reset that strikes while the cycle of a
delivered frame runs (R239). -/
inductive Event where
  | request (x : PortWord)
  | timeout
  | reset (cfgUnitId : Byte)
  | resetDuring (raw : List Byte) (cfgUnitId : Byte)
deriving DecidableEq, Repr

/-- The state.  `params`, `pending`, `sent`, `admOut` and `freeCount` are the model's own: the parameters of R5, what the
outside world will deliver, what it has been handed, and the counter of the free values. -/
structure State where
  /-- the parameters of spec/00_scope.md R5; no step changes them -/
  params : Params
  /-- the register table (R11) -/
  table : Memory
  /-- `UNIT_ID` (R25) -/
  unitId : Byte
  /-- `phase`, read as the register `PHASE` (R16, R25) -/
  phase : Phase
  /-- `OUTCOME` (R25) -/
  outcome : CycleOutcome
  /-- `REPLIED` (R25) -/
  replied : Bool
  /-- the scratch state of the cycle (R10) -/
  scratch : Scratch
  /-- what the outside world delivers next, in the order the block takes it (spec/20_memory.md R52, spec/60_exceptions.md
  R206): the schedule is data, so both orders of two waiting events are states -/
  pending : List Event
  /-- every frame handed to the transport by `send`, oldest first (spec/00_scope.md R8) -/
  sent : List (List Byte)
  /-- the outputs of the administrative port (spec/30_encoding.md R69) -/
  admOut : AdmResult
  /-- how many free values have been used; no claim rests on its value -/
  freeCount : Nat
deriving DecidableEq, Repr

/-- Why the machine stops with a fault: NEVER.  "No behaviour of this block is a fault or a stuck state" (spec/93 part 1), "No
error is ever fatal" (spec/44_dispatcher.md R167).  No constructor: nobody raises one, which is safe. -/
inductive Fault
deriving DecidableEq, Repr

/-- Why an instruction has no meaning. -/
inductive Refusal where
  /-- An instruction the model has not reached, raised by its arm of `exec` and by nothing else.  Safe: the machine stops
  where the hardware goes on.  No arm raises it in this model. -/
  | notModelled (mnemonic : String)
deriving DecidableEq, Repr

/-- Scratch state after reset.  R27 leaves it unspecified and no rule reads it before a cycle has written it.  DESIGN CHOICE,
unsafe, notes/assumptions/2.md: zeros. -/
def Scratch.reset : Scratch :=
  { raw := [], fAddr := 0#8, fFc := 0#8, fPayload := [], fCrc := 0#16, w := 0#16, q := 0#16, bc := 0#8,
    suppress := false, wrOk := false, verdict := .none, rFc := 0#8, rPayload := [], tx := [], crc := 0#16 }

/-- The state after `reset(cfg_unit_id)` with the parameters `p` (spec/70_reset_and_hazards.md R231), nothing delivered and
nothing sent. -/
def State.resetWith (p : Params) (cfgUnitId : Byte) : State :=
  { params := p, table := [], unitId := cfgUnitId, phase := .awaitingFrame, outcome := .none, replied := false,
    scratch := Scratch.reset, pending := [], sent := [], admOut := ⟨none, none⟩, freeCount := 0 }

/-- The machine right after reset (R27, R231), with the default parameters of R5 and the identity of
notes/assumptions/1.md. -/
def State.reset : State := State.resetWith Params.default Config.unitIdAtReset

end Sys2Proof.Machine
end

