-- ==== Sys2Proof/Machine/Flags.lean ====
section
/-! DEFINITION. The flags of a cycle, the outcome and exception codes, and the read-only status registers
(spec/10_state.md R22 to R25, spec/60_exceptions.md R201, R203). -/

namespace Sys2Proof.Machine

/-- `suppress` for an address byte the address check lets pass: set exactly for the broadcast address, which is tested first
(R22, spec/44_dispatcher.md R155). -/
def suppressFor (u : Byte) : Bool := u == Config.broadcast

/-- The code of an exception on the wire (R203). -/
def exceptionCode : ModbusException → Byte
  | .illegalFunction => 0x01#8
  | .illegalAddress => 0x02#8
  | .illegalValue => 0x03#8
  | .deviceFailure => 0x04#8

/-- The outcome a cycle reports for an exception (R201). -/
def exceptionOutcome : ModbusException → CycleOutcome
  | .illegalFunction => .illegalFunction
  | .illegalAddress => .illegalAddress
  | .illegalValue => .illegalValue
  | .deviceFailure => .deviceFailure

/-- The function code of an exception response: the request's `or 0x80` (spec/60_exceptions.md R204). -/
def exceptionFc (fc : Byte) : Byte := fc ||| 0x80#8

/-- The register `PHASE` (R16, R25). -/
def phaseCode : Phase → BitVec 3
  | .awaitingFrame => 0#3
  | .parsed => 1#3
  | .addressChecked => 2#3
  | .functionChecked => 3#3
  | .rangeValidated => 4#3
  | .executed => 5#3
  | .responseReady => 6#3

/-- The register `OUTCOME` (R201). -/
def outcomeCode : CycleOutcome → BitVec 4
  | .none => 0#4
  | .normal => 1#4
  | .timeout => 2#4
  | .frameError => 3#4
  | .badCrc => 4#4
  | .notRecipient => 5#4
  | .illegalFunction => 6#4
  | .illegalAddress => 7#4
  | .illegalValue => 8#4
  | .deviceFailure => 9#4

/-- The status registers as a reader of the block sees them (R25). -/
structure StatusRegisters where
  unitId : BitVec 8
  phase : BitVec 3
  outcome : BitVec 4
  replied : BitVec 1
  tableCount : BitVec 17
deriving DecidableEq, Repr

/-- Reading the status registers (R25): `TABLE_COUNT` is `T.n`. -/
def statusRegisters (s : State) : StatusRegisters :=
  { unitId := s.unitId
    phase := phaseCode s.phase
    outcome := outcomeCode s.outcome
    replied := BitVec.ofBool s.replied
    tableCount := BitVec.ofNat 17 s.table.length }

end Sys2Proof.Machine
end

