-- ==== Sys2Proof/Machine/Table.lean ====
section
/-! DEFINITION. The register table and its lookup engine (spec/42_register_table.md R120 to R128). -/

namespace Sys2Proof.Machine

/-- Addresses strictly rising (spec/10_state.md R12 (I-b), which includes (I-a)). -/
def Memory.sorted : Memory → Bool
  | [] => true
  | [_] => true
  | e₁ :: e₂ :: rest => decide (e₁.addr < e₂.addr) && Memory.sorted (e₂ :: rest)

/-- The canonical form of the table (R12): addresses strictly rising, each a u16.  An unlisted address is absent, which no
listed entry can say, so no entry equals what an unlisted address reads as and equal tables are equal lists. -/
def Memory.wf (m : Memory) : Bool := Memory.sorted m && m.all (fun e => decide (e.addr < 65536))

/-- The abstract value of the table at an address: `M(a)`, `none` where it is undefined (spec/10_state.md R13). -/
def Memory.lookup (m : Memory) (a : Nat) : Option Word := (m.find? (fun e => e.addr == a)).map (·.val)

/-- The loop of `find` over the window `[lo, hi)` (R120).  Each turn shrinks the window, so `fuel` at least `hi - lo` is never
used up. -/
def Memory.search (m : Memory) (a : Nat) : Nat → Nat → Nat → Bool × Nat
  | 0, lo, _ => (false, lo)
  | fuel + 1, lo, hi =>
    if lo < hi then
      match m[(lo + hi) / 2]? with
      | none => (false, lo)
      | some e =>
        if e.addr = a then (true, (lo + hi) / 2)
        else if e.addr < a then Memory.search m a fuel ((lo + hi) / 2 + 1) hi
        else Memory.search m a fuel lo ((lo + hi) / 2)
    else (false, lo)

/-- `find(a)` (R120): whether an entry has address `a`, and its index, or the insertion point. -/
def Memory.find (m : Memory) (a : Nat) : Bool × Nat := Memory.search m a m.length 0 m.length

/-- `get(a)` (R121): the stored value, or 0 if absent. -/
def Memory.get (m : Memory) (a : Nat) : Word :=
  if (Memory.find m a).1 then
    match m[(Memory.find m a).2]? with
    | some e => e.val
    | none => 0x0000#16
  else 0x0000#16

/-- `set(a, v)` with the capacity `cap` (R122): overwrite in place, or open a hole at the insertion point, or, when the table
is full, nothing (R128). -/
def Memory.set (cap : Nat) (m : Memory) (a : Nat) (v : Word) : Memory :=
  if (Memory.find m a).1 then m.modify (Memory.find m a).2 (fun e => { e with val := v })
  else if m.length < cap then m.take (Memory.find m a).2 ++ ⟨a, v⟩ :: m.drop (Memory.find m a).2
  else m

/-- `verify_and_set(a, v)` (R123): `set`, then whether reading the address back gives `v`. -/
def Memory.verifyAndSet (cap : Nat) (m : Memory) (a : Nat) (v : Word) : Memory × Bool :=
  (Memory.set cap m a v, Memory.get (Memory.set cap m a v) a == v)

/-- `exists(a)` (R124). -/
def Memory.present (m : Memory) (a : Nat) : Bool := (Memory.find m a).1

/-- `delete(a)` (R125): compact in place, or nothing if absent. -/
def Memory.delete (m : Memory) (a : Nat) : Memory :=
  if (Memory.find m a).1 then m.eraseIdx (Memory.find m a).2 else m

/-- The writes of a range function (spec/44_dispatcher.md R163): one `verify_and_set` for each value, in ascending address
order, every one attempted even after a failure; the flag is the conjunction of the results. -/
def Memory.writeRange (cap : Nat) : Memory → Nat → List Word → Memory × Bool
  | m, _, [] => (m, true)
  | m, a, v :: vs =>
    let first := Memory.verifyAndSet cap m a v
    let rest := Memory.writeRange cap first.1 (a + 1) vs
    (rest.1, first.2 && rest.2)

end Sys2Proof.Machine
end

