-- ==== Sys2Proof/Machine/Operands.lean ====
section
/-! DEFINITION. The operand forms: the bit-pack codec (spec/41_bitpack_codec.md R100 to R106), address translation and the value
and address checks (spec/44_dispatcher.md R158 to R162). -/

namespace Sys2Proof.Machine

/-! ### The bit-pack codec -/

/-- One byte from eight bits, bit `k` of the byte from `bit k` (spec/20_memory.md R46). -/
def packByte (bit : Nat → Bool) : Byte :=
  (List.range 8).foldl (fun b k => if bit k then b ||| (0x01#8 <<< k) else b) 0x00#8

/-- `pack_bits(T, start, count)` (R101): register `start + i` is bit `i mod 8` of byte `i div 8`, any nonzero value is 1, the
unused high bits of the last byte are 0. -/
def packBits (m : Memory) (start count : Nat) : List Byte :=
  (List.range (ceil8 count)).map fun j =>
    packByte fun k => decide (8 * j + k < count) && Memory.get m (start + (8 * j + k)) != 0x0000#16

/-- `unpack_bits(data, count)` (R102): bits at `count` and above are not looked at. -/
def unpackBits (data : List Byte) (count : Nat) : List Bool :=
  (List.range count).map fun i => (byteAt data (i / 8)).getLsbD (i % 8)

/-- `pack_words(T, start, count)` (R103): each register high byte first. -/
def packWords (m : Memory) (start count : Nat) : List Byte :=
  (List.range count).flatMap fun i => [hiByte (Memory.get m (start + i)), loByte (Memory.get m (start + i))]

/-- `unpack_words(data, count)` (R104). -/
def unpackWords (data : List Byte) (count : Nat) : List Word :=
  (List.range count).map fun i => be16 (byteAt data (2 * i)) (byteAt data (2 * i + 1))

/-- The value stored for a coil (R185, R187). -/
def coilValue (b : Bool) : Word := if b then Config.coilOn else 0x0000#16

/-! ### Address translation -/

/-- The kinds of register a request can name (R160). -/
inductive Kind where
  | coil
  | discrete
  | input
  | holding
deriving DecidableEq, Repr

/-- `base(kind)` (R160). -/
def Kind.base : Kind → Nat
  | .coil => Config.baseCoil
  | .discrete => Config.baseDiscrete
  | .input => Config.baseInput
  | .holding => Config.baseHolding

/-- `translate(kind, w) = base(kind) + w`, on Nat (R160, R165). -/
def translate (k : Kind) (w : Word) : Nat := k.base + w.toNat

/-! ### Checks, all on Nat (R165) -/

/-- Value check of a range read: `1 <= q <= bound` (R161 (v2)). -/
def amountOk (bound : Nat) (q : Word) : Bool := decide (1 ≤ q.toNat) && decide (q.toNat ≤ bound)

/-- Value check of `WRCOIL`: `q = 0x0000` or `q = 0xFF00` (R161 (v2)). -/
def coilWireOk (q : Word) : Bool := q == Config.wireOff || q == Config.wireOn

/-- Value checks (v2), (v3), (v4) of `WRCOILS` (R161); the byte count is compared on Nat (spec/90_conflicts.md C6). -/
def coilsValueOk (q : Word) (bc : Byte) (data : List Byte) : Bool :=
  amountOk Config.maxBits q && decide (bc.toNat = ceil8 q.toNat) && decide (data.length = bc.toNat)

/-- Value checks (v2), (v3), (v4) of `WRHOLDS` (R161). -/
def holdsValueOk (q : Word) (bc : Byte) (data : List Byte) : Bool :=
  amountOk Config.maxWords q && decide (bc.toNat = 2 * q.toNat) && decide (data.length = bc.toNat)

/-- Address check of a range function (R162): `w <= 9998` and the literal "End" bound `w + q <= 9998` (spec/90_conflicts.md
C5). -/
def rangeAddressOk (w q : Word) : Bool :=
  decide (w.toNat ≤ Config.spanMax) && decide (w.toNat + q.toNat ≤ Config.spanMax)

/-- Address check of a single write (R162): `w <= 9998`. -/
def singleAddressOk (w : Word) : Bool := decide (w.toNat ≤ Config.spanMax)

/-- The value checks come before the address checks, and exactly one exception is reported (R158). -/
def firstFailure (valueOk addressOk : Bool) : Option ModbusException :=
  if valueOk then (if addressOk then none else some .illegalAddress) else some .illegalValue

/-- `prefix(data)` (spec/45_functions.md R191): empty, or one byte with the low 8 bits of the data length. -/
def countPrefix (p : Params) (data : List Byte) : List Byte :=
  if p.respByteCount then [BitVec.ofNat 8 data.length] else []

/-- The payload of an `ECHO` response: the first four bytes of the request payload (spec/30_encoding.md R67). -/
def echoPayload (payload : List Byte) : List Byte := payload.take 4

end Sys2Proof.Machine
end

