-- ==== Sys2Proof/Machine/Ops.lean ====
section
/-! DEFINITION. The named operations over the state: reset, the edges of the dispatcher's state machine (spec/44_dispatcher.md
R150), taking an exception and the return from it (spec/60_exceptions.md R204, R207), the request cycle, and the
administrative port. -/

namespace Sys2Proof.Machine

/-! ### Reset -/

/-- `reset(cfg_unit_id)` of a running block (spec/70_reset_and_hazards.md R231).  What belongs to the outside world stays:
the parameters, what is still to be delivered, what was sent, what the administrative port answered. -/
def resetBlock (cfgUnitId : Byte) (s : State) : State :=
  { s with
    table := [], unitId := cfgUnitId, phase := .awaitingFrame, outcome := .none, replied := false,
    scratch := Scratch.reset }

/-! ### Ends of a cycle and the Result -/

/-- `phase <- P` (spec/00_scope.md R8). -/
def enter (p : Phase) (s : State) : State := { s with phase := p }

/-- `drop <Outcome>`: a silent outcome (spec/60_exceptions.md R202).  Nothing is sent and the table is not touched. -/
def drop (o : CycleOutcome) (s : State) : State :=
  { s with phase := .awaitingFrame, outcome := o, replied := false }

/-- The Result of a dispatched request, with the outcome the cycle will report (spec/10_state.md R20). -/
def setResult (o : CycleOutcome) (fc : Byte) (payload : List Byte) (s : State) : State :=
  { s with
    phase := .responseReady
    scratch := { s.scratch with verdict := o, rFc := fc, rPayload := payload } }

/-- TAKING AN EXCEPTION (spec/60_exceptions.md R204): the Result `{fc or 0x80, [code(E)]}` and phase `ResponseReady`.  Nothing
is saved and nothing else is written; `fc` is the function code of the request (`f_fc`). -/
def raise (e : ModbusException) (s : State) : State :=
  setResult (exceptionOutcome e) (exceptionFc s.scratch.fFc) [exceptionCode e] s

/-- THE RETURN, from a normal and from an exception Result alike (spec/44_dispatcher.md R164, spec/60_exceptions.md R207):
unless `suppress`, the Result is serialized with `UNIT_ID` (spec/43_frame_codec.md R145) and sent; the outcome is
reported; `phase` is `AwaitingFrame` again. -/
def respond (s : State) : State :=
  if s.scratch.suppress then
    { s with phase := .awaitingFrame, outcome := s.scratch.verdict, replied := false }
  else
    { s with
      phase := .awaitingFrame, outcome := s.scratch.verdict, replied := true
      scratch :=
        { s.scratch with
          tx := serialize s.unitId s.scratch.rFc s.scratch.rPayload
          crc := bodyCrc s.unitId s.scratch.rFc s.scratch.rPayload }
      sent := s.sent ++ [serialize s.unitId s.scratch.rFc s.scratch.rPayload] }

/-! ### The edges before the function code is looked at -/

/-- The receive buffer takes a frame (spec/10_state.md R17). -/
def latchRaw (raw : List Byte) (s : State) : State := { s with scratch := { s.scratch with raw := raw } }

/-- The edge `AwaitingFrame -> Parsed` (R153): the fields of `parse` are written (spec/10_state.md R18). -/
def latchFrame (f : Frame) (s : State) : State :=
  { s with
    phase := .parsed
    scratch := { s.scratch with fAddr := f.addr, fFc := f.fc, fPayload := f.payload, fCrc := f.crc } }

/-- The CRC and address checks on the way from `Parsed` to `AddressChecked` (R154, R155; spec/90_conflicts.md C8): the CRC
first, then the broadcast address, then `UNIT_ID`. -/
def addressEdge (s : State) : State :=
  let c := bodyCrc s.scratch.fAddr s.scratch.fFc s.scratch.fPayload
  let s := { s with scratch := { s.scratch with crc := c } }
  if c ≠ s.scratch.fCrc then drop .badCrc s
  else if s.scratch.fAddr = Config.broadcast ∨ s.scratch.fAddr = s.unitId then
    { s with
      phase := .addressChecked
      scratch := { s.scratch with suppress := suppressFor s.scratch.fAddr } }
  else drop .notRecipient s

/-! ### Field decoding and the checks (edges from `FunctionChecked`) -/

/-- The decoded fields `w`, `q` (spec/10_state.md R19, spec/44_dispatcher.md R159). -/
def latchFields (w q : Word) (s : State) : State := { s with scratch := { s.scratch with w := w, q := q } }

/-- The declared byte count (R19). -/
def latchByteCount (bc : Byte) (s : State) : State := { s with scratch := { s.scratch with bc := bc } }

/-- The edge from `FunctionChecked`: the exception of the first check that failed, or `RangeValidated` (R158). -/
def validated (failure : Option ModbusException) (s : State) : State :=
  match failure with
  | some e => raise e s
  | none => enter .rangeValidated s

/-- Step 6 for a format `AQ` request (R161): a payload that is not 4 bytes long fails value check (v1). -/
def validateAq (o : AqOperands) (check : Word → Word → Option ModbusException) (s : State) : State :=
  match o with
  | .badLength _ => raise .illegalValue s
  | .fields w q => validated (check w q) (latchFields w q s)

/-- Step 6 for a format `AQBD` request (R161): a payload shorter than 5 bytes fails value check (v1). -/
def validateAqbd (o : AqbdOperands) (check : Word → Word → Byte → List Byte → Option ModbusException)
    (s : State) : State :=
  match o with
  | .short _ => raise .illegalValue s
  | .fields w q bc data => validated (check w q bc data) (latchByteCount bc (latchFields w q s))

/-! ### Execution (the edge from `RangeValidated`) -/

/-- A read: the table is unchanged and `wr_ok` is true (R163).  DESIGN CHOICE, notes/assumptions/17.md: the data of the read
stands in `r_payload` until `conclude` makes the Result there; the spec lists no state for it (spec/10_state.md R10). -/
def executeRead (data : State → List Byte) (s : State) : State :=
  { s with
    phase := .executed
    scratch := { s.scratch with rPayload := data s, wrOk := true } }

/-- A write: the table after all the writes of the request, and `wr_ok` (R163). -/
def executeWrite (write : State → Memory × Bool) (s : State) : State :=
  { s with
    phase := .executed, table := (write s).1
    scratch := { s.scratch with wrOk := (write s).2 } }

/-- The one write of a single-write function (R163). -/
def writeOne (k : Kind) (v : State → Word) (s : State) : Memory × Bool :=
  Memory.verifyAndSet s.params.tableCap s.table (translate k s.scratch.w) (v s)

/-- The data bytes of a format `AQBD` payload: `p[5 .. len(p))` (R159). -/
def requestData (s : State) : List Byte := s.scratch.fPayload.drop 5

/-- The writes of a multiple-write function (R163). -/
def writeMany (k : Kind) (vs : State → List Word) (s : State) : Memory × Bool :=
  Memory.writeRange s.params.tableCap s.table (translate k s.scratch.w) (vs s)

/-! ### The Result (the edge from `Executed`) -/

/-- `DeviceFailure` when `wr_ok` is false (R163), else the normal Result with the request's function code (R164). -/
def conclude (payload : State → List Byte) (s : State) : State :=
  if s.scratch.wrOk then setResult .normal s.scratch.fFc (payload s) s else raise .deviceFailure s

/-- The payload of a read response: `prefix(data) ++ data` (spec/45_functions.md R191). -/
def readPayload (s : State) : List Byte := countPrefix s.params s.scratch.rPayload ++ s.scratch.rPayload

/-- The payload of a write response (spec/30_encoding.md R67). -/
def writePayload (s : State) : List Byte := echoPayload s.scratch.fPayload

/-! ### The request cycle -/

/-- A request at the protocol port: what its frame holds, and what it does on the four edges that depend on the function
code. -/
structure Request where
  addr : Byte
  fc : Byte
  payload : List Byte
  /-- the edge from `AddressChecked` (R157) -/
  dispatch : State → State
  /-- the edge from `FunctionChecked` (R158) -/
  validate : State → State
  /-- the edge from `RangeValidated` (R163) -/
  execute : State → State
  /-- the edge from `Executed` (R163, R164) -/
  conclude : State → State

/-- The frame of a request, as `parse` splits it. -/
def Request.frame (r : Request) : Frame := ⟨r.addr, r.fc, r.payload, bodyCrc r.addr r.fc r.payload⟩

/-- One edge of the state machine (R150). -/
def edge (r : Request) (s : State) : State :=
  match s.phase with
  | .awaitingFrame => latchFrame r.frame (latchRaw (serialize r.addr r.fc r.payload) s)
  | .parsed => addressEdge s
  | .addressChecked => r.dispatch s
  | .functionChecked => r.validate s
  | .rangeValidated => r.execute s
  | .executed => r.conclude s
  | .responseReady => respond s

/-- Edges until `AwaitingFrame` is reached again, at most `fuel` of them; six are enough from any phase (R150: no loop). -/
def finish (r : Request) : Nat → State → State
  | 0, s => s
  | fuel + 1, s => if s.phase = .awaitingFrame then s else finish r fuel (edge r s)

/-- The cycle of a request (R151), as one step (R167): the first edge, then the others.  A block that is in the middle of a
cycle goes on from its phase. -/
def runRequest (r : Request) (s : State) : State := finish r 6 (edge r s)

/-- A request with a supported function code: its edge from `AddressChecked` only records that (R157). -/
def supportedRequest (addr fc : Byte) (payload : List Byte) (validate execute conclude : State → State) : Request :=
  ⟨addr, fc, payload, enter .functionChecked, validate, execute, conclude⟩

/-- A range read with format `AQ` and response `RD`: amount bound, kind, and how the data is packed (R181 to R184). -/
def readRequest (addr fc : Byte) (o : AqOperands) (bound : Nat) (k : Kind)
    (pack : Memory → Nat → Nat → List Byte) : Request :=
  supportedRequest addr fc o.toBytes
    (validateAq o fun w q => firstFailure (amountOk bound q) (rangeAddressOk w q))
    (executeRead fun s => pack s.table (translate k s.scratch.w) s.scratch.q.toNat)
    (conclude readPayload)

/-- A single write with format `AQ` and response `ECHO`: value check, kind, and the value stored (R185, R186). -/
def writeRequest (addr fc : Byte) (o : AqOperands) (valueOk : Word → Bool) (k : Kind) (stored : Word → Word) : Request :=
  supportedRequest addr fc o.toBytes
    (validateAq o fun w q => firstFailure (valueOk q) (singleAddressOk w))
    (executeWrite (writeOne k fun s => stored s.scratch.q))
    (conclude writePayload)

/-- A multiple write with format `AQBD` and response `ECHO`: value checks, kind, and how the values are unpacked (R187, R188). -/
def writeManyRequest (addr fc : Byte) (o : AqbdOperands) (valueOk : Word → Byte → List Byte → Bool) (k : Kind)
    (unpack : List Byte → Nat → List Word) : Request :=
  supportedRequest addr fc o.toBytes
    (validateAqbd o fun w q bc data => firstFailure (valueOk q bc data) (rangeAddressOk w q))
    (executeWrite (writeMany k fun s => unpack (requestData s) s.scratch.q.toNat))
    (conclude writePayload)

/-- A request that is answered on the edge from `AddressChecked` (R157): an unsupported code, or an extension code.  Its cycle
enters none of the three phases that follow; from there it would be answered in the same way. -/
def immediateRequest (addr fc : Byte) (payload : List Byte) (answer : State → State) : Request :=
  ⟨addr, fc, payload, answer, answer, enter .executed, answer⟩

/-- `UNSUPPORTED` (spec/45_functions.md R189): the payload is not examined. -/
def unsupportedRequest (addr fc : Byte) (payload : List Byte) : Request :=
  immediateRequest addr fc payload (raise .illegalFunction)

/-- The Result of the extension handler's answer (spec/45_functions.md R190).  DESIGN CHOICE, unsafe, notes/assumptions/18.md: an
answer of any length is serialized and sent whole, one longer than `TX_MAX - 4` bytes too. -/
def extensionResult (code : Byte) (reply : ExtReply) (s : State) : State :=
  match reply with
  | .normal payload => setResult .normal code payload s
  | .exception e => raise e s

/-- The extension hook (R190): the handler is called once, with the code and the payload, and has no access to the table. -/
def extensionEdge (code : Byte) (payload : List Byte) (s : State) : State :=
  extensionResult code (Config.extHandler s.freeCount code payload) { s with freeCount := s.freeCount + 1 }

/-- A request with an extension code (R190). -/
def extensionRequest (addr code : Byte) (payload : List Byte) : Request :=
  immediateRequest addr code payload (extensionEdge code payload)

/-! ### The administrative port -/

/-- An operation of the administrative port (spec/42_register_table.md R127): accepted only in `AwaitingFrame`, otherwise
held, which leaves the state as it is.  It writes the table and its own outputs, never `phase`, `OUTCOME` or `REPLIED`. -/
def admPerform (op : Memory → Memory × AdmResult) (s : State) : State :=
  if s.phase = .awaitingFrame then { s with table := (op s.table).1, admOut := (op s.table).2 } else s

end Sys2Proof.Machine
end

