-- ==== Sys2Proof/Machine/Admin.lean ====
section
/-! DEFINITION. The administrative port (spec/42_register_table.md R121 to R127, spec/30_encoding.md R69): any address, no
validation, no kind check. -/

namespace Sys2Proof.Machine

/-- The meaning of `ADM.GET` (R121). -/
def execAdmGet (addr : Word) (s : State) : Host.Outcome State Fault Refusal :=
  .next (admPerform (fun m => (m, ⟨some (Memory.get m addr.toNat), none⟩)) s)

/-- The meaning of `ADM.SET` (R122). -/
def execAdmSet (addr wdata : Word) (s : State) : Host.Outcome State Fault Refusal :=
  .next (admPerform (fun m => (Memory.set s.params.tableCap m addr.toNat wdata, ⟨none, none⟩)) s)

/-- What `ADM.VSET` does to the table, and its answer (R123). -/
def admVsetOp (cap : Nat) (addr wdata : Word) (m : Memory) : Memory × AdmResult :=
  let r := Memory.verifyAndSet cap m addr.toNat wdata
  (r.1, ⟨none, some r.2⟩)

/-- The meaning of `ADM.VSET` (R123). -/
def execAdmVset (addr wdata : Word) (s : State) : Host.Outcome State Fault Refusal :=
  .next (admPerform (admVsetOp s.params.tableCap addr wdata) s)

/-- The meaning of `ADM.EXISTS` (R124). -/
def execAdmExists (addr : Word) (s : State) : Host.Outcome State Fault Refusal :=
  .next (admPerform (fun m => (m, ⟨none, some (Memory.present m addr.toNat)⟩)) s)

/-- The meaning of `ADM.DELETE` (R125). -/
def execAdmDelete (addr : Word) (s : State) : Host.Outcome State Fault Refusal :=
  .next (admPerform (fun m => (Memory.delete m addr.toNat, ⟨none, none⟩)) s)

/-- The meaning of the reserved operation code 5: no operation, outputs 0 (R69). -/
def execAdmReserved5 (s : State) : Host.Outcome State Fault Refusal :=
  .next (admPerform (fun m => (m, ⟨some 0x0000#16, some false⟩)) s)

/-- The meaning of the reserved operation codes 6 and 7: no operation, outputs 0 (R69).  The two do the same. -/
def execAdmReserved67 (_low : Bool) (s : State) : Host.Outcome State Fault Refusal :=
  .next (admPerform (fun m => (m, ⟨some 0x0000#16, some false⟩)) s)

end Sys2Proof.Machine
end

