-- ==== Sys2Proof/Machine/Reads.lean ====
section
/-! DEFINITION. The read functions (spec/45_functions.md R181 to R184). -/

namespace Sys2Proof.Machine

/-- `RDCOIL`, 0x01 (R181). -/
def rdcoilRequest (u : Byte) (o : AqOperands) : Request := readRequest u 0x01#8 o Config.maxBits .coil packBits

/-- The meaning of Read Coils (R181). -/
def execRdcoil (u : Byte) (o : AqOperands) (s : State) : Host.Outcome State Fault Refusal :=
  .next (runRequest (rdcoilRequest u o) s)

/-- `RDDISC`, 0x02 (R182). -/
def rddiscRequest (u : Byte) (o : AqOperands) : Request := readRequest u 0x02#8 o Config.maxBits .discrete packBits

/-- The meaning of Read Discretes (R182). -/
def execRddisc (u : Byte) (o : AqOperands) (s : State) : Host.Outcome State Fault Refusal :=
  .next (runRequest (rddiscRequest u o) s)

/-- `RDHOLD`, 0x03 (R183). -/
def rdholdRequest (u : Byte) (o : AqOperands) : Request := readRequest u 0x03#8 o Config.maxWords .holding packWords

/-- The meaning of Read Holdings (R183). -/
def execRdhold (u : Byte) (o : AqOperands) (s : State) : Host.Outcome State Fault Refusal :=
  .next (runRequest (rdholdRequest u o) s)

/-- `RDINP`, 0x04 (R184). -/
def rdinpRequest (u : Byte) (o : AqOperands) : Request := readRequest u 0x04#8 o Config.maxWords .input packWords

/-- The meaning of Read Inputs (R184). -/
def execRdinp (u : Byte) (o : AqOperands) (s : State) : Host.Outcome State Fault Refusal :=
  .next (runRequest (rdinpRequest u o) s)

end Sys2Proof.Machine
end

