-- ==== Sys2Proof/Machine/Unsupported.lean ====
section
/-! DEFINITION. The extension hook and the unsupported function codes (spec/45_functions.md R189, R190; spec/30_encoding.md R71,
R72): the twelve rows of spec/opcode_table.json that cover every code not supported. -/

namespace Sys2Proof.Machine

/-- The meaning of an extension code (R190). -/
def execExt (u code : Byte) (payload : List Byte) (s : State) : Host.Outcome State Fault Refusal :=
  .next (runRequest (extensionRequest u code payload) s)

/-- The meaning of the unsupported code 0x00 (R189). -/
def execUnsupported0000 (u : Byte) (payload : List Byte) (s : State) : Host.Outcome State Fault Refusal :=
  .next (runRequest (unsupportedRequest u 0x00#8 payload) s)

/-- The meaning of the unsupported code 0x07 (R189). -/
def execUnsupported0707 (u : Byte) (payload : List Byte) (s : State) : Host.Outcome State Fault Refusal :=
  .next (runRequest (unsupportedRequest u 0x07#8 payload) s)

/-- The meaning of the unsupported codes 0x08 to 0x0B (R189). -/
def execUnsupported080B (u fc : Byte) (payload : List Byte) (s : State) : Host.Outcome State Fault Refusal :=
  .next (runRequest (unsupportedRequest u fc payload) s)

/-- The meaning of the unsupported codes 0x0C and 0x0D (R189). -/
def execUnsupported0C0D (u fc : Byte) (payload : List Byte) (s : State) : Host.Outcome State Fault Refusal :=
  .next (runRequest (unsupportedRequest u fc payload) s)

/-- The meaning of the unsupported code 0x0E (R189). -/
def execUnsupported0E0E (u : Byte) (payload : List Byte) (s : State) : Host.Outcome State Fault Refusal :=
  .next (runRequest (unsupportedRequest u 0x0E#8 payload) s)

/-- The meaning of the unsupported code 0x11 (R189). -/
def execUnsupported1111 (u : Byte) (payload : List Byte) (s : State) : Host.Outcome State Fault Refusal :=
  .next (runRequest (unsupportedRequest u 0x11#8 payload) s)

/-- The meaning of the unsupported codes 0x12 and 0x13 (R189). -/
def execUnsupported1213 (u fc : Byte) (payload : List Byte) (s : State) : Host.Outcome State Fault Refusal :=
  .next (runRequest (unsupportedRequest u fc payload) s)

/-- The meaning of the unsupported codes 0x14 to 0x17 (R189). -/
def execUnsupported1417 (u fc : Byte) (payload : List Byte) (s : State) : Host.Outcome State Fault Refusal :=
  .next (runRequest (unsupportedRequest u fc payload) s)

/-- The meaning of the unsupported codes 0x18 to 0x1F (R189). -/
def execUnsupported181F (u fc : Byte) (payload : List Byte) (s : State) : Host.Outcome State Fault Refusal :=
  .next (runRequest (unsupportedRequest u fc payload) s)

/-- The meaning of the unsupported codes 0x20 to 0x3F (R189). -/
def execUnsupported203F (u fc : Byte) (payload : List Byte) (s : State) : Host.Outcome State Fault Refusal :=
  .next (runRequest (unsupportedRequest u fc payload) s)

/-- The meaning of the unsupported codes 0x40 to 0x7F (R189). -/
def execUnsupported407F (u fc : Byte) (payload : List Byte) (s : State) : Host.Outcome State Fault Refusal :=
  .next (runRequest (unsupportedRequest u fc payload) s)

/-- The meaning of the unsupported codes 0x80 to 0xFF (R189). The response repeats the code (R72). -/
def execUnsupported80FF (u fc : Byte) (payload : List Byte) (s : State) : Host.Outcome State Fault Refusal :=
  .next (runRequest (unsupportedRequest u fc payload) s)

end Sys2Proof.Machine
end

