-- ==== Sys2Proof/Machine/Writes.lean ====
section
/-! DEFINITION. The single and multiple write functions (spec/45_functions.md R185 to R188). -/

namespace Sys2Proof.Machine

/-- The value `WRCOIL` stores for its value field (R185): `COIL_ON` for 0xFF00, 0 for 0x0000. -/
def coilStored (q : Word) : Word := coilValue (q == Config.wireOn)

/-- `WRCOIL`, 0x05 (R185). -/
def wrcoilRequest (u : Byte) (o : AqOperands) : Request := writeRequest u 0x05#8 o coilWireOk .coil coilStored

/-- The meaning of Write Coil (R185). -/
def execWrcoil (u : Byte) (o : AqOperands) (s : State) : Host.Outcome State Fault Refusal :=
  .next (runRequest (wrcoilRequest u o) s)

/-- `WRHOLD`, 0x06 (R186): no check on the value. -/
def wrholdRequest (u : Byte) (o : AqOperands) : Request := writeRequest u 0x06#8 o (fun _ => true) .holding id

/-- The meaning of Write Holding (R186). -/
def execWrhold (u : Byte) (o : AqOperands) (s : State) : Host.Outcome State Fault Refusal :=
  .next (runRequest (wrholdRequest u o) s)

/-- The values `WRCOILS` stores for its data bytes (R187). -/
def coilsStored (data : List Byte) (count : Nat) : List Word := (unpackBits data count).map coilValue

/-- `WRCOILS`, 0x0F (R187). -/
def wrcoilsRequest (u : Byte) (o : AqbdOperands) : Request := writeManyRequest u 0x0F#8 o coilsValueOk .coil coilsStored

/-- The meaning of Write Coils (R187). -/
def execWrcoils (u : Byte) (o : AqbdOperands) (s : State) : Host.Outcome State Fault Refusal :=
  .next (runRequest (wrcoilsRequest u o) s)

/-- `WRHOLDS`, 0x10 (R188). -/
def wrholdsRequest (u : Byte) (o : AqbdOperands) : Request := writeManyRequest u 0x10#8 o holdsValueOk .holding unpackWords

/-- The meaning of Write Holdings (R188). -/
def execWrholds (u : Byte) (o : AqbdOperands) (s : State) : Host.Outcome State Fault Refusal :=
  .next (runRequest (wrholdsRequest u o) s)

end Sys2Proof.Machine
end

