-- ==== Sys2Proof/Machine/Dispatch.lean ====
section
/-! DEFINITION. One arm per instruction. -/

namespace Sys2Proof.Machine

/-- What an instruction does to a state. -/
def exec (i : Instr) (s : State) : Host.Outcome State Fault Refusal :=
  match i with
  | .rdcoil u o => Sys2Proof.Machine.execRdcoil u o s
  | .rddisc u o => Sys2Proof.Machine.execRddisc u o s
  | .rdhold u o => Sys2Proof.Machine.execRdhold u o s
  | .rdinp u o => Sys2Proof.Machine.execRdinp u o s
  | .wrcoil u o => Sys2Proof.Machine.execWrcoil u o s
  | .wrhold u o => Sys2Proof.Machine.execWrhold u o s
  | .wrcoils u o => Sys2Proof.Machine.execWrcoils u o s
  | .wrholds u o => Sys2Proof.Machine.execWrholds u o s
  | .ext u code payload => Sys2Proof.Machine.execExt u code payload s
  | .unsupported0000 u payload => Sys2Proof.Machine.execUnsupported0000 u payload s
  | .unsupported0707 u payload => Sys2Proof.Machine.execUnsupported0707 u payload s
  | .unsupported080B u fc payload => Sys2Proof.Machine.execUnsupported080B u fc payload s
  | .unsupported0C0D u fc payload => Sys2Proof.Machine.execUnsupported0C0D u fc payload s
  | .unsupported0E0E u payload => Sys2Proof.Machine.execUnsupported0E0E u payload s
  | .unsupported1111 u payload => Sys2Proof.Machine.execUnsupported1111 u payload s
  | .unsupported1213 u fc payload => Sys2Proof.Machine.execUnsupported1213 u fc payload s
  | .unsupported1417 u fc payload => Sys2Proof.Machine.execUnsupported1417 u fc payload s
  | .unsupported181F u fc payload => Sys2Proof.Machine.execUnsupported181F u fc payload s
  | .unsupported203F u fc payload => Sys2Proof.Machine.execUnsupported203F u fc payload s
  | .unsupported407F u fc payload => Sys2Proof.Machine.execUnsupported407F u fc payload s
  | .unsupported80FF u fc payload => Sys2Proof.Machine.execUnsupported80FF u fc payload s
  | .admGet addr => Sys2Proof.Machine.execAdmGet addr s
  | .admSet addr wdata => Sys2Proof.Machine.execAdmSet addr wdata s
  | .admVset addr wdata => Sys2Proof.Machine.execAdmVset addr wdata s
  | .admExists addr => Sys2Proof.Machine.execAdmExists addr s
  | .admDelete addr => Sys2Proof.Machine.execAdmDelete addr s
  | .admReserved5 => Sys2Proof.Machine.execAdmReserved5 s
  | .admReserved67 low => Sys2Proof.Machine.execAdmReserved67 low s

end Sys2Proof.Machine
end

