-- ==== Sys2Proof/Machine/Fetch.lean ====
section
/-! DEFINITION. Where the block takes its next instruction from: the events the outside world delivers
(spec/60_exceptions.md R206), and the request in progress when a cycle has not ended. -/

namespace Sys2Proof.Machine

/-- What one step has to do. -/
inductive Work where
  /-- run an instruction at a state -/
  | run (i : Instr) (s : State)
  /-- nothing is left to run: the state after the step -/
  | settled (s : State)

/-- What one step has to do, and whether a reset strikes while it does it (spec/70_reset_and_hazards.md R239). -/
inductive Fetched where
  | whole (w : Work)
  | cutByReset (w : Work) (cfgUnitId : Byte)

/-- Whether a frame does not fit the receive buffer (spec/44_dispatcher.md R153). -/
def tooLong (p : Params) (raw : List Byte) : Bool :=
  match p.rxMax with
  | none => false
  | some n => decide (n < raw.length)

/-- A frame arrives (R153, R154): too long or too short is `FrameError`, a wrong CRC is `BadCrc` after the frame has been
split, and every other frame is a request. -/
def fetchFrame (raw : List Byte) (s : State) : Work :=
  if tooLong s.params raw then .settled (drop .frameError s)
  else
    match parse raw with
    | none => .settled (drop .frameError (latchRaw raw s))
    | some f =>
      match decodeFrame s.params.extCodes raw with
      | .instr i => .run i s
      | .rejected _ => .settled (addressEdge (latchFrame f (latchRaw raw s)))

/-- A request arrives at one of the ports. -/
def fetchRequest (x : PortWord) (s : State) : Work :=
  match x with
  | .frame raw => fetchFrame raw s
  | .adm op addr wdata => .run (decodeAdm op addr wdata) s

/-- The event at the head of the schedule is taken. -/
def fetchEvent (e : Event) (s : State) : Fetched :=
  match e with
  | .request x => .whole (fetchRequest x s)
  | .timeout => .whole (.settled (drop .timeout s))
  | .reset cfgUnitId => .whole (.settled (resetBlock cfgUnitId s))
  | .resetDuring raw cfgUnitId => .cutByReset (fetchFrame raw s) cfgUnitId

/-- The request of the cycle in progress (spec/10_state.md R18). -/
def inProgress (s : State) : Work :=
  match decodeRequest s.params.extCodes s.scratch.fAddr s.scratch.fFc s.scratch.fPayload with
  | some i => .run i s
  | none => .settled s

/-- The next thing to do.  In the middle of a cycle the cycle goes on and no event is taken (spec/42_register_table.md R127,
spec/44_dispatcher.md R167); with nothing delivered the block is idle and keeps all of its state (spec/60_exceptions.md
R214). -/
def fetch (s : State) : Fetched :=
  if s.phase = .awaitingFrame then
    match s.pending with
    | [] => .whole (.settled s)
    | e :: rest => fetchEvent e { s with pending := rest }
  else .whole (inProgress s)

/-- A reset during the cycle that led from `before` to `after` (spec/70_reset_and_hazards.md R239): the state is that of R231,
no outcome is reported, and of a response that was being handed over the first `Config.inFlight` bytes, none or all of
them among the possibilities, have left the block. -/
def cutShort (cfgUnitId : Byte) (before after : State) : State :=
  let onTheWire := ((after.sent.drop before.sent.length).map fun f => f.take (Config.inFlight after.freeCount)).filter
    fun f => !f.isEmpty
  { resetBlock cfgUnitId after with sent := before.sent ++ onTheWire, freeCount := after.freeCount + 1 }

end Sys2Proof.Machine
end

