-- ==== Sys2Proof/Machine/Step.lean ====
section
/-! DEFINITION. One step: one event, or the rest of a cycle in progress. -/

namespace Sys2Proof.Machine

/-- Do the work a step has fetched. -/
def perform (w : Work) : Host.Outcome State Fault Refusal :=
  match w with
  | .run i s => exec i s
  | .settled s => .next s

/-- One step of the block (spec/44_dispatcher.md R151, R167): a whole request cycle, one administrative operation, a timeout, a
reset, or, with nothing delivered, nothing. -/
def step (s : State) : Host.Outcome State Fault Refusal :=
  match fetch s with
  | .whole w => perform w
  | .cutByReset w cfgUnitId =>
    match perform w with
    | .next t => .next (cutShort cfgUnitId s t)
    | .fault r => .fault r
    | .refused r => .refused r

/-- The state whose next step runs the instruction of a word of spec/opcode_table.json: the word is the next thing the
outside world delivers, to a block that waits for it. -/
def State.withFetchWord (s : State) (nbits w : Nat) : State :=
  { s with phase := .awaitingFrame, pending := .request (tableWord nbits w) :: s.pending }

end Sys2Proof.Machine
end

