-- ==== Sys2Proof/Safety.lean ====
section
/-! DEFINITION. What a legal state is, and the words the claims use: the request of an instruction, the edges of the state
machine, how a cycle ends, and what a request may write. -/

namespace Sys2Proof.Machine

/-- The legal states: between cycles (spec/10_state.md R16), the table in canonical form (R12) and within its capacity (R11),
the parameters in their ranges (spec/00_scope.md R5). -/
abbrev State.Inv (s : State) : Prop :=
  s.phase = .awaitingFrame ∧ Memory.wf s.table = true ∧ s.table.length ≤ s.params.tableCap ∧ Params.wf s.params = true

/-- The edges of spec/44_dispatcher.md R150. -/
def Phase.mayMove : Phase → Phase → Bool
  | .awaitingFrame, .awaitingFrame => true
  | .awaitingFrame, .parsed => true
  | .parsed, .awaitingFrame => true
  | .parsed, .addressChecked => true
  | .addressChecked, .responseReady => true
  | .addressChecked, .functionChecked => true
  | .functionChecked, .responseReady => true
  | .functionChecked, .rangeValidated => true
  | .rangeValidated, .executed => true
  | .executed, .responseReady => true
  | .responseReady, .awaitingFrame => true
  | _, _ => false

/-- The request an instruction of the protocol port makes; `none` at the administrative port. -/
def Instr.request? : Instr → Option Request
  | .rdcoil u o => some (rdcoilRequest u o)
  | .rddisc u o => some (rddiscRequest u o)
  | .rdhold u o => some (rdholdRequest u o)
  | .rdinp u o => some (rdinpRequest u o)
  | .wrcoil u o => some (wrcoilRequest u o)
  | .wrhold u o => some (wrholdRequest u o)
  | .wrcoils u o => some (wrcoilsRequest u o)
  | .wrholds u o => some (wrholdsRequest u o)
  | .ext u code p => some (extensionRequest u code p)
  | .unsupported0000 u p => some (unsupportedRequest u 0x00#8 p)
  | .unsupported0707 u p => some (unsupportedRequest u 0x07#8 p)
  | .unsupported080B u fc p => some (unsupportedRequest u fc p)
  | .unsupported0C0D u fc p => some (unsupportedRequest u fc p)
  | .unsupported0E0E u p => some (unsupportedRequest u 0x0E#8 p)
  | .unsupported1111 u p => some (unsupportedRequest u 0x11#8 p)
  | .unsupported1213 u fc p => some (unsupportedRequest u fc p)
  | .unsupported1417 u fc p => some (unsupportedRequest u fc p)
  | .unsupported181F u fc p => some (unsupportedRequest u fc p)
  | .unsupported203F u fc p => some (unsupportedRequest u fc p)
  | .unsupported407F u fc p => some (unsupportedRequest u fc p)
  | .unsupported80FF u fc p => some (unsupportedRequest u fc p)
  | .admGet _ => none
  | .admSet _ _ => none
  | .admVset _ _ => none
  | .admExists _ => none
  | .admDelete _ => none
  | .admReserved5 => none
  | .admReserved67 _ => none

/-- The state is as it was but for the table, the report of the cycle (`outcome`, `replied`, `sent`), the count of free values
and the scratch state: what no cycle of a request may touch (spec/44_dispatcher.md R168).  `phase` is `AwaitingFrame`.  That
`admOut` stays is the model's choice (notes/assumptions/8.md), and `pending` is the model's own (notes/assumptions/7.md). -/
abbrev State.CycleKeeps (s t : State) : Prop :=
  t.params = s.params ∧ t.unitId = s.unitId ∧ t.pending = s.pending ∧ t.admOut = s.admOut ∧ t.phase = .awaitingFrame

/-- How a dispatched request ends (spec/44_dispatcher.md R164): the outcome `o` is reported; a broadcast is not answered; any
other request is answered with the one frame that holds `UNIT_ID`, the function code `fc` and the payload. -/
abbrev State.Answered (s t : State) (u : Byte) (o : CycleOutcome) (fc : Byte) (payload : List Byte) : Prop :=
  t.outcome = o ∧
  (if u = 0x00#8 then t.replied = false ∧ t.sent = s.sent
   else t.replied = true ∧ t.sent = s.sent ++ [serialize s.unitId fc payload])

/-- Nothing is sent, and the outcome `o` is reported (spec/60_exceptions.md R202).  That `admOut` stays is the model's choice
(notes/assumptions/8.md). -/
abbrev State.Silent (s t : State) (o : CycleOutcome) : Prop :=
  t.outcome = o ∧ t.replied = false ∧ t.sent = s.sent ∧ t.phase = .awaitingFrame ∧ t.table = s.table ∧
  t.params = s.params ∧ t.unitId = s.unitId ∧ t.admOut = s.admOut ∧ t.freeCount = s.freeCount

/-- The block takes a request addressed to it, or to all (spec/44_dispatcher.md R155), from between two cycles. -/
abbrev State.Takes (s : State) (u : Byte) : Prop :=
  s.phase = .awaitingFrame ∧ (u = 0x00#8 ∨ u = s.unitId)

/-- The table addresses some function code can write (spec/20_memory.md R42): the coils and the holding registers. -/
abbrev protocolWritable (a : Nat) : Prop := a ≤ 9998 ∨ (40000 ≤ a ∧ a ≤ 49998)

/-- Two states that differ at most in their scratch state. -/
abbrev State.SameButScratch (s t : State) : Prop := { t with scratch := s.scratch } = s

/-- The same request with another address byte; an operation of the administrative port has none. -/
def Instr.withUnit (u : Byte) : Instr → Instr
  | .rdcoil _ o => .rdcoil u o
  | .rddisc _ o => .rddisc u o
  | .rdhold _ o => .rdhold u o
  | .rdinp _ o => .rdinp u o
  | .wrcoil _ o => .wrcoil u o
  | .wrhold _ o => .wrhold u o
  | .wrcoils _ o => .wrcoils u o
  | .wrholds _ o => .wrholds u o
  | .ext _ code p => .ext u code p
  | .unsupported0000 _ p => .unsupported0000 u p
  | .unsupported0707 _ p => .unsupported0707 u p
  | .unsupported080B _ fc p => .unsupported080B u fc p
  | .unsupported0C0D _ fc p => .unsupported0C0D u fc p
  | .unsupported0E0E _ p => .unsupported0E0E u p
  | .unsupported1111 _ p => .unsupported1111 u p
  | .unsupported1213 _ fc p => .unsupported1213 u fc p
  | .unsupported1417 _ fc p => .unsupported1417 u fc p
  | .unsupported181F _ fc p => .unsupported181F u fc p
  | .unsupported203F _ fc p => .unsupported203F u fc p
  | .unsupported407F _ fc p => .unsupported407F u fc p
  | .unsupported80FF _ fc p => .unsupported80FF u fc p
  | .admGet a => .admGet a
  | .admSet a v => .admSet a v
  | .admVset a v => .admVset a v
  | .admExists a => .admExists a
  | .admDelete a => .admDelete a
  | .admReserved5 => .admReserved5
  | .admReserved67 low => .admReserved67 low

/-- The loop of spec/45_functions.md R187 and R188, as it is written there: for `i` from 0 to `count - 1`, one `verify_and_set`
at `start + i`, every one attempted, the results taken together. -/
def writeLoop (cap : Nat) (m : Memory) (start count : Nat) (value : Nat → Word) : Memory × Bool :=
  (List.range count).foldl
    (fun acc i =>
      ((Memory.verifyAndSet cap acc.1 (start + i) (value i)).1,
        acc.2 && (Memory.verifyAndSet cap acc.1 (start + i) (value i)).2))
    (m, true)

/-- The frame fits the receive buffer (spec/44_dispatcher.md R153). -/
abbrev fitsBuffer (p : Params) (raw : List Byte) : Prop := ∀ n, p.rxMax = some n → raw.length ≤ n

/-- The last two bytes of a frame are the CRC of the others, low byte first (spec/30_encoding.md R62, spec/20_memory.md R45). -/
abbrev crcCorrect (raw : List Byte) : Prop :=
  crc16 (raw.take (raw.length - 2)) = be16 (byteAt raw (raw.length - 1)) (byteAt raw (raw.length - 2))

/-- The next event is the frame `raw`, and the block waits for it. -/
abbrev State.Receives (s : State) (raw : List Byte) (rest : List Event) : Prop :=
  s.phase = .awaitingFrame ∧ s.pending = .request (.frame raw) :: rest

/-- The sequence `f` with bit `k` of its `8 * f.length` bits inverted, bit 0 being the least significant of byte 0. -/
def flipBit (f : List Byte) (k : Nat) : List Byte := f.modify (k / 8) (fun b => b ^^^ (0x01#8 <<< (k % 8)))

end Sys2Proof.Machine
end

