-- ==== Sys2Proof/Certificates/Slice0/Obligations.lean ====
section
/-! DEFINITION. The statements for the provers.  Each docstring names the rule of spec/ it formalises. -/

open Sys2Proof Sys2Proof.Machine

/-! ### Reset, start-up, events -/

/-- spec/70_reset_and_hazards.md R231, spec/10_state.md R27: a reset taken between two cycles leaves the state of R231 and sends
nothing.  That it leaves the events that wait and the parameters alone is the model's deduction, notes/assumptions/14.md. -/
def Obligations.ResetEmptiesTheTableAndLoadsUnitId : Prop :=
  ∀ (s : State) (cfg : Byte) (rest : List Event), s.phase = .awaitingFrame → s.pending = .reset cfg :: rest →
    ∃ t, step s = .next t ∧ t.table = [] ∧ t.unitId = cfg ∧ t.phase = .awaitingFrame ∧ t.outcome = .none ∧
      t.replied = false ∧ t.sent = s.sent ∧ t.pending = rest ∧ t.params = s.params ∧
      (∀ a, Memory.get t.table a = 0x0000#16 ∧ Memory.present t.table a = false)

/-- The reset state is legal (spec/10_state.md R12, R27). -/
def Obligations.ResetStateIsLegal : Prop :=
  State.Inv State.reset ∧ ∀ (p : Params) (cfg : Byte), Params.wf p = true → State.Inv (State.resetWith p cfg)

/-- Every step keeps the legal states: the table in canonical form and within its capacity, the phase `AwaitingFrame`, the
parameters in their ranges (spec/10_state.md R11, R12, R16; spec/42_register_table.md R126). -/
def Obligations.StepKeepsLegalStates : Prop :=
  ∀ s : State, State.Inv s → ∃ t, step s = .next t ∧ State.Inv t

/-- spec/44_dispatcher.md R167, spec/60_exceptions.md R206, R214: every step, from every state, answers a next state in phase
`AwaitingFrame`; it takes exactly one event when the block waits for one and an event is there, and none in the middle of a
cycle, when the cycle in progress is finished first.  (The schedule of events is the model's own, notes/assumptions/7.md.) -/
def Obligations.EveryStepEndsAndTakesAtMostOneEvent : Prop :=
  ∀ s : State, ∃ t, step s = .next t ∧ t.phase = .awaitingFrame ∧
    t.pending = (if s.phase = .awaitingFrame then s.pending.tail else s.pending) ∧
    (s.phase = .awaitingFrame → s.pending = [] → t = s)

/-- A step runs the decoded instruction: the frame, or the administrative operation, that is delivered next is taken from the
schedule and executed (spec/44_dispatcher.md R151, spec/42_register_table.md R127).  (The schedule is the model's own,
notes/assumptions/7.md.) -/
def Obligations.StepRunsTheDecodedInstruction : Prop :=
  (∀ (s : State) (raw : List Byte) (rest : List Event) (i : Instr), State.Receives s raw rest →
    fitsBuffer s.params raw → decode s.params.extCodes (.frame raw) = .instr i →
    step s = exec i { s with pending := rest }) ∧
  (∀ (s : State) (op : BitVec 3) (addr wdata : Word) (rest : List Event) (i : Instr), s.phase = .awaitingFrame →
    s.pending = .request (.adm op addr wdata) :: rest → decode s.params.extCodes (.adm op addr wdata) = .instr i →
    step s = exec i { s with pending := rest })

/-- spec/44_dispatcher.md R152: on `Timeout` nothing but the report changes. -/
def Obligations.TimeoutOnlyReports : Prop :=
  ∀ (s : State) (rest : List Event), s.phase = .awaitingFrame → s.pending = .timeout :: rest →
    step s = .next { s with pending := rest, outcome := .timeout, replied := false }

/-- spec/44_dispatcher.md R153: a frame of fewer than 4 bytes, or one that does not fit the receive buffer, is `FrameError`
with no reply; of every other frame the fields of R141 are written.  That the fields still stand after the cycle, where R17
calls them dead, is the model's choice (notes/assumptions/2.md), and so is that the administrative outputs stay
(notes/assumptions/8.md). -/
def Obligations.FrameErrorOrParsedFields : Prop :=
  ∀ (s : State) (raw : List Byte) (rest : List Event), State.Receives s raw rest →
    ∃ t, step s = .next t ∧ t.pending = rest ∧
      (if raw.length < 4 ∨ ¬ fitsBuffer s.params raw then State.Silent s t .frameError
       else t.scratch.raw = raw ∧ t.scratch.fAddr = byteAt raw 0 ∧ t.scratch.fFc = byteAt raw 1 ∧
        t.scratch.fPayload = (raw.take (raw.length - 2)).drop 2 ∧
        t.scratch.fCrc = be16 (byteAt raw (raw.length - 1)) (byteAt raw (raw.length - 2)))

/-- spec/44_dispatcher.md R154: a frame with a wrong CRC is dropped as `BadCrc`, whatever its address.  That the
administrative outputs stay is the model's choice (notes/assumptions/8.md). -/
def Obligations.WrongCrcIsDroppedSilently : Prop :=
  ∀ (s : State) (raw : List Byte) (rest : List Event), State.Receives s raw rest → 4 ≤ raw.length →
    fitsBuffer s.params raw → ¬ crcCorrect raw →
    ∃ t, step s = .next t ∧ t.pending = rest ∧ State.Silent s t .badCrc

/-- The address check of spec/44_dispatcher.md R155: a frame with a good CRC for another peripheral is dropped as
`NotRecipient`, whatever its function code (R155, spec/60_exceptions.md R202).  That the administrative outputs stay is the
model's choice (notes/assumptions/8.md). -/
def Obligations.ForeignFrameIsDroppedSilently : Prop :=
  ∀ (s : State) (raw : List Byte) (rest : List Event), State.Receives s raw rest → 4 ≤ raw.length →
    fitsBuffer s.params raw → crcCorrect raw → byteAt raw 0 ≠ 0x00#8 → byteAt raw 0 ≠ s.unitId →
    ∃ t, step s = .next t ∧ t.pending = rest ∧ State.Silent s t .notRecipient

/-- The broadcast of spec/44_dispatcher.md R155: a broadcast request does what the same request does when it is addressed to
this block, with the same outcome, and is not answered; the addressed one is answered with one frame.  That `suppress` still
stands after the cycle, where spec/10_state.md R22 calls it dead, is the model's choice (notes/assumptions/2.md). -/
def Obligations.BroadcastExecutesLikeAddressed : Prop :=
  ∀ (i : Instr) (r : Request) (s : State), Instr.request? i = some r → s.phase = .awaitingFrame → s.unitId ≠ 0x00#8 →
    ∃ t₀ t₁, exec (Instr.withUnit 0x00#8 i) s = .next t₀ ∧ exec (Instr.withUnit s.unitId i) s = .next t₁ ∧
      t₀.outcome = t₁.outcome ∧ t₀.table = t₁.table ∧ t₀.freeCount = t₁.freeCount ∧
      t₀.scratch.suppress = true ∧ t₁.scratch.suppress = false ∧
      t₀.replied = false ∧ t₀.sent = s.sent ∧ t₁.replied = true ∧ ∃ f, t₁.sent = s.sent ++ [f]

/-- spec/44_dispatcher.md R156: a block with identity 0 executes broadcasts, drops every other frame as `NotRecipient`, and
never sends anything. -/
def Obligations.UnitIdZeroNeverSends : Prop :=
  ∀ s : State, s.phase = .awaitingFrame → s.unitId = 0x00#8 →
    (∃ t, step s = .next t ∧ t.sent = s.sent) ∧
    (∀ (raw : List Byte) (rest : List Event), s.pending = .request (.frame raw) :: rest → 4 ≤ raw.length →
      fitsBuffer s.params raw → crcCorrect raw →
      ∃ t, step s = .next t ∧ (byteAt raw 0 ≠ 0x00#8 → t.outcome = .notRecipient ∧ t.table = s.table) ∧
        (byteAt raw 0 = 0x00#8 → ∃ i, decode s.params.extCodes (.frame raw) = .instr i ∧
          exec i { s with pending := rest } = .next t ∧ t.outcome ≠ .notRecipient))

/-- spec/60_exceptions.md R208: the block sends exactly one response for every frame that has length at least 4, a good CRC and
the address `UNIT_ID` (not 0), and nothing for any other event.  (The frame must fit the receive buffer, R153.  What a reset
in the middle of a cycle leaves of a response is stated apart.) -/
def Obligations.AlwaysAnswersExactlyOnce : Prop :=
  (∀ (s : State) (raw : List Byte) (rest : List Event), State.Receives s raw rest →
    ∃ t, step s = .next t ∧
      (if 4 ≤ raw.length ∧ fitsBuffer s.params raw ∧ crcCorrect raw ∧ byteAt raw 0 = s.unitId ∧ s.unitId ≠ 0x00#8 then
        t.replied = true ∧ ∃ reply, t.sent = s.sent ++ [reply] ∧ 4 ≤ reply.length ∧ crcCorrect reply ∧
          byteAt reply 0 = s.unitId ∧ (byteAt reply 1 = byteAt raw 1 ∨ byteAt reply 1 = byteAt raw 1 ||| 0x80#8)
       else t.replied = false ∧ t.sent = s.sent)) ∧
  (∀ (s : State), s.phase = .awaitingFrame →
    (∀ raw rest, s.pending ≠ .request (.frame raw) :: rest) → (∀ raw cfg rest, s.pending ≠ .resetDuring raw cfg :: rest) →
    ∃ t, step s = .next t ∧ t.sent = s.sent)

/-- spec/70_reset_and_hazards.md R239: a reset in the middle of a cycle leaves the state of R231, reports no outcome, and of the
response the cycle would have sent all, some or none has been sent.  (How much is the free value of
notes/assumptions/6.md: the statement holds whatever it is.)  That the events that wait and the parameters stay is the model's
deduction (notes/assumptions/14.md), that the administrative outputs stay its choice (notes/assumptions/8.md). -/
def Obligations.ResetDuringCycleAbandonsIt : Prop :=
  ∀ (s : State) (raw : List Byte) (cfg : Byte) (rest : List Event), s.phase = .awaitingFrame →
    s.pending = .resetDuring raw cfg :: rest →
    ∃ t u, step s = .next t ∧ step { s with pending := .request (.frame raw) :: rest } = .next u ∧
      t.table = [] ∧ t.unitId = cfg ∧ t.phase = .awaitingFrame ∧ t.outcome = .none ∧ t.replied = false ∧
      t.pending = rest ∧ t.params = s.params ∧ t.admOut = s.admOut ∧
      (t.sent = s.sent ∨ ∃ reply n, u.sent = s.sent ++ [reply] ∧ 0 < n ∧ t.sent = s.sent ++ [reply.take n])

/-- spec/10_state.md R25: `UNIT_ID` is loaded at reset and at no other time; and no step changes the parameters
(spec/00_scope.md R5). -/
def Obligations.IdentityChangesOnlyAtReset : Prop :=
  ∀ s : State, ∃ t, step s = .next t ∧ t.params = s.params ∧
    ((s.phase = .awaitingFrame → ∀ cfg rest, s.pending ≠ .reset cfg :: rest ∧ ∀ raw, s.pending ≠ .resetDuring raw cfg :: rest) →
      t.unitId = s.unitId)

/-- spec/10_state.md R27, spec/44_dispatcher.md R168: scratch state never leaks.  Two states between cycles that differ only in
their scratch state step to two states that differ at most in theirs. -/
def Obligations.ScratchStateNeverLeaks : Prop :=
  ∀ (s : State) (sc : Scratch), s.phase = .awaitingFrame →
    ∃ t t', step s = .next t ∧ step { s with scratch := sc } = .next t' ∧ State.SameButScratch t t'

/-- spec/10_state.md R25: what the status registers read as, in every state: `UNIT_ID`, `PHASE` by the seven codes of
spec/10_state.md R16, `OUTCOME` by the ten codes of spec/60_exceptions.md R201, `REPLIED`; and in a legal state `PHASE` 0 and
`TABLE_COUNT`, which is the number of entries and fits its 17 bits. -/
def Obligations.StatusRegistersReadTheState : Prop :=
  ∀ s : State,
    (statusRegisters s).unitId = s.unitId ∧
    (statusRegisters s).phase =
      (match s.phase with
       | .awaitingFrame => 0#3
       | .parsed => 1#3
       | .addressChecked => 2#3
       | .functionChecked => 3#3
       | .rangeValidated => 4#3
       | .executed => 5#3
       | .responseReady => 6#3) ∧
    (statusRegisters s).outcome =
      (match s.outcome with
       | .none => 0#4
       | .normal => 1#4
       | .timeout => 2#4
       | .frameError => 3#4
       | .badCrc => 4#4
       | .notRecipient => 5#4
       | .illegalFunction => 6#4
       | .illegalAddress => 7#4
       | .illegalValue => 8#4
       | .deviceFailure => 9#4) ∧
    (statusRegisters s).replied = (if s.replied then 1#1 else 0#1) ∧
    (State.Inv s →
      (statusRegisters s).phase = 0#3 ∧ (statusRegisters s).tableCount.toNat = s.table.length ∧ s.table.length ≤ 65536)

/-! ### The state machine -/

/-- spec/44_dispatcher.md R150, R167: for every request, every edge from every state is one of R150's, and from every state
between cycles the cycle is over after at most seven edges.  The edges from a state in the middle of a cycle that no cycle of
the request enters (an unsupported or an extension code in `FunctionChecked`, `RangeValidated` or `Executed`) are the model's
choice, notes/assumptions/16.md. -/
def Obligations.PhaseMovesOnlyAlongTheEdges : Prop :=
  ∀ (i : Instr) (r : Request), Instr.request? i = some r → ∀ s : State,
    Phase.mayMove s.phase (edge r s).phase = true ∧ (finish r 6 (edge r s)).phase = .awaitingFrame

/-- spec/60_exceptions.md R204, R203: whenever an addressed request ends in one of the four exceptions, exactly one 5-byte frame
is sent, with the request's function code `or 0x80` and the exception's code; and the three validation exceptions are raised
before any table access. -/
def Obligations.ExceptionResponseFrame : Prop :=
  ∀ (i : Instr) (r : Request) (s : State), Instr.request? i = some r → State.Takes s r.addr →
    ∃ t, exec i s = .next t ∧ ∀ e : ModbusException, t.outcome = exceptionOutcome e →
      (r.addr ≠ 0x00#8 →
        ∃ c, c = crc16 [s.unitId, r.fc ||| 0x80#8, exceptionCode e] ∧
          t.sent = s.sent ++ [[s.unitId, r.fc ||| 0x80#8, exceptionCode e, loByte c, hiByte c]]) ∧
      (e ≠ .deviceFailure → t.table = s.table)

/-- spec/60_exceptions.md R209, spec/20_memory.md R42, spec/10_state.md R15: no request writes outside the coil and the holding
band, and no request deletes an entry. -/
def Obligations.RequestsWriteOnlyCoilsAndHoldings : Prop :=
  ∀ (i : Instr) (r : Request) (s : State), Instr.request? i = some r → s.phase = .awaitingFrame →
    Memory.wf s.table = true →
    ∃ t, exec i s = .next t ∧
      (∀ a, ¬ protocolWritable a → Memory.lookup t.table a = Memory.lookup s.table a) ∧
      (∀ a, Memory.lookup s.table a ≠ none → Memory.lookup t.table a ≠ none)

/-! ### The read functions -/

/-- spec/45_functions.md R181: Read Coils, every form of its operands.  That the administrative outputs stay is the model's
choice (notes/assumptions/8.md); that `wr_ok` is read after the cycle, where R23 calls it dead, is notes/assumptions/2.md. -/
def Obligations.ReadCoilsRule : Prop :=
  ∀ (s : State) (u : Byte) (o : AqOperands), State.Takes s u →
    ∃ t, exec (.rdcoil u o) s = .next t ∧ State.CycleKeeps s t ∧ t.table = s.table ∧ t.freeCount = s.freeCount ∧
      match o with
      | .badLength _ => State.Answered s t u .illegalValue 0x81#8 [0x03#8]
      | .fields w q =>
        if q.toNat < 1 ∨ 7000 < q.toNat then State.Answered s t u .illegalValue 0x81#8 [0x03#8]
        else if 9998 < w.toNat ∨ 9998 < w.toNat + q.toNat then State.Answered s t u .illegalAddress 0x81#8 [0x02#8]
        else ∃ data, data = packBits s.table (0 + w.toNat) q.toNat ∧ t.scratch.wrOk = true ∧
          State.Answered s t u .normal 0x01#8
            ((if s.params.respByteCount then [BitVec.ofNat 8 data.length] else []) ++ data)

/-- spec/45_functions.md R182: Read Discretes, every form of its operands.  That the administrative outputs stay is the
model's choice (notes/assumptions/8.md); that `wr_ok` is read after the cycle, where R23 calls it dead, is
notes/assumptions/2.md. -/
def Obligations.ReadDiscretesRule : Prop :=
  ∀ (s : State) (u : Byte) (o : AqOperands), State.Takes s u →
    ∃ t, exec (.rddisc u o) s = .next t ∧ State.CycleKeeps s t ∧ t.table = s.table ∧ t.freeCount = s.freeCount ∧
      match o with
      | .badLength _ => State.Answered s t u .illegalValue 0x82#8 [0x03#8]
      | .fields w q =>
        if q.toNat < 1 ∨ 7000 < q.toNat then State.Answered s t u .illegalValue 0x82#8 [0x03#8]
        else if 9998 < w.toNat ∨ 9998 < w.toNat + q.toNat then State.Answered s t u .illegalAddress 0x82#8 [0x02#8]
        else ∃ data, data = packBits s.table (10000 + w.toNat) q.toNat ∧ t.scratch.wrOk = true ∧
          State.Answered s t u .normal 0x02#8
            ((if s.params.respByteCount then [BitVec.ofNat 8 data.length] else []) ++ data)

/-- spec/45_functions.md R183: Read Holdings, every form of its operands.  That the administrative outputs stay is the model's
choice (notes/assumptions/8.md); that `wr_ok` is read after the cycle, where R23 calls it dead, is notes/assumptions/2.md. -/
def Obligations.ReadHoldingsRule : Prop :=
  ∀ (s : State) (u : Byte) (o : AqOperands), State.Takes s u →
    ∃ t, exec (.rdhold u o) s = .next t ∧ State.CycleKeeps s t ∧ t.table = s.table ∧ t.freeCount = s.freeCount ∧
      match o with
      | .badLength _ => State.Answered s t u .illegalValue 0x83#8 [0x03#8]
      | .fields w q =>
        if q.toNat < 1 ∨ 125 < q.toNat then State.Answered s t u .illegalValue 0x83#8 [0x03#8]
        else if 9998 < w.toNat ∨ 9998 < w.toNat + q.toNat then State.Answered s t u .illegalAddress 0x83#8 [0x02#8]
        else ∃ data, data = packWords s.table (40000 + w.toNat) q.toNat ∧ t.scratch.wrOk = true ∧
          State.Answered s t u .normal 0x03#8
            ((if s.params.respByteCount then [BitVec.ofNat 8 data.length] else []) ++ data)

/-- spec/45_functions.md R184: Read Inputs, every form of its operands.  That the administrative outputs stay is the model's
choice (notes/assumptions/8.md); that `wr_ok` is read after the cycle, where R23 calls it dead, is notes/assumptions/2.md. -/
def Obligations.ReadInputsRule : Prop :=
  ∀ (s : State) (u : Byte) (o : AqOperands), State.Takes s u →
    ∃ t, exec (.rdinp u o) s = .next t ∧ State.CycleKeeps s t ∧ t.table = s.table ∧ t.freeCount = s.freeCount ∧
      match o with
      | .badLength _ => State.Answered s t u .illegalValue 0x84#8 [0x03#8]
      | .fields w q =>
        if q.toNat < 1 ∨ 125 < q.toNat then State.Answered s t u .illegalValue 0x84#8 [0x03#8]
        else if 9998 < w.toNat ∨ 9998 < w.toNat + q.toNat then State.Answered s t u .illegalAddress 0x84#8 [0x02#8]
        else ∃ data, data = packWords s.table (30000 + w.toNat) q.toNat ∧ t.scratch.wrOk = true ∧
          State.Answered s t u .normal 0x04#8
            ((if s.params.respByteCount then [BitVec.ofNat 8 data.length] else []) ++ data)

/-! ### The write functions -/

/-- spec/45_functions.md R185: Write Coil, every form of its operands.  That the administrative outputs stay is the model's
choice (notes/assumptions/8.md); that `wr_ok` is read after the cycle, where R23 calls it dead, is notes/assumptions/2.md. -/
def Obligations.WriteCoilRule : Prop :=
  ∀ (s : State) (u : Byte) (o : AqOperands), State.Takes s u →
    ∃ t, exec (.wrcoil u o) s = .next t ∧ State.CycleKeeps s t ∧ t.freeCount = s.freeCount ∧
      match o with
      | .badLength _ => t.table = s.table ∧ State.Answered s t u .illegalValue 0x85#8 [0x03#8]
      | .fields w q =>
        if q ≠ 0x0000#16 ∧ q ≠ 0xFF00#16 then t.table = s.table ∧ State.Answered s t u .illegalValue 0x85#8 [0x03#8]
        else if 9998 < w.toNat then t.table = s.table ∧ State.Answered s t u .illegalAddress 0x85#8 [0x02#8]
        else (t.table, t.scratch.wrOk) =
            Memory.verifyAndSet s.params.tableCap s.table (0 + w.toNat) (if q = 0xFF00#16 then 0x0001#16 else 0x0000#16) ∧
          (if t.scratch.wrOk then State.Answered s t u .normal 0x05#8 [hiByte w, loByte w, hiByte q, loByte q]
           else State.Answered s t u .deviceFailure 0x85#8 [0x04#8])

/-- spec/45_functions.md R186: Write Holding, every form of its operands.  That the administrative outputs stay is the model's
choice (notes/assumptions/8.md); that `wr_ok` is read after the cycle, where R23 calls it dead, is notes/assumptions/2.md. -/
def Obligations.WriteHoldingRule : Prop :=
  ∀ (s : State) (u : Byte) (o : AqOperands), State.Takes s u →
    ∃ t, exec (.wrhold u o) s = .next t ∧ State.CycleKeeps s t ∧ t.freeCount = s.freeCount ∧
      match o with
      | .badLength _ => t.table = s.table ∧ State.Answered s t u .illegalValue 0x86#8 [0x03#8]
      | .fields w q =>
        if 9998 < w.toNat then t.table = s.table ∧ State.Answered s t u .illegalAddress 0x86#8 [0x02#8]
        else (t.table, t.scratch.wrOk) = Memory.verifyAndSet s.params.tableCap s.table (40000 + w.toNat) q ∧
          (if t.scratch.wrOk then State.Answered s t u .normal 0x06#8 [hiByte w, loByte w, hiByte q, loByte q]
           else State.Answered s t u .deviceFailure 0x86#8 [0x04#8])

/-- spec/45_functions.md R187: Write Coils, every form of its operands; the loop is the rule's own.  That the administrative
outputs stay is the model's choice (notes/assumptions/8.md); that `wr_ok` is read after the cycle, where R23 calls it dead, is
notes/assumptions/2.md. -/
def Obligations.WriteCoilsRule : Prop :=
  ∀ (s : State) (u : Byte) (o : AqbdOperands), State.Takes s u →
    ∃ t, exec (.wrcoils u o) s = .next t ∧ State.CycleKeeps s t ∧ t.freeCount = s.freeCount ∧
      match o with
      | .short _ => t.table = s.table ∧ State.Answered s t u .illegalValue 0x8F#8 [0x03#8]
      | .fields w q bc data =>
        if q.toNat < 1 ∨ 7000 < q.toNat ∨ bc.toNat ≠ (q.toNat + 7) / 8 ∨ data.length ≠ bc.toNat then
          t.table = s.table ∧ State.Answered s t u .illegalValue 0x8F#8 [0x03#8]
        else if 9998 < w.toNat ∨ 9998 < w.toNat + q.toNat then
          t.table = s.table ∧ State.Answered s t u .illegalAddress 0x8F#8 [0x02#8]
        else (t.table, t.scratch.wrOk) =
            writeLoop s.params.tableCap s.table (0 + w.toNat) q.toNat
              (fun i => if (byteAt data (i / 8)).getLsbD (i % 8) then 0x0001#16 else 0x0000#16) ∧
          (if t.scratch.wrOk then State.Answered s t u .normal 0x0F#8 [hiByte w, loByte w, hiByte q, loByte q]
           else State.Answered s t u .deviceFailure 0x8F#8 [0x04#8])

/-- spec/45_functions.md R188: Write Holdings, every form of its operands; the loop is the rule's own.  That the
administrative outputs stay is the model's choice (notes/assumptions/8.md); that `wr_ok` is read after the cycle, where R23
calls it dead, is notes/assumptions/2.md. -/
def Obligations.WriteHoldingsRule : Prop :=
  ∀ (s : State) (u : Byte) (o : AqbdOperands), State.Takes s u →
    ∃ t, exec (.wrholds u o) s = .next t ∧ State.CycleKeeps s t ∧ t.freeCount = s.freeCount ∧
      match o with
      | .short _ => t.table = s.table ∧ State.Answered s t u .illegalValue 0x90#8 [0x03#8]
      | .fields w q bc data =>
        if q.toNat < 1 ∨ 125 < q.toNat ∨ bc.toNat ≠ 2 * q.toNat ∨ data.length ≠ bc.toNat then
          t.table = s.table ∧ State.Answered s t u .illegalValue 0x90#8 [0x03#8]
        else if 9998 < w.toNat ∨ 9998 < w.toNat + q.toNat then
          t.table = s.table ∧ State.Answered s t u .illegalAddress 0x90#8 [0x02#8]
        else (t.table, t.scratch.wrOk) =
            writeLoop s.params.tableCap s.table (40000 + w.toNat) q.toNat
              (fun i => be16 (byteAt data (2 * i)) (byteAt data (2 * i + 1))) ∧
          (if t.scratch.wrOk then State.Answered s t u .normal 0x10#8 [hiByte w, loByte w, hiByte q, loByte q]
           else State.Answered s t u .deviceFailure 0x90#8 [0x04#8])

/-- The frame of the four write functions: from a table in canonical form, every address outside the written run, which starts
at `translate kind w`, reads and exists as before, whatever the outcome (spec/44_dispatcher.md R160, R163; spec/20_memory.md
R49). -/
def Obligations.WritesTouchOnlyTheirRun : Prop :=
  ∀ (s : State) (u : Byte), State.Takes s u → Memory.wf s.table = true →
    (∀ (w q : Word), ∃ t, exec (.wrcoil u (.fields w q)) s = .next t ∧
      ∀ a, a ≠ translate .coil w → Memory.lookup t.table a = Memory.lookup s.table a) ∧
    (∀ (w q : Word), ∃ t, exec (.wrhold u (.fields w q)) s = .next t ∧
      ∀ a, a ≠ translate .holding w → Memory.lookup t.table a = Memory.lookup s.table a) ∧
    (∀ (w q : Word) (bc : Byte) (data : List Byte), ∃ t, exec (.wrcoils u (.fields w q bc data)) s = .next t ∧
      ∀ a, (a < translate .coil w ∨ translate .coil w + q.toNat ≤ a) →
        Memory.lookup t.table a = Memory.lookup s.table a) ∧
    (∀ (w q : Word) (bc : Byte) (data : List Byte), ∃ t, exec (.wrholds u (.fields w q bc data)) s = .next t ∧
      ∀ a, (a < translate .holding w ∨ translate .holding w + q.toNat ≤ a) →
        Memory.lookup t.table a = Memory.lookup s.table a)

/-- Write Holdings with room for every entry (spec/45_functions.md R188, spec/42_register_table.md R122, R123): the request ends
`Normal`, every register of the run holds its word, and every other address is as before. -/
def Obligations.WriteHoldingsStoresEveryWord : Prop :=
  ∀ (s : State) (u : Byte) (w q : Word) (bc : Byte) (data : List Byte), State.Takes s u → Memory.wf s.table = true →
    s.table.length + q.toNat ≤ s.params.tableCap → 1 ≤ q.toNat → q.toNat ≤ 125 → bc.toNat = 2 * q.toNat →
    data.length = bc.toNat → w.toNat + q.toNat ≤ 9998 →
    ∃ t, exec (.wrholds u (.fields w q bc data)) s = .next t ∧ t.outcome = .normal ∧
      ∀ a, Memory.lookup t.table a =
        (if 40000 + w.toNat ≤ a ∧ a < 40000 + w.toNat + q.toNat then
          some (be16 (byteAt data (2 * (a - (40000 + w.toNat)))) (byteAt data (2 * (a - (40000 + w.toNat)) + 1)))
         else Memory.lookup s.table a)

/-- Write Coils with room for every entry (spec/45_functions.md R187, spec/42_register_table.md R122, R123): the request ends
`Normal`, every coil of the run holds 0x0001 or 0x0000 by its bit, and every other address is as before. -/
def Obligations.WriteCoilsStoresEveryBit : Prop :=
  ∀ (s : State) (u : Byte) (w q : Word) (bc : Byte) (data : List Byte), State.Takes s u → Memory.wf s.table = true →
    s.table.length + q.toNat ≤ s.params.tableCap → 1 ≤ q.toNat → bc.toNat = (q.toNat + 7) / 8 →
    data.length = bc.toNat → w.toNat + q.toNat ≤ 9998 → q.toNat ≤ 7000 →
    ∃ t, exec (.wrcoils u (.fields w q bc data)) s = .next t ∧ t.outcome = .normal ∧
      ∀ a, Memory.lookup t.table a =
        (if w.toNat ≤ a ∧ a < w.toNat + q.toNat then
          some (if (byteAt data ((a - w.toNat) / 8)).getLsbD ((a - w.toNat) % 8) then 0x0001#16 else 0x0000#16)
         else Memory.lookup s.table a)

/-- A read after a write (spec/20_memory.md R53, R52): a controller that writes a holding register and then reads it is
answered with the value it wrote. -/
def Obligations.HoldingReadsBackAfterWrite : Prop :=
  ∀ (s : State) (u : Byte) (w v : Word), State.Takes s u → u ≠ 0x00#8 → Memory.wf s.table = true → w.toNat ≤ 9997 →
    (s.table.length < s.params.tableCap ∨ Memory.lookup s.table (40000 + w.toNat) ≠ none) →
    s.params.respByteCount = false →
    ∃ t t', exec (.wrhold u (.fields w v)) s = .next t ∧ exec (.rdhold u (.fields w 0x0001#16)) t = .next t' ∧
      t'.outcome = .normal ∧ t'.sent = t.sent ++ [serialize s.unitId 0x03#8 [hiByte v, loByte v]]

/-! ### Unsupported and extension codes -/

/-- spec/45_functions.md R189: each of the twelve rows of unsupported codes answers with `IllegalFunction` and writes nothing.
That the administrative outputs stay is the model's choice (notes/assumptions/8.md). -/
def Obligations.UnsupportedRowsRaiseIllegalFunction : Prop :=
  ∀ (s : State) (u fc : Byte) (p : List Byte), State.Takes s u →
    (∀ i ∈ [(Instr.unsupported0000 u p, 0x00#8), (.unsupported0707 u p, 0x07#8), (.unsupported080B u fc p, fc),
        (.unsupported0C0D u fc p, fc), (.unsupported0E0E u p, 0x0E#8), (.unsupported1111 u p, 0x11#8),
        (.unsupported1213 u fc p, fc), (.unsupported1417 u fc p, fc), (.unsupported181F u fc p, fc),
        (.unsupported203F u fc p, fc), (.unsupported407F u fc p, fc), (.unsupported80FF u fc p, fc)],
      ∃ t, exec i.1 s = .next t ∧ State.CycleKeeps s t ∧ t.table = s.table ∧ t.freeCount = s.freeCount ∧
        State.Answered s t u .illegalFunction (i.2 ||| 0x80#8) [0x01#8])

/-- spec/45_functions.md R189: every function code that is not among the eight and not in `EXT_CODES` is decoded, whatever the
payload, to a request that answers with `IllegalFunction`. -/
def Obligations.EveryOtherCodeIsUnsupported : Prop :=
  ∀ (s : State) (u fc : Byte) (p : List Byte), State.Takes s u → fc ∉ s.params.extCodes → fc ∉ Config.supportedCodes →
    ∃ i t, decodeRequest s.params.extCodes u fc p = some i ∧ exec i s = .next t ∧ t.table = s.table ∧
      State.Answered s t u .illegalFunction (fc ||| 0x80#8) [0x01#8]

/-- spec/45_functions.md R190: a code in `EXT_CODES` goes to the extension handler, whose answer becomes the Result; the table
is not touched.  (What the handler answers is the free value of notes/assumptions/5.md: the statement holds whatever it
is.)  That the administrative outputs stay is the model's choice (notes/assumptions/8.md), and so is that an answer of any
length is sent whole (notes/assumptions/18.md). -/
def Obligations.ExtensionCodesGoToTheHandler : Prop :=
  ∀ (s : State) (u code : Byte) (p : List Byte), State.Takes s u →
    (code ∈ s.params.extCodes → decodeRequest s.params.extCodes u code p = some (.ext u code p)) ∧
    ∃ t, exec (.ext u code p) s = .next t ∧ State.CycleKeeps s t ∧ t.table = s.table ∧ t.freeCount = s.freeCount + 1 ∧
      match Config.extHandler s.freeCount code p with
      | .normal payload => State.Answered s t u .normal code payload
      | .exception e => State.Answered s t u (exceptionOutcome e) (code ||| 0x80#8) [exceptionCode e]

/-! ### The register table and the administrative port -/

/-- spec/42_register_table.md R120: the binary search answers the index of the entry, or the number of entries below. -/
def Obligations.FindAnswersIndexOrInsertionPoint : Prop :=
  ∀ (m : Memory) (a : Nat), Memory.wf m = true →
    (∀ i v, m[i]? = some ⟨a, v⟩ → Memory.find m a = (true, i)) ∧
    ((∀ e ∈ m, e.addr ≠ a) → Memory.find m a = (false, (m.filter (fun e => decide (e.addr < a))).length))

/-- spec/42_register_table.md R121, at the administrative port: the stored value, or 0 if absent, and nothing else changes. -/
def Obligations.AdmGetReadsStoredValueOrZero : Prop :=
  ∀ (s : State) (addr : Word), s.phase = .awaitingFrame → Memory.wf s.table = true →
    exec (.admGet addr) s =
      .next { s with admOut := ⟨some ((Memory.lookup s.table addr.toNat).getD 0x0000#16), none⟩ }

/-- spec/42_register_table.md R122, at the administrative port: overwrite, insert, or (table full) nothing. -/
def Obligations.AdmSetOverwritesOrInserts : Prop :=
  ∀ (s : State) (addr v : Word), s.phase = .awaitingFrame → Memory.wf s.table = true →
    ∃ m, exec (.admSet addr v) s = .next { s with table := m, admOut := ⟨none, none⟩ } ∧ Memory.wf m = true ∧
      (∀ b, Memory.lookup m b =
        (if b = addr.toNat ∧ (Memory.lookup s.table addr.toNat ≠ none ∨ s.table.length < s.params.tableCap) then some v
         else Memory.lookup s.table b)) ∧
      m.length = (if Memory.lookup s.table addr.toNat = none ∧ s.table.length < s.params.tableCap then s.table.length + 1
        else s.table.length)

/-- spec/42_register_table.md R123, at the administrative port: the table is the one `SET` leaves, and the flag says whether
the address now reads as the value. -/
def Obligations.AdmVsetSetsAndReadsBack : Prop :=
  ∀ (s : State) (addr v : Word), s.phase = .awaitingFrame → Memory.wf s.table = true →
    ∃ m, exec (.admSet addr v) s = .next { s with table := m, admOut := ⟨none, none⟩ } ∧
      exec (.admVset addr v) s = .next { s with
        table := m, admOut := ⟨none, some (decide ((Memory.lookup m addr.toNat).getD 0x0000#16 = v))⟩ }

/-- spec/42_register_table.md R128: on a full table a write to an absent address is dropped and reports whether 0 was asked
for; a write to a present address succeeds, full or not. -/
def Obligations.FullTableDropsNewEntries : Prop :=
  ∀ (s : State) (addr v : Word), s.phase = .awaitingFrame → Memory.wf s.table = true →
    (s.table.length = s.params.tableCap → Memory.lookup s.table addr.toNat = none →
      exec (.admSet addr v) s = .next { s with admOut := ⟨none, none⟩ } ∧
      exec (.admVset addr v) s = .next { s with admOut := ⟨none, some (decide (v = 0x0000#16))⟩ }) ∧
    (Memory.lookup s.table addr.toNat ≠ none →
      ∃ m, exec (.admVset addr v) s = .next { s with table := m, admOut := ⟨none, some true⟩ } ∧
        Memory.lookup m addr.toNat = some v ∧ m.length = s.table.length)

/-- spec/42_register_table.md R124, at the administrative port. -/
def Obligations.AdmExistsTellsPresence : Prop :=
  ∀ (s : State) (addr : Word), s.phase = .awaitingFrame → Memory.wf s.table = true →
    exec (.admExists addr) s =
      .next { s with admOut := ⟨none, some ((Memory.lookup s.table addr.toNat).isSome)⟩ }

/-- spec/42_register_table.md R125, at the administrative port: the entry is gone, the others keep their order; nothing happens
if it was absent. -/
def Obligations.AdmDeleteRemovesTheEntry : Prop :=
  ∀ (s : State) (addr : Word), s.phase = .awaitingFrame → Memory.wf s.table = true →
    exec (.admDelete addr) s =
      .next { s with table := s.table.filter (fun e => decide (e.addr ≠ addr.toNat)), admOut := ⟨none, none⟩ }

/-- spec/30_encoding.md R69: the reserved operation codes 5, 6, 7 change no state and drive zeros.  That they decode to
constructors of their own is the model's choice, against R69's advice (notes/assumptions/9.md). -/
def Obligations.AdmReservedCodesDoNothing : Prop :=
  ∀ (s : State) (addr wdata : Word), s.phase = .awaitingFrame → ∀ op : BitVec 3, 5 ≤ op.toNat →
    ∃ i, decode s.params.extCodes (.adm op addr wdata) = .instr i ∧
      (i = .admReserved5 ∨ ∃ low, i = .admReserved67 low) ∧
      exec .admReserved5 s = .next { s with admOut := ⟨some 0x0000#16, some false⟩ } ∧
      exec i s = .next { s with admOut := ⟨some 0x0000#16, some false⟩ }

/-- spec/42_register_table.md R127: an administrative operation that waits while a cycle is in progress is neither lost nor
performed: the step that finishes the cycle leaves it in place and does what it would do with nothing waiting, and the next step
performs it; between cycles an operation changes neither `phase`, `OUTCOME` nor `REPLIED`, and sends nothing.  That the
operation waits in `pending`, and that `exec` of one in the middle of a cycle leaves the state as it is, are the model's choices
(notes/assumptions/7.md). -/
def Obligations.AdministrativePortIsHeldDuringACycle : Prop :=
  (∀ (s : State) (op : BitVec 3) (addr wdata : Word) (rest : List Event), s.phase ≠ .awaitingFrame →
    s.pending = .request (.adm op addr wdata) :: rest →
    ∃ t u, step s = .next t ∧ t.phase = .awaitingFrame ∧ t.pending = .request (.adm op addr wdata) :: rest ∧
      step { s with pending := [] } = .next { t with pending := [] } ∧
      step t = exec (decodeAdm op addr wdata) { t with pending := rest } ∧ step t = .next u ∧ u.pending = rest) ∧
  ∀ (i : Instr) (s : State), Instr.request? i = none →
    (s.phase ≠ .awaitingFrame → exec i s = .next s) ∧
    (s.phase = .awaitingFrame → ∃ t, exec i s = .next t ∧ t.phase = s.phase ∧ t.outcome = s.outcome ∧
      t.replied = s.replied ∧ t.sent = s.sent ∧ t.params = s.params ∧ t.unitId = s.unitId ∧ t.scratch = s.scratch ∧
      t.pending = s.pending ∧ t.freeCount = s.freeCount)

/-! ### The bit-pack codec -/

/-- spec/41_bitpack_codec.md R101, spec/20_memory.md R46: register `i` of the run is bit `i mod 8` of byte `i div 8`, any
nonzero value is 1, and the unused high bits of the last byte are 0; the length is `ceil(count/8)` (R106). -/
def Obligations.PackBitsIsLsbFirst : Prop :=
  ∀ (m : Memory) (start count : Nat),
    (packBits m start count).length = (count + 7) / 8 ∧
    ∀ i, i < 8 * ((count + 7) / 8) →
      (byteAt (packBits m start count) (i / 8)).getLsbD (i % 8) =
        (decide (i < count) && decide (Memory.get m (start + i) ≠ 0x0000#16))

/-- spec/41_bitpack_codec.md R105 (P-a): what Write Coils stores, packed and unpacked again, is what was stored, from any table
in canonical form. -/
def Obligations.PackBitsRoundTrip : Prop :=
  ∀ (m : Memory) (start : Nat) (xs : List Bool), Memory.wf m = true → start + xs.length ≤ 65536 →
    unpackBits (packBits (Memory.writeRange 65536 m start (xs.map coilValue)).1 start xs.length) xs.length = xs

/-- spec/41_bitpack_codec.md R105 (P-b): what Write Holdings stores, packed and unpacked again, is what was stored, from any
table in canonical form. -/
def Obligations.PackWordsRoundTrip : Prop :=
  ∀ (m : Memory) (start : Nat) (xs : List Word), Memory.wf m = true → start + xs.length ≤ 65536 →
    unpackWords (packWords (Memory.writeRange 65536 m start xs).1 start xs.length) xs.length = xs

/-- spec/44_dispatcher.md R160, R162, spec/20_memory.md R42: a range that passes the address check lies in its kind's band and
below its last address, and a single address that passes lies in the band; neither meets a checked range or a checked single
address of another kind, and neither wraps (R165). -/
def Obligations.CheckedAddressesStayInTheirBand : Prop :=
  ∀ (k : Kind) (w q : Word),
    (rangeAddressOk w q = true → k.base ≤ translate k w ∧ translate k w + q.toNat ≤ k.base + 9998 ∧
      ∀ k' : Kind, ∀ w' q' : Word, rangeAddressOk w' q' = true → k ≠ k' →
        translate k w + q.toNat ≤ translate k' w' ∨ translate k' w' + q'.toNat ≤ translate k w) ∧
    (singleAddressOk w = true → k.base ≤ translate k w ∧ translate k w ≤ k.base + 9998 ∧
      ∀ k' : Kind, k ≠ k' →
        (∀ w' : Word, singleAddressOk w' = true → translate k w ≠ translate k' w') ∧
        (∀ w' q' : Word, rangeAddressOk w' q' = true →
          translate k w < translate k' w' ∨ translate k' w' + q'.toNat ≤ translate k w))

/-! ### The CRC engine and the frame codec -/

/-- spec/40_crc16.md R94: the table-driven form is the same function. -/
def Obligations.TableDrivenCrcEqualsBitSerial : Prop :=
  ∀ (c : Word) (b : Byte), crcStepByTable c b = crcStep c b

/-- spec/40_crc16.md R95 (P-c): the residue of a sequence followed by its CRC, low byte first, is zero; so a receiver may check
a frame by running the engine over all of it (spec/43_frame_codec.md R142). -/
def Obligations.CrcResidueIsZero : Prop :=
  (∀ s : List Byte, crc16 (s ++ [loByte (crc16 s), hiByte (crc16 s)]) = 0x0000#16) ∧
  (∀ raw : List Byte, 4 ≤ raw.length →
    ∃ f, parse raw = some f ∧ (checkCrc f = true ↔ crc16 raw = 0x0000#16) ∧ (checkCrc f = true ↔ crcCorrect raw))

/-- spec/40_crc16.md R95 (P-d): the CRC is affine over XOR. -/
def Obligations.CrcIsAffineOverXor : Prop :=
  ∀ s t u : List Byte, s.length = t.length → t.length = u.length →
    crc16 s ^^^ crc16 t ^^^ crc16 u =
      crc16 (List.zipWith (fun x y => x ^^^ y) (List.zipWith (fun x y => x ^^^ y) s t) u)

/-- spec/40_crc16.md R95 (P-b), spec/43_frame_codec.md R144 (P-b): inverting any single bit of a serialized frame, its CRC bytes
included, makes `check_crc` false. -/
def Obligations.SingleBitFlipIsDetected : Prop :=
  ∀ (addr fc : Byte) (payload : List Byte) (k : Nat), k < 8 * (serialize addr fc payload).length →
    ∃ f, parse (flipBit (serialize addr fc payload) k) = some f ∧ checkCrc f = false

/-- spec/43_frame_codec.md R144 (P-a), (P-c): a serialized frame is split into what it was made of and its CRC is good; a frame
with a good CRC, serialized again, is the same bytes; and `parse` is injective. -/
def Obligations.ParseAndSerializeAgree : Prop :=
  (∀ (addr fc : Byte) (payload : List Byte),
    ∃ f, parse (serialize addr fc payload) = some f ∧ f.addr = addr ∧ f.fc = fc ∧ f.payload = payload ∧
      checkCrc f = true) ∧
  (∀ (raw : List Byte) (f : Frame), parse raw = some f → checkCrc f = true → serialize f.addr f.fc f.payload = raw) ∧
  (∀ (raw raw' : List Byte) (f : Frame), parse raw = some f → parse raw' = some f → raw = raw')

/-! ### Decoding and encoding -/

/-- Frames of the spec's own examples decode to the requests they stand for (spec/45_functions.md, the worked examples of R181,
R185, R187, R188, R189). -/
def Obligations.WorkedExamplesDecode : Prop :=
  decode [] (.frame [0x03#8, 0x01#8, 0x00#8, 0x00#8, 0x00#8, 0x08#8, 0x3C#8, 0x2E#8]) =
    .instr (.rdcoil 0x03#8 (.fields 0x0000#16 0x0008#16)) ∧
  decode [] (.frame [0x03#8, 0x05#8, 0x00#8, 0x05#8, 0xFF#8, 0x00#8, 0x9D#8, 0xD9#8]) =
    .instr (.wrcoil 0x03#8 (.fields 0x0005#16 0xFF00#16)) ∧
  decode [] (.frame [0x03#8, 0x0F#8, 0x00#8, 0x08#8, 0x00#8, 0x0A#8, 0x02#8, 0xCD#8, 0x01#8, 0x68#8, 0x40#8]) =
    .instr (.wrcoils 0x03#8 (.fields 0x0008#16 0x000A#16 0x02#8 [0xCD#8, 0x01#8])) ∧
  decode [] (.frame [0x03#8, 0x10#8, 0x00#8, 0x02#8, 0x00#8, 0x02#8, 0x04#8, 0xAB#8, 0xCD#8, 0x00#8, 0x01#8, 0x09#8, 0xD5#8]) =
    .instr (.wrholds 0x03#8 (.fields 0x0002#16 0x0002#16 0x04#8 [0xAB#8, 0xCD#8, 0x00#8, 0x01#8])) ∧
  decode [] (.frame [0x03#8, 0x07#8, 0x40#8, 0x82#8]) = .instr (.unsupported0707 0x03#8 [])

/-- Decoding the encoding of a well-formed instruction gives it back, for every constructor and every operand
(spec/30_encoding.md R62 to R65, R69 to R73). -/
def Obligations.DecodeOfEncodeIsTheInstruction : Prop :=
  ∀ (ext : List Byte) (i : Instr), i.wellFormed ext = true → decode ext (encode i) = .instr i

/-- Every frame of at least 4 bytes with a good CRC is a request, and exactly one: it decodes to a well-formed instruction whose
encoding is that frame (spec/30_encoding.md R62, R70, R71). -/
def Obligations.EveryGoodFrameIsOneRequest : Prop :=
  ∀ (ext : List Byte) (raw : List Byte), 4 ≤ raw.length → crcCorrect raw →
    ∃ i, decode ext (.frame raw) = .instr i ∧ i.wellFormed ext = true ∧ encode i = .frame raw
end

