-- ==== Sys2Proof/Laws/Codec.lean ====
section
/-! SUPPORT. Laws of bytes, words, operands and the CRC accumulator. -/

namespace Sys2Proof

/-- A word is the big-endian pair of its bytes (spec/20_memory.md R44). -/
@[simp] theorem be16_hiByte_loByte (v : Word) : be16 (hiByte v) (loByte v) = v := by
  apply BitVec.eq_of_getLsbD_eq
  intro i hi
  simp only [be16, hiByte, loByte, BitVec.getLsbD_or, BitVec.getLsbD_shiftLeft, BitVec.getLsbD_setWidth,
    BitVec.getLsbD_extractLsb']
  by_cases h : i < 8
  · simp [h, hi]
  · have h1 : i - 8 < 8 := by omega
    have h2 : 8 + (i - 8) = i := by omega
    have h3 : i - 8 < 16 := by omega
    simp [h, hi, h1, h2, h3]

/-- The high byte of an assembled word (R7). -/
@[simp] theorem hiByte_be16 (h l : Byte) : hiByte (be16 h l) = h := by
  apply BitVec.eq_of_getLsbD_eq
  intro i hi
  have h1 : 8 + i < 16 := by omega
  have h2 : i < 16 := by omega
  have h3 : l.getLsbD (8 + i) = false := BitVec.getLsbD_of_ge _ _ (by omega)
  simp [be16, hiByte, hi, h1]

/-- The low byte of an assembled word (R7). -/
@[simp] theorem loByte_be16 (h l : Byte) : loByte (be16 h l) = l := by
  apply BitVec.eq_of_getLsbD_eq
  intro i hi
  have h2 : i < 16 := by omega
  simp [be16, loByte, hi, h2]

/-- Feeding two sequences one after the other (spec/40_crc16.md R94). -/
theorem crcFeed_append (c : Word) (s t : List Byte) : crcFeed c (s ++ t) = crcFeed (crcFeed c s) t :=
  List.foldl_append

/-- A well-formed operand list of format `AQ` is read back from its bytes (spec/30_encoding.md R63). -/
theorem AqOperands.ofBytes_toBytes {o : AqOperands} (h : o.wellFormed = true) : AqOperands.ofBytes o.toBytes = o := by
  cases o with
  | fields w q => simp [AqOperands.toBytes, AqOperands.ofBytes]
  | badLength p =>
    have h' : p.length ≠ 4 := by simpa [AqOperands.wellFormed] using h
    match p with
    | [] => rfl
    | [_] => rfl
    | [_, _] => rfl
    | [_, _, _] => rfl
    | [_, _, _, _] => exact absurd rfl h'
    | _ :: _ :: _ :: _ :: _ :: _ => rfl

/-- A well-formed operand list of format `AQBD` is read back from its bytes (spec/30_encoding.md R64). -/
theorem AqbdOperands.ofBytes_toBytes {o : AqbdOperands} (h : o.wellFormed = true) :
    AqbdOperands.ofBytes o.toBytes = o := by
  cases o with
  | fields w q bc data => simp [AqbdOperands.toBytes, AqbdOperands.ofBytes]
  | short p =>
    have h' : p.length < 5 := by simpa [AqbdOperands.wellFormed] using h
    match p with
    | [] => rfl
    | [_] => rfl
    | [_, _] => rfl
    | [_, _, _] => rfl
    | [_, _, _, _] => rfl
    | _ :: _ :: _ :: _ :: _ :: rest => simp only [List.length_cons] at h'; omega

/-- The length of a frame (spec/43_frame_codec.md R143). -/
theorem length_serialize (addr fc : Byte) (pl : List Byte) : (serialize addr fc pl).length = pl.length + 4 := by
  simp [serialize]

end Sys2Proof
end

