-- ==== Sys2Proof/Laws/Operands.lean ====
section
/-! SUPPORT. What the checks and the packing functions of Machine/Operands.lean are, in plain arithmetic, and the range write as
the loop of the rules. -/

namespace Sys2Proof.Machine

/-- `ceil8` is a rounded-up division (spec/00_scope.md R6). -/
theorem ceil8_eq (n : Nat) : ceil8 n = (n + 7) / 8 := by
  simp [ceil8, Nat.shiftRight_eq_div_pow]

/-- The first failing check is the one reported (spec/44_dispatcher.md R158). -/
theorem firstFailure_eq (p q : Prop) [Decidable p] [Decidable q] {valueOk addressOk : Bool}
    (hv : valueOk = !decide p) (ha : addressOk = !decide q) :
    firstFailure valueOk addressOk = if p then some .illegalValue else if q then some .illegalAddress else none := by
  subst hv ha
  by_cases p <;> by_cases q <;> simp [firstFailure, *]

/-- The address check of a range function (R162). -/
theorem rangeAddressOk_eq (w q : Word) :
    rangeAddressOk w q = !decide (9998 < w.toNat ∨ 9998 < w.toNat + q.toNat) := by
  rw [Bool.eq_iff_iff]
  simp only [rangeAddressOk, Bool.and_eq_true, decide_eq_true_eq, Bool.not_eq_true', decide_eq_false_iff_not]
  unfold Config.spanMax
  omega

/-- The address check of a single write (R162). -/
theorem singleAddressOk_eq (w : Word) : singleAddressOk w = !decide (9998 < w.toNat) := by
  rw [Bool.eq_iff_iff]
  simp only [singleAddressOk, decide_eq_true_eq, Bool.not_eq_true', decide_eq_false_iff_not]
  unfold Config.spanMax
  omega

/-- The value check of a range read (R161). -/
theorem amountOk_eq (bound : Nat) (q : Word) : amountOk bound q = !decide (q.toNat < 1 ∨ bound < q.toNat) := by
  rw [Bool.eq_iff_iff]
  simp only [amountOk, Bool.and_eq_true, decide_eq_true_eq, Bool.not_eq_true', decide_eq_false_iff_not]
  omega

/-- The value check of `WRCOIL` (R161). -/
theorem coilWireOk_eq (q : Word) : coilWireOk q = !decide (q ≠ 0x0000#16 ∧ q ≠ 0xFF00#16) := by
  rw [Bool.eq_iff_iff]
  simp [coilWireOk, Config.wireOn, Config.wireOff]

/-- The value checks of `WRCOILS` (R161). -/
theorem coilsValueOk_eq (q : Word) (bc : Byte) (data : List Byte) :
    coilsValueOk q bc data =
      !decide (q.toNat < 1 ∨ 7000 < q.toNat ∨ bc.toNat ≠ (q.toNat + 7) / 8 ∨ data.length ≠ bc.toNat) := by
  rw [Bool.eq_iff_iff]
  simp only [coilsValueOk, amountOk, Bool.and_eq_true, decide_eq_true_eq, Bool.not_eq_true', decide_eq_false_iff_not,
    ceil8_eq]
  unfold Config.maxBits
  omega

/-- The value checks of `WRHOLDS` (R161). -/
theorem holdsValueOk_eq (q : Word) (bc : Byte) (data : List Byte) :
    holdsValueOk q bc data =
      !decide (q.toNat < 1 ∨ 125 < q.toNat ∨ bc.toNat ≠ 2 * q.toNat ∨ data.length ≠ bc.toNat) := by
  rw [Bool.eq_iff_iff]
  simp only [holdsValueOk, amountOk, Bool.and_eq_true, decide_eq_true_eq, Bool.not_eq_true', decide_eq_false_iff_not]
  unfold Config.maxWords
  omega

/-- What `WRCOIL` stores (R185). -/
theorem coilStored_eq (q : Word) : coilStored q = if q = 0xFF00#16 then 0x0001#16 else 0x0000#16 := by
  by_cases h : q = 0xFF00#16 <;> simp [coilStored, coilValue, Config.wireOn, Config.coilOn, h]

/-- The values `WRCOILS` stores, one for each bit (R187). -/
theorem coilsStored_eq (data : List Byte) (n : Nat) :
    coilsStored data n =
      (List.range n).map fun i => if (byteAt data (i / 8)).getLsbD (i % 8) then 0x0001#16 else 0x0000#16 := by
  simp [coilsStored, unpackBits, coilValue, Config.coilOn, Function.comp_def]

/-- The writes of a range as a loop over pairs of an address and a value (R163). -/
theorem foldl_writeRange (cap : Nat) : ∀ (vs : List Word) (m : Memory) (a : Nat) (b : Bool),
    ((vs.zipIdx a).map fun p => (p.2, p.1)).foldl
      (fun (acc : Memory × Bool) (p : Nat × Word) =>
        ((Memory.verifyAndSet cap acc.1 p.1 p.2).1, acc.2 && (Memory.verifyAndSet cap acc.1 p.1 p.2).2)) (m, b) =
      ((Memory.writeRange cap m a vs).1, b && (Memory.writeRange cap m a vs).2) := by
  intro vs
  induction vs with
  | nil => intro m a b; simp [Memory.writeRange]
  | cons v vs ih => intro m a b; simp [Memory.writeRange, ih, Bool.and_assoc]

/-- The loop of R187 and R188 is the range write (R163). -/
theorem writeLoop_eq (cap : Nat) (m : Memory) (start count : Nat) (value : Nat → Word) :
    writeLoop cap m start count value = Memory.writeRange cap m start ((List.range count).map value) := by
  have h := foldl_writeRange cap ((List.range count).map value) m start true
  rw [Bool.true_and] at h
  rw [← Prod.eta (Memory.writeRange cap m start _), ← h]
  unfold writeLoop
  have hl : ((((List.range count).map value).zipIdx start).map fun p => (p.2, p.1)) =
      (List.range count).map fun i => (start + i, value i) := by
    apply List.ext_getElem
    · simp
    · intro i h1 h2; simp
  rw [hl, List.foldl_map]

end Sys2Proof.Machine
end

