-- ==== Sys2Proof/Laws/Memory.lean ====
section
/-! SUPPORT. Laws of the register table: what the binary search finds, and that every table operation keeps the canonical form
(spec/10_state.md R12, spec/42_register_table.md R126). -/

namespace Sys2Proof.Machine

/-- Addresses strictly rising, as a `Pairwise`. -/
abbrev Memory.Rising (m : Memory) : Prop := (m.map Entry.addr).Pairwise (· < ·)

theorem Memory.sorted_iff_rising (m : Memory) : Memory.sorted m = true ↔ Memory.Rising m := by
  induction m with
  | nil => simp [Memory.sorted, Memory.Rising]
  | cons e m ih =>
    cases m with
    | nil => simp [Memory.sorted, Memory.Rising]
    | cons e₂ rest =>
      simp only [Memory.sorted, Bool.and_eq_true, decide_eq_true_eq, ih, Memory.Rising, List.map_cons,
        List.pairwise_cons, List.mem_cons, List.mem_map]
      constructor
      · rintro ⟨h, h₂, h₃⟩
        refine ⟨?_, h₂, h₃⟩
        rintro a (rfl | ⟨x, hx, rfl⟩)
        · exact h
        · exact Nat.lt_trans h (h₂ _ ⟨x, hx, rfl⟩)
      · rintro ⟨h, h₂, h₃⟩
        exact ⟨h _ (.inl rfl), h₂, h₃⟩

theorem Memory.wf_iff (m : Memory) :
    Memory.wf m = true ↔ Memory.Rising m ∧ ∀ e ∈ m, e.addr < 65536 := by
  simp [Memory.wf, Memory.sorted_iff_rising]

theorem Memory.wf_rising {m : Memory} (h : Memory.wf m = true) : Memory.Rising m := ((Memory.wf_iff m).1 h).1

/-- Entry `i` has address `a`. -/
abbrev Memory.HitAt (m : Memory) (a i : Nat) : Prop := ∃ e, m[i]? = some e ∧ e.addr = a

/-- No entry has address `a`, and `i` is its insertion point. -/
abbrev Memory.GapAt (m : Memory) (a i : Nat) : Prop :=
  i ≤ m.length ∧ (∀ e ∈ m.take i, e.addr < a) ∧ (∀ e ∈ m.drop i, a < e.addr)

theorem Memory.rising_getElem {m : Memory} (h : Memory.Rising m) {i j : Nat} {e f : Entry}
    (hi : m[i]? = some e) (hj : m[j]? = some f) (hij : i < j) : e.addr < f.addr := by
  obtain ⟨hi', rfl⟩ := List.getElem?_eq_some_iff.1 hi
  obtain ⟨hj', rfl⟩ := List.getElem?_eq_some_iff.1 hj
  have := List.pairwise_iff_getElem.1 h i j (by simpa using hi') (by simpa using hj') hij
  simpa using this

/-- The loop of `find`: with every entry before the window below `a` and every entry after it above, the answer is a hit or
the insertion point (R120). -/
theorem Memory.search_spec {m : Memory} (h : Memory.Rising m) (a : Nat) :
    ∀ (fuel lo hi : Nat), hi ≤ m.length → lo ≤ hi → hi - lo ≤ fuel →
      (∀ e ∈ m.take lo, e.addr < a) → (∀ e ∈ m.drop hi, a < e.addr) →
      (∃ i, Memory.search m a fuel lo hi = (true, i) ∧ Memory.HitAt m a i) ∨
      (∃ i, Memory.search m a fuel lo hi = (false, i) ∧ Memory.GapAt m a i) := by
  intro fuel
  induction fuel with
  | zero =>
    intro lo hi hlen hle hf hlo hhi
    have : lo = hi := by omega
    subst this
    exact .inr ⟨lo, rfl, hlen, hlo, hhi⟩
  | succ fuel ih =>
    intro lo hi hlen hle hf hlo hhi
    unfold Memory.search
    by_cases hlt : lo < hi
    · rw [if_pos hlt]
      have hmid : (lo + hi) / 2 < m.length := by omega
      have he : m[(lo + hi) / 2]? = some m[(lo + hi) / 2] := List.getElem?_eq_getElem hmid
      rw [he]
      dsimp only
      by_cases heq : m[(lo + hi) / 2].addr = a
      · rw [if_pos heq]
        exact .inl ⟨_, rfl, _, he, heq⟩
      · rw [if_neg heq]
        by_cases hlt' : m[(lo + hi) / 2].addr < a
        · rw [if_pos hlt']
          refine ih _ _ hlen (by omega) (by omega) ?_ hhi
          intro e hem
          obtain ⟨j, hj, rfl⟩ := List.mem_take_iff_getElem.1 hem
          rcases Nat.lt_or_eq_of_le (show j ≤ (lo + hi) / 2 by omega) with hj' | hj'
          · exact Nat.lt_trans (Memory.rising_getElem h (List.getElem?_eq_getElem (by omega)) he hj') hlt'
          · subst hj'; exact hlt'
        · rw [if_neg hlt']
          refine ih _ _ (by omega) (by omega) (by omega) hlo ?_
          intro e hem
          obtain ⟨j, hj, rfl⟩ := List.mem_drop_iff_getElem.1 hem
          rcases Nat.eq_zero_or_pos j with rfl | hj'
          · simp only [Nat.add_zero]; omega
          · have := Memory.rising_getElem h he
              (List.getElem?_eq_getElem (show (lo + hi) / 2 + j < m.length by omega)) (by omega)
            omega
    · rw [if_neg hlt]
      have : lo = hi := by omega
      subst this
      exact .inr ⟨lo, rfl, hlen, hlo, hhi⟩

/-- `find` answers a hit or the insertion point (R120). -/
theorem Memory.find_cases {m : Memory} (h : Memory.Rising m) (a : Nat) :
    (∃ i, Memory.find m a = (true, i) ∧ Memory.HitAt m a i) ∨
    (∃ i, Memory.find m a = (false, i) ∧ Memory.GapAt m a i) :=
  Memory.search_spec h a m.length 0 m.length (Nat.le_refl _) (Nat.zero_le _) (by omega) (by simp) (by simp)

/-! ### The abstract map -/

/-- Under rising addresses the map and the entries determine each other (R13). -/
theorem Memory.lookup_eq_some {m : Memory} (h : Memory.Rising m) (a : Nat) (v : Word) :
    Memory.lookup m a = some v ↔ ⟨a, v⟩ ∈ m := by
  induction m with
  | nil => simp [Memory.lookup]
  | cons e m ih =>
    have hr : Memory.Rising m := (List.pairwise_cons.1 h).2
    have hlt : ∀ x ∈ m, e.addr < x.addr := fun x hx => (List.pairwise_cons.1 h).1 _ (List.mem_map_of_mem hx)
    by_cases he : e.addr = a
    · have : Memory.lookup (e :: m) a = some e.val := by simp [Memory.lookup, he]
      rw [this]
      constructor
      · rintro hv
        cases hv
        subst he
        exact List.mem_cons_self
      · intro hm
        rcases List.mem_cons.1 hm with rfl | hm
        · rfl
        · have := hlt _ hm; simp at this; omega
    · have : Memory.lookup (e :: m) a = Memory.lookup m a := by simp [Memory.lookup, he]
      rw [this, ih hr, List.mem_cons]
      constructor
      · exact .inr
      · rintro (rfl | hm)
        · exact absurd rfl he
        · exact hm

theorem Memory.lookup_eq_none (m : Memory) (a : Nat) :
    Memory.lookup m a = none ↔ ∀ e ∈ m, e.addr ≠ a := by
  simp [Memory.lookup]

theorem Memory.hit_lookup {m : Memory} (h : Memory.Rising m) {a i : Nat} (hi : Memory.HitAt m a i) :
    ∃ v, m[i]? = some ⟨a, v⟩ ∧ Memory.lookup m a = some v := by
  obtain ⟨⟨a', v⟩, he, rfl⟩ := hi
  exact ⟨v, he, (Memory.lookup_eq_some h _ _).2 (List.mem_iff_getElem?.2 ⟨i, he⟩)⟩

theorem Memory.gap_lookup {m : Memory} {a i : Nat} (hi : Memory.GapAt m a i) : Memory.lookup m a = none := by
  rw [Memory.lookup_eq_none]
  intro e he
  rw [← List.take_append_drop i m] at he
  rcases List.mem_append.1 he with h | h
  · exact Nat.ne_of_lt (hi.2.1 e h)
  · exact Nat.ne_of_gt (hi.2.2 e h)

/-! ### Every operation keeps the canonical form -/

theorem Memory.map_addr_modify (m : Memory) (i : Nat) (v : Word) :
    (m.modify i (fun e => { e with val := v })).map Entry.addr = m.map Entry.addr := by
  apply List.ext_getElem?
  intro j
  rw [List.getElem?_map, List.getElem?_modify, List.getElem?_map]
  by_cases h : i = j <;> simp [h]
  · cases m[j]? <;> rfl

theorem Memory.addr_bound_iff (m : Memory) : (∀ e ∈ m, e.addr < 65536) ↔ ∀ a ∈ m.map Entry.addr, a < 65536 := by
  simp

theorem Memory.wf_congr_addr {m m' : Memory} (h : m'.map Entry.addr = m.map Entry.addr) (hm : Memory.wf m = true) :
    Memory.wf m' = true := by
  rw [Memory.wf_iff] at *
  rw [Memory.addr_bound_iff] at *
  unfold Memory.Rising at *
  rw [h]
  exact hm

/-- Opening a hole at the insertion point keeps the order (R122). -/
theorem Memory.rising_insert {m : Memory} (h : Memory.Rising m) {a i : Nat} (v : Word) (hi : Memory.GapAt m a i) :
    Memory.Rising (m.take i ++ ⟨a, v⟩ :: m.drop i) := by
  unfold Memory.Rising
  rw [List.map_append, List.map_cons, List.pairwise_append]
  have hsplit : (m.take i ++ m.drop i).map Entry.addr = m.map Entry.addr := by rw [List.take_append_drop]
  rw [List.map_append] at hsplit
  have hp : ((m.take i).map Entry.addr ++ (m.drop i).map Entry.addr).Pairwise (· < ·) := by
    rw [hsplit]; exact h
  rw [List.pairwise_append] at hp
  refine ⟨hp.1, ?_, ?_⟩
  · rw [List.pairwise_cons]
    refine ⟨?_, hp.2.1⟩
    intro b hb
    obtain ⟨e, he, rfl⟩ := List.mem_map.1 hb
    exact hi.2.2 e he
  · intro x hx y hy
    obtain ⟨e, he, rfl⟩ := List.mem_map.1 hx
    rcases List.mem_cons.1 hy with rfl | hy
    · exact hi.2.1 e he
    · exact hp.2.2 _ hx _ hy

/-- `set` keeps the canonical form (R126). -/
theorem Memory.wf_set {m : Memory} (cap : Nat) (h : Memory.wf m = true) {a : Nat} (ha : a < 65536) (v : Word) :
    Memory.wf (Memory.set cap m a v) = true := by
  have hr := Memory.wf_rising h
  unfold Memory.set
  rcases Memory.find_cases hr a with ⟨i, hf, _⟩ | ⟨i, hf, hi⟩
  · rw [hf, if_pos rfl]
    exact Memory.wf_congr_addr (Memory.map_addr_modify m i v) h
  · rw [hf, if_neg (by simp)]
    split
    · rw [Memory.wf_iff]
      refine ⟨Memory.rising_insert hr v hi, fun e he => ?_⟩
      rcases List.mem_append.1 he with he | he
      · exact ((Memory.wf_iff m).1 h).2 e (List.mem_of_mem_take he)
      · rcases List.mem_cons.1 he with rfl | he
        · exact ha
        · exact ((Memory.wf_iff m).1 h).2 e (List.mem_of_mem_drop he)
    · exact h

/-- `verify_and_set` keeps the canonical form (R126). -/
theorem Memory.wf_verifyAndSet {m : Memory} (cap : Nat) (h : Memory.wf m = true) {a : Nat} (ha : a < 65536) (v : Word) :
    Memory.wf (Memory.verifyAndSet cap m a v).1 = true := Memory.wf_set cap h ha v

/-- `delete` keeps the canonical form (R126). -/
theorem Memory.wf_delete {m : Memory} (h : Memory.wf m = true) (a : Nat) : Memory.wf (Memory.delete m a) = true := by
  unfold Memory.delete
  split
  · rw [Memory.wf_iff] at *
    have hs := List.eraseIdx_sublist m (Memory.find m a).2
    exact ⟨h.1.sublist (hs.map _), fun e he => h.2 e (hs.subset he)⟩
  · exact h

/-- The writes of a range function keep the canonical form (R126, R163). -/
theorem Memory.wf_writeRange (cap : Nat) (vs : List Word) :
    ∀ {m : Memory}, Memory.wf m = true → ∀ {a : Nat}, a + vs.length ≤ 65536 →
      Memory.wf (Memory.writeRange cap m a vs).1 = true := by
  induction vs with
  | nil => intro m h a _; exact h
  | cons v vs ih =>
    intro m h a ha
    simp only [List.length_cons] at ha
    exact ih (Memory.wf_verifyAndSet cap h (by omega) v) (by omega)

/-! ### What every operation does to the map -/

/-- `get` reads the map, and 0 where it is undefined (R121). -/
theorem Memory.get_eq {m : Memory} (h : Memory.Rising m) (a : Nat) :
    Memory.get m a = (Memory.lookup m a).getD 0x0000#16 := by
  unfold Memory.get
  rcases Memory.find_cases h a with ⟨i, hf, hi⟩ | ⟨i, hf, hi⟩
  · obtain ⟨v, he, hl⟩ := Memory.hit_lookup h hi
    simp [hf, he, hl]
  · simp [hf, Memory.gap_lookup hi]

/-- `exists` tells whether the map is defined (R124). -/
theorem Memory.present_eq {m : Memory} (h : Memory.Rising m) (a : Nat) :
    Memory.present m a = (Memory.lookup m a).isSome := by
  unfold Memory.present
  rcases Memory.find_cases h a with ⟨i, hf, hi⟩ | ⟨i, hf, hi⟩
  · obtain ⟨v, he, hl⟩ := Memory.hit_lookup h hi
    simp [hf, hl]
  · simp [hf, Memory.gap_lookup hi]

/-- `set` at a present address overwrites (R122). -/
theorem Memory.set_hit {m : Memory} (h : Memory.Rising m) (cap : Nat) {a : Nat} (v : Word)
    (hl : Memory.lookup m a ≠ none) :
    (Memory.set cap m a v).length = m.length ∧
    ∀ b, Memory.lookup (Memory.set cap m a v) b = if b = a then some v else Memory.lookup m b := by
  unfold Memory.set
  rcases Memory.find_cases h a with ⟨i, hf, hi⟩ | ⟨i, hf, hi⟩
  · rw [hf, if_pos rfl]
    refine ⟨by simp, fun b => ?_⟩
    have hr : Memory.Rising (m.modify i (fun e => { e with val := v })) := by
      unfold Memory.Rising; rw [Memory.map_addr_modify]; exact h
    obtain ⟨e, he, rfl⟩ := hi
    have hmod : ∀ j, (m.modify i (fun e => { e with val := v }))[j]? = if i = j then some ⟨e.addr, v⟩ else m[j]? := by
      intro j
      rw [List.getElem?_modify]
      by_cases hij : i = j
      · subst hij; simp [he]
      · simp [hij]
    by_cases hb : b = e.addr
    · subst hb
      rw [if_pos rfl, Memory.lookup_eq_some hr]
      exact List.mem_iff_getElem?.2 ⟨i, by rw [hmod, if_pos rfl]⟩
    · rw [if_neg hb]
      apply Option.ext
      intro x
      rw [Memory.lookup_eq_some hr, Memory.lookup_eq_some h]
      constructor
      · intro hm
        obtain ⟨j, hj⟩ := List.mem_iff_getElem?.1 hm
        rw [hmod] at hj
        split at hj
        · cases hj; exact absurd rfl hb
        · exact List.mem_iff_getElem?.2 ⟨j, hj⟩
      · intro hm
        obtain ⟨j, hj⟩ := List.mem_iff_getElem?.1 hm
        refine List.mem_iff_getElem?.2 ⟨j, ?_⟩
        rw [hmod, if_neg, hj]
        rintro rfl
        rw [he] at hj; cases hj; exact hb rfl
  · exact absurd (Memory.gap_lookup hi) hl

/-- `set` at an absent address inserts, when the table has room (R122). -/
theorem Memory.set_gap {m : Memory} (h : Memory.Rising m) {cap a : Nat} (v : Word)
    (hl : Memory.lookup m a = none) (hc : m.length < cap) :
    (Memory.set cap m a v).length = m.length + 1 ∧
    ∀ b, Memory.lookup (Memory.set cap m a v) b = if b = a then some v else Memory.lookup m b := by
  unfold Memory.set
  rcases Memory.find_cases h a with ⟨i, hf, hi⟩ | ⟨i, hf, hi⟩
  · obtain ⟨v, _, hv⟩ := Memory.hit_lookup h hi
    rw [hl] at hv; cases hv
  · rw [hf, if_neg (by simp), if_pos hc]
    have hr := Memory.rising_insert h v hi
    refine ⟨by simp only [List.length_append, List.length_cons, List.length_take, List.length_drop]; omega, fun b => ?_⟩
    apply Option.ext
    intro x
    rw [Memory.lookup_eq_some hr]
    have hm : (⟨b, x⟩ ∈ m) ↔ ((⟨b, x⟩ : Entry) ∈ m.take i ∨ ⟨b, x⟩ ∈ m.drop i) := by
      rw [← List.mem_append, List.take_append_drop]
    by_cases hb : b = a
    · subst hb
      have hn := (Memory.lookup_eq_none m b).1 hl
      rw [if_pos rfl]
      constructor
      · intro hx
        rcases List.mem_append.1 hx with hx | hx
        · exact absurd rfl (hn _ (hm.2 (.inl hx)))
        · rcases List.mem_cons.1 hx with hx | hx
          · cases hx; rfl
          · exact absurd rfl (hn _ (hm.2 (.inr hx)))
      · rintro hx; cases hx; simp
    · rw [if_neg hb, Memory.lookup_eq_some h, hm, List.mem_append, List.mem_cons]
      constructor
      · rintro (hx | hx | hx)
        · exact .inl hx
        · cases hx; exact absurd rfl hb
        · exact .inr hx
      · rintro (hx | hx)
        · exact .inl hx
        · exact .inr (.inr hx)

/-- `set` at an absent address of a full table does nothing (R122, R128). -/
theorem Memory.set_full {m : Memory} (h : Memory.Rising m) {cap a : Nat} (v : Word)
    (hl : Memory.lookup m a = none) (hc : ¬ m.length < cap) : Memory.set cap m a v = m := by
  unfold Memory.set
  rcases Memory.find_cases h a with ⟨i, hf, hi⟩ | ⟨i, hf, hi⟩
  · obtain ⟨v, _, hv⟩ := Memory.hit_lookup h hi
    rw [hl] at hv; cases hv
  · rw [hf, if_neg (by simp), if_neg hc]

/-- What the map is after `set` (R122). -/
theorem Memory.lookup_set {m : Memory} (h : Memory.Rising m) (cap a : Nat) (v : Word) (b : Nat) :
    Memory.lookup (Memory.set cap m a v) b =
      if b = a ∧ (Memory.lookup m a ≠ none ∨ m.length < cap) then some v else Memory.lookup m b := by
  by_cases hl : Memory.lookup m a = none
  · by_cases hc : m.length < cap
    · simp [(Memory.set_gap h v hl hc).2, hc]
    · simp [Memory.set_full h v hl hc, hl, hc]
  · simp [(Memory.set_hit h cap v hl).2, hl]

/-- How many entries there are after `set` (R122). -/
theorem Memory.length_set {m : Memory} (h : Memory.Rising m) (cap a : Nat) (v : Word) :
    (Memory.set cap m a v).length =
      if Memory.lookup m a = none ∧ m.length < cap then m.length + 1 else m.length := by
  by_cases hl : Memory.lookup m a = none
  · by_cases hc : m.length < cap
    · simp [(Memory.set_gap h v hl hc).1, hc, hl]
    · simp [Memory.set_full h v hl hc, hl, hc]
  · simp [(Memory.set_hit h cap v hl).1, hl]

/-- `set` keeps the order (R126). -/
theorem Memory.rising_set {m : Memory} (h : Memory.Rising m) (cap a : Nat) (v : Word) :
    Memory.Rising (Memory.set cap m a v) := by
  unfold Memory.set
  rcases Memory.find_cases h a with ⟨i, hf, hi⟩ | ⟨i, hf, hi⟩
  · rw [hf, if_pos rfl]; unfold Memory.Rising; rw [Memory.map_addr_modify]; exact h
  · rw [hf, if_neg (by simp)]
    split
    · exact Memory.rising_insert h v hi
    · exact h

/-- `delete` removes the entry of the address and no other (R125). -/
theorem Memory.delete_eq {m : Memory} (h : Memory.Rising m) (a : Nat) :
    Memory.delete m a = m.filter (fun e => decide (e.addr ≠ a)) := by
  have hinj : ∀ (i j : Nat) (e f : Entry), m[i]? = some e → m[j]? = some f → e.addr = f.addr → i = j := by
    intro i j e f hi hj hef
    rcases Nat.lt_trichotomy i j with hlt | rfl | hlt
    · have := Memory.rising_getElem h hi hj hlt; omega
    · rfl
    · have := Memory.rising_getElem h hj hi hlt; omega
  unfold Memory.delete
  rcases Memory.find_cases h a with ⟨i, hf, e, he, rfl⟩ | ⟨i, hf, hi⟩
  · rw [hf, if_pos rfl]
    obtain ⟨hlt, hge⟩ := List.getElem?_eq_some_iff.1 he
    rw [List.eraseIdx_eq_take_drop_succ]
    conv_rhs => rw [← List.take_append_drop i m, List.drop_eq_getElem_cons hlt, List.filter_append, hge]
    rw [List.filter_cons_of_neg (by simp)]
    congr 1
    · rw [List.filter_eq_self.2]
      intro x hx
      obtain ⟨j, hj, rfl⟩ := List.mem_take_iff_getElem.1 hx
      simp only [decide_eq_true_eq]
      intro heq
      have := hinj j i _ _ (List.getElem?_eq_getElem (by omega)) he heq
      omega
    · rw [List.filter_eq_self.2]
      intro x hx
      obtain ⟨j, hj, rfl⟩ := List.mem_drop_iff_getElem.1 hx
      simp only [decide_eq_true_eq]
      intro heq
      have := hinj _ i _ _ (List.getElem?_eq_getElem (by omega)) he heq
      omega
  · rw [hf, if_neg (by simp), List.filter_eq_self.2]
    intro x hx
    simpa using (Memory.lookup_eq_none m a).1 (Memory.gap_lookup hi) x hx

/-- The writes of a range keep the order (R126, R163). -/
theorem Memory.rising_writeRange (cap : Nat) (vs : List Word) :
    ∀ {m : Memory}, Memory.Rising m → ∀ (a : Nat), Memory.Rising (Memory.writeRange cap m a vs).1 := by
  induction vs with
  | nil => intro m h a; exact h
  | cons v vs ih => intro m h a; exact ih (Memory.rising_set h _ _ _) _

/-- The writes of a range touch no address outside it (R163). -/
theorem Memory.lookup_writeRange_outside (cap : Nat) (vs : List Word) :
    ∀ {m : Memory}, Memory.Rising m → ∀ (a b : Nat),
      (b < a ∨ a + vs.length ≤ b) → Memory.lookup (Memory.writeRange cap m a vs).1 b = Memory.lookup m b := by
  induction vs with
  | nil => intro m h a b _; rfl
  | cons v vs ih =>
    intro m h a b hb
    simp only [List.length_cons] at hb
    show Memory.lookup (Memory.writeRange cap (Memory.set cap m a v) (a + 1) vs).1 b = _
    rw [ih (Memory.rising_set h _ _ _) _ _ (by omega), Memory.lookup_set h, if_neg (by omega)]

/-- The writes of a range remove no entry (R163). -/
theorem Memory.lookup_writeRange_kept (cap : Nat) (vs : List Word) :
    ∀ {m : Memory}, Memory.Rising m → ∀ (a b : Nat),
      Memory.lookup m b ≠ none → Memory.lookup (Memory.writeRange cap m a vs).1 b ≠ none := by
  induction vs with
  | nil => intro m h a b hb; exact hb
  | cons v vs ih =>
    intro m h a b hb
    refine ih (Memory.rising_set h cap a v) _ _ ?_
    show Memory.lookup (Memory.set cap m a v) b ≠ none
    rw [Memory.lookup_set h]
    split
    · simp
    · exact hb

/-- With room for every entry, every write of a range succeeds (R163, R123). -/
theorem Memory.writeRange_room (cap : Nat) (vs : List Word) :
    ∀ {m : Memory}, Memory.Rising m → ∀ (a : Nat), m.length + vs.length ≤ cap →
    (Memory.writeRange cap m a vs).2 = true ∧
    ∀ b, Memory.lookup (Memory.writeRange cap m a vs).1 b =
      if a ≤ b ∧ b < a + vs.length then vs[b - a]? else Memory.lookup m b := by
  induction vs with
  | nil => intro m h a _; exact ⟨rfl, fun b => by rw [if_neg (by simp)]; rfl⟩
  | cons v vs ih =>
    intro m h a hl
    simp only [List.length_cons] at hl
    have hset := Memory.lookup_set h cap a v
    have hlen := Memory.length_set h cap a v
    have hle : (Memory.set cap m a v).length ≤ m.length + 1 := by rw [hlen]; split <;> omega
    obtain ⟨h1, h2⟩ := ih (Memory.rising_set h cap a v) (a + 1) (by omega)
    constructor
    · show ((Memory.get (Memory.set cap m a v) a == v) &&
        (Memory.writeRange cap (Memory.set cap m a v) (a + 1) vs).2) = true
      rw [h1, Memory.get_eq (Memory.rising_set h cap a v), hset, if_pos ⟨rfl, .inr (by omega)⟩]
      simp
    · intro b
      show Memory.lookup (Memory.writeRange cap (Memory.set cap m a v) (a + 1) vs).1 b = _
      rw [h2, hset]
      simp only [List.length_cons]
      by_cases hb : b = a
      · subst hb
        rw [if_neg (by omega), if_pos ⟨rfl, .inr (by omega)⟩, if_pos (by omega)]
        simp
      · by_cases hr : a + 1 ≤ b ∧ b < a + 1 + vs.length
        · rw [if_pos hr, if_pos (by omega)]
          obtain ⟨k, rfl⟩ : ∃ k, b = a + 1 + k := ⟨b - (a + 1), by omega⟩
          have : a + 1 + k - a = k + 1 := by omega
          rw [this, Nat.add_sub_cancel_left]; simp
        · rw [if_neg hr, if_neg (by simp [hb]), if_neg (by omega)]
/-! ### The number of entries stays within the capacity -/

theorem Memory.length_set_le {cap : Nat} {m : Memory} (h : m.length ≤ cap) (a : Nat) (v : Word) :
    (Memory.set cap m a v).length ≤ cap := by
  unfold Memory.set
  split
  · simpa using h
  · split
    · simp only [List.length_append, List.length_cons, List.length_take, List.length_drop]; omega
    · exact h

theorem Memory.length_delete_le (m : Memory) (a : Nat) : (Memory.delete m a).length ≤ m.length := by
  unfold Memory.delete
  split
  · exact (List.eraseIdx_sublist _ _).length_le
  · exact Nat.le_refl _

theorem Memory.length_writeRange_le (cap : Nat) (vs : List Word) :
    ∀ {m : Memory}, m.length ≤ cap → ∀ (a : Nat), (Memory.writeRange cap m a vs).1.length ≤ cap := by
  induction vs with
  | nil => intro m h a; exact h
  | cons v vs ih => intro m h a; exact ih (Memory.length_set_le h a v) _

/-- The reset table has the canonical form. -/
theorem Memory.wf_reset : Memory.wf State.reset.table = true := rfl

end Sys2Proof.Machine
end

