-- ==== Sys2Proof/Laws/State.lean ====
section
/-! SUPPORT. One lemma per field per update: what each named update of the state does to every field. -/

namespace Sys2Proof.Machine

/-! ### `enter` -/

@[simp] theorem enter_params (p : Phase) (s : State) : (enter p s).params = s.params := rfl
@[simp] theorem enter_table (p : Phase) (s : State) : (enter p s).table = s.table := rfl
@[simp] theorem enter_unitId (p : Phase) (s : State) : (enter p s).unitId = s.unitId := rfl
@[simp] theorem enter_phase (p : Phase) (s : State) : (enter p s).phase = p := rfl
@[simp] theorem enter_outcome (p : Phase) (s : State) : (enter p s).outcome = s.outcome := rfl
@[simp] theorem enter_replied (p : Phase) (s : State) : (enter p s).replied = s.replied := rfl
@[simp] theorem enter_scratch (p : Phase) (s : State) : (enter p s).scratch = s.scratch := rfl
@[simp] theorem enter_pending (p : Phase) (s : State) : (enter p s).pending = s.pending := rfl
@[simp] theorem enter_sent (p : Phase) (s : State) : (enter p s).sent = s.sent := rfl
@[simp] theorem enter_admOut (p : Phase) (s : State) : (enter p s).admOut = s.admOut := rfl
@[simp] theorem enter_freeCount (p : Phase) (s : State) : (enter p s).freeCount = s.freeCount := rfl

/-! ### `drop` -/

@[simp] theorem drop_params (o : CycleOutcome) (s : State) : (drop o s).params = s.params := rfl
@[simp] theorem drop_table (o : CycleOutcome) (s : State) : (drop o s).table = s.table := rfl
@[simp] theorem drop_unitId (o : CycleOutcome) (s : State) : (drop o s).unitId = s.unitId := rfl
@[simp] theorem drop_phase (o : CycleOutcome) (s : State) : (drop o s).phase = .awaitingFrame := rfl
@[simp] theorem drop_outcome (o : CycleOutcome) (s : State) : (drop o s).outcome = o := rfl
@[simp] theorem drop_replied (o : CycleOutcome) (s : State) : (drop o s).replied = false := rfl
@[simp] theorem drop_scratch (o : CycleOutcome) (s : State) : (drop o s).scratch = s.scratch := rfl
@[simp] theorem drop_pending (o : CycleOutcome) (s : State) : (drop o s).pending = s.pending := rfl
@[simp] theorem drop_sent (o : CycleOutcome) (s : State) : (drop o s).sent = s.sent := rfl
@[simp] theorem drop_admOut (o : CycleOutcome) (s : State) : (drop o s).admOut = s.admOut := rfl
@[simp] theorem drop_freeCount (o : CycleOutcome) (s : State) : (drop o s).freeCount = s.freeCount := rfl

/-! ### `setResult` -/

@[simp] theorem setResult_params (o : CycleOutcome) (fc : Byte) (pl : List Byte) (s : State) : (setResult o fc pl s).params = s.params := rfl
@[simp] theorem setResult_table (o : CycleOutcome) (fc : Byte) (pl : List Byte) (s : State) : (setResult o fc pl s).table = s.table := rfl
@[simp] theorem setResult_unitId (o : CycleOutcome) (fc : Byte) (pl : List Byte) (s : State) : (setResult o fc pl s).unitId = s.unitId := rfl
@[simp] theorem setResult_phase (o : CycleOutcome) (fc : Byte) (pl : List Byte) (s : State) : (setResult o fc pl s).phase = .responseReady := rfl
@[simp] theorem setResult_outcome (o : CycleOutcome) (fc : Byte) (pl : List Byte) (s : State) : (setResult o fc pl s).outcome = s.outcome := rfl
@[simp] theorem setResult_replied (o : CycleOutcome) (fc : Byte) (pl : List Byte) (s : State) : (setResult o fc pl s).replied = s.replied := rfl
@[simp] theorem setResult_pending (o : CycleOutcome) (fc : Byte) (pl : List Byte) (s : State) : (setResult o fc pl s).pending = s.pending := rfl
@[simp] theorem setResult_sent (o : CycleOutcome) (fc : Byte) (pl : List Byte) (s : State) : (setResult o fc pl s).sent = s.sent := rfl
@[simp] theorem setResult_admOut (o : CycleOutcome) (fc : Byte) (pl : List Byte) (s : State) : (setResult o fc pl s).admOut = s.admOut := rfl
@[simp] theorem setResult_freeCount (o : CycleOutcome) (fc : Byte) (pl : List Byte) (s : State) : (setResult o fc pl s).freeCount = s.freeCount := rfl
@[simp] theorem setResult_scratch_raw (o : CycleOutcome) (fc : Byte) (pl : List Byte) (s : State) : (setResult o fc pl s).scratch.raw = s.scratch.raw := rfl
@[simp] theorem setResult_scratch_fAddr (o : CycleOutcome) (fc : Byte) (pl : List Byte) (s : State) : (setResult o fc pl s).scratch.fAddr = s.scratch.fAddr := rfl
@[simp] theorem setResult_scratch_fFc (o : CycleOutcome) (fc : Byte) (pl : List Byte) (s : State) : (setResult o fc pl s).scratch.fFc = s.scratch.fFc := rfl
@[simp] theorem setResult_scratch_fPayload (o : CycleOutcome) (fc : Byte) (pl : List Byte) (s : State) : (setResult o fc pl s).scratch.fPayload = s.scratch.fPayload := rfl
@[simp] theorem setResult_scratch_fCrc (o : CycleOutcome) (fc : Byte) (pl : List Byte) (s : State) : (setResult o fc pl s).scratch.fCrc = s.scratch.fCrc := rfl
@[simp] theorem setResult_scratch_w (o : CycleOutcome) (fc : Byte) (pl : List Byte) (s : State) : (setResult o fc pl s).scratch.w = s.scratch.w := rfl
@[simp] theorem setResult_scratch_q (o : CycleOutcome) (fc : Byte) (pl : List Byte) (s : State) : (setResult o fc pl s).scratch.q = s.scratch.q := rfl
@[simp] theorem setResult_scratch_bc (o : CycleOutcome) (fc : Byte) (pl : List Byte) (s : State) : (setResult o fc pl s).scratch.bc = s.scratch.bc := rfl
@[simp] theorem setResult_scratch_suppress (o : CycleOutcome) (fc : Byte) (pl : List Byte) (s : State) : (setResult o fc pl s).scratch.suppress = s.scratch.suppress := rfl
@[simp] theorem setResult_scratch_wrOk (o : CycleOutcome) (fc : Byte) (pl : List Byte) (s : State) : (setResult o fc pl s).scratch.wrOk = s.scratch.wrOk := rfl
@[simp] theorem setResult_scratch_verdict (o : CycleOutcome) (fc : Byte) (pl : List Byte) (s : State) : (setResult o fc pl s).scratch.verdict = o := rfl
@[simp] theorem setResult_scratch_rFc (o : CycleOutcome) (fc : Byte) (pl : List Byte) (s : State) : (setResult o fc pl s).scratch.rFc = fc := rfl
@[simp] theorem setResult_scratch_rPayload (o : CycleOutcome) (fc : Byte) (pl : List Byte) (s : State) : (setResult o fc pl s).scratch.rPayload = pl := rfl
@[simp] theorem setResult_scratch_tx (o : CycleOutcome) (fc : Byte) (pl : List Byte) (s : State) : (setResult o fc pl s).scratch.tx = s.scratch.tx := rfl
@[simp] theorem setResult_scratch_crc (o : CycleOutcome) (fc : Byte) (pl : List Byte) (s : State) : (setResult o fc pl s).scratch.crc = s.scratch.crc := rfl

/-! ### `raise` -/

@[simp] theorem raise_params (e : ModbusException) (s : State) : (raise e s).params = s.params := rfl
@[simp] theorem raise_table (e : ModbusException) (s : State) : (raise e s).table = s.table := rfl
@[simp] theorem raise_unitId (e : ModbusException) (s : State) : (raise e s).unitId = s.unitId := rfl
@[simp] theorem raise_phase (e : ModbusException) (s : State) : (raise e s).phase = .responseReady := rfl
@[simp] theorem raise_outcome (e : ModbusException) (s : State) : (raise e s).outcome = s.outcome := rfl
@[simp] theorem raise_replied (e : ModbusException) (s : State) : (raise e s).replied = s.replied := rfl
@[simp] theorem raise_pending (e : ModbusException) (s : State) : (raise e s).pending = s.pending := rfl
@[simp] theorem raise_sent (e : ModbusException) (s : State) : (raise e s).sent = s.sent := rfl
@[simp] theorem raise_admOut (e : ModbusException) (s : State) : (raise e s).admOut = s.admOut := rfl
@[simp] theorem raise_freeCount (e : ModbusException) (s : State) : (raise e s).freeCount = s.freeCount := rfl
@[simp] theorem raise_scratch_raw (e : ModbusException) (s : State) : (raise e s).scratch.raw = s.scratch.raw := rfl
@[simp] theorem raise_scratch_fAddr (e : ModbusException) (s : State) : (raise e s).scratch.fAddr = s.scratch.fAddr := rfl
@[simp] theorem raise_scratch_fFc (e : ModbusException) (s : State) : (raise e s).scratch.fFc = s.scratch.fFc := rfl
@[simp] theorem raise_scratch_fPayload (e : ModbusException) (s : State) : (raise e s).scratch.fPayload = s.scratch.fPayload := rfl
@[simp] theorem raise_scratch_fCrc (e : ModbusException) (s : State) : (raise e s).scratch.fCrc = s.scratch.fCrc := rfl
@[simp] theorem raise_scratch_w (e : ModbusException) (s : State) : (raise e s).scratch.w = s.scratch.w := rfl
@[simp] theorem raise_scratch_q (e : ModbusException) (s : State) : (raise e s).scratch.q = s.scratch.q := rfl
@[simp] theorem raise_scratch_bc (e : ModbusException) (s : State) : (raise e s).scratch.bc = s.scratch.bc := rfl
@[simp] theorem raise_scratch_suppress (e : ModbusException) (s : State) : (raise e s).scratch.suppress = s.scratch.suppress := rfl
@[simp] theorem raise_scratch_wrOk (e : ModbusException) (s : State) : (raise e s).scratch.wrOk = s.scratch.wrOk := rfl
@[simp] theorem raise_scratch_verdict (e : ModbusException) (s : State) : (raise e s).scratch.verdict = exceptionOutcome e := rfl
@[simp] theorem raise_scratch_rFc (e : ModbusException) (s : State) : (raise e s).scratch.rFc = exceptionFc s.scratch.fFc := rfl
@[simp] theorem raise_scratch_rPayload (e : ModbusException) (s : State) : (raise e s).scratch.rPayload = [exceptionCode e] := rfl
@[simp] theorem raise_scratch_tx (e : ModbusException) (s : State) : (raise e s).scratch.tx = s.scratch.tx := rfl
@[simp] theorem raise_scratch_crc (e : ModbusException) (s : State) : (raise e s).scratch.crc = s.scratch.crc := rfl

/-! ### `latchRaw` -/

@[simp] theorem latchRaw_params (raw : List Byte) (s : State) : (latchRaw raw s).params = s.params := rfl
@[simp] theorem latchRaw_table (raw : List Byte) (s : State) : (latchRaw raw s).table = s.table := rfl
@[simp] theorem latchRaw_unitId (raw : List Byte) (s : State) : (latchRaw raw s).unitId = s.unitId := rfl
@[simp] theorem latchRaw_phase (raw : List Byte) (s : State) : (latchRaw raw s).phase = s.phase := rfl
@[simp] theorem latchRaw_outcome (raw : List Byte) (s : State) : (latchRaw raw s).outcome = s.outcome := rfl
@[simp] theorem latchRaw_replied (raw : List Byte) (s : State) : (latchRaw raw s).replied = s.replied := rfl
@[simp] theorem latchRaw_pending (raw : List Byte) (s : State) : (latchRaw raw s).pending = s.pending := rfl
@[simp] theorem latchRaw_sent (raw : List Byte) (s : State) : (latchRaw raw s).sent = s.sent := rfl
@[simp] theorem latchRaw_admOut (raw : List Byte) (s : State) : (latchRaw raw s).admOut = s.admOut := rfl
@[simp] theorem latchRaw_freeCount (raw : List Byte) (s : State) : (latchRaw raw s).freeCount = s.freeCount := rfl
@[simp] theorem latchRaw_scratch_raw (raw : List Byte) (s : State) : (latchRaw raw s).scratch.raw = raw := rfl
@[simp] theorem latchRaw_scratch_fAddr (raw : List Byte) (s : State) : (latchRaw raw s).scratch.fAddr = s.scratch.fAddr := rfl
@[simp] theorem latchRaw_scratch_fFc (raw : List Byte) (s : State) : (latchRaw raw s).scratch.fFc = s.scratch.fFc := rfl
@[simp] theorem latchRaw_scratch_fPayload (raw : List Byte) (s : State) : (latchRaw raw s).scratch.fPayload = s.scratch.fPayload := rfl
@[simp] theorem latchRaw_scratch_fCrc (raw : List Byte) (s : State) : (latchRaw raw s).scratch.fCrc = s.scratch.fCrc := rfl
@[simp] theorem latchRaw_scratch_w (raw : List Byte) (s : State) : (latchRaw raw s).scratch.w = s.scratch.w := rfl
@[simp] theorem latchRaw_scratch_q (raw : List Byte) (s : State) : (latchRaw raw s).scratch.q = s.scratch.q := rfl
@[simp] theorem latchRaw_scratch_bc (raw : List Byte) (s : State) : (latchRaw raw s).scratch.bc = s.scratch.bc := rfl
@[simp] theorem latchRaw_scratch_suppress (raw : List Byte) (s : State) : (latchRaw raw s).scratch.suppress = s.scratch.suppress := rfl
@[simp] theorem latchRaw_scratch_wrOk (raw : List Byte) (s : State) : (latchRaw raw s).scratch.wrOk = s.scratch.wrOk := rfl
@[simp] theorem latchRaw_scratch_verdict (raw : List Byte) (s : State) : (latchRaw raw s).scratch.verdict = s.scratch.verdict := rfl
@[simp] theorem latchRaw_scratch_rFc (raw : List Byte) (s : State) : (latchRaw raw s).scratch.rFc = s.scratch.rFc := rfl
@[simp] theorem latchRaw_scratch_rPayload (raw : List Byte) (s : State) : (latchRaw raw s).scratch.rPayload = s.scratch.rPayload := rfl
@[simp] theorem latchRaw_scratch_tx (raw : List Byte) (s : State) : (latchRaw raw s).scratch.tx = s.scratch.tx := rfl
@[simp] theorem latchRaw_scratch_crc (raw : List Byte) (s : State) : (latchRaw raw s).scratch.crc = s.scratch.crc := rfl

/-! ### `latchFrame` -/

@[simp] theorem latchFrame_params (f : Frame) (s : State) : (latchFrame f s).params = s.params := rfl
@[simp] theorem latchFrame_table (f : Frame) (s : State) : (latchFrame f s).table = s.table := rfl
@[simp] theorem latchFrame_unitId (f : Frame) (s : State) : (latchFrame f s).unitId = s.unitId := rfl
@[simp] theorem latchFrame_phase (f : Frame) (s : State) : (latchFrame f s).phase = .parsed := rfl
@[simp] theorem latchFrame_outcome (f : Frame) (s : State) : (latchFrame f s).outcome = s.outcome := rfl
@[simp] theorem latchFrame_replied (f : Frame) (s : State) : (latchFrame f s).replied = s.replied := rfl
@[simp] theorem latchFrame_pending (f : Frame) (s : State) : (latchFrame f s).pending = s.pending := rfl
@[simp] theorem latchFrame_sent (f : Frame) (s : State) : (latchFrame f s).sent = s.sent := rfl
@[simp] theorem latchFrame_admOut (f : Frame) (s : State) : (latchFrame f s).admOut = s.admOut := rfl
@[simp] theorem latchFrame_freeCount (f : Frame) (s : State) : (latchFrame f s).freeCount = s.freeCount := rfl
@[simp] theorem latchFrame_scratch_raw (f : Frame) (s : State) : (latchFrame f s).scratch.raw = s.scratch.raw := rfl
@[simp] theorem latchFrame_scratch_fAddr (f : Frame) (s : State) : (latchFrame f s).scratch.fAddr = f.addr := rfl
@[simp] theorem latchFrame_scratch_fFc (f : Frame) (s : State) : (latchFrame f s).scratch.fFc = f.fc := rfl
@[simp] theorem latchFrame_scratch_fPayload (f : Frame) (s : State) : (latchFrame f s).scratch.fPayload = f.payload := rfl
@[simp] theorem latchFrame_scratch_fCrc (f : Frame) (s : State) : (latchFrame f s).scratch.fCrc = f.crc := rfl
@[simp] theorem latchFrame_scratch_w (f : Frame) (s : State) : (latchFrame f s).scratch.w = s.scratch.w := rfl
@[simp] theorem latchFrame_scratch_q (f : Frame) (s : State) : (latchFrame f s).scratch.q = s.scratch.q := rfl
@[simp] theorem latchFrame_scratch_bc (f : Frame) (s : State) : (latchFrame f s).scratch.bc = s.scratch.bc := rfl
@[simp] theorem latchFrame_scratch_suppress (f : Frame) (s : State) : (latchFrame f s).scratch.suppress = s.scratch.suppress := rfl
@[simp] theorem latchFrame_scratch_wrOk (f : Frame) (s : State) : (latchFrame f s).scratch.wrOk = s.scratch.wrOk := rfl
@[simp] theorem latchFrame_scratch_verdict (f : Frame) (s : State) : (latchFrame f s).scratch.verdict = s.scratch.verdict := rfl
@[simp] theorem latchFrame_scratch_rFc (f : Frame) (s : State) : (latchFrame f s).scratch.rFc = s.scratch.rFc := rfl
@[simp] theorem latchFrame_scratch_rPayload (f : Frame) (s : State) : (latchFrame f s).scratch.rPayload = s.scratch.rPayload := rfl
@[simp] theorem latchFrame_scratch_tx (f : Frame) (s : State) : (latchFrame f s).scratch.tx = s.scratch.tx := rfl
@[simp] theorem latchFrame_scratch_crc (f : Frame) (s : State) : (latchFrame f s).scratch.crc = s.scratch.crc := rfl

/-! ### `latchFields` -/

@[simp] theorem latchFields_params (w q : Word) (s : State) : (latchFields w q s).params = s.params := rfl
@[simp] theorem latchFields_table (w q : Word) (s : State) : (latchFields w q s).table = s.table := rfl
@[simp] theorem latchFields_unitId (w q : Word) (s : State) : (latchFields w q s).unitId = s.unitId := rfl
@[simp] theorem latchFields_phase (w q : Word) (s : State) : (latchFields w q s).phase = s.phase := rfl
@[simp] theorem latchFields_outcome (w q : Word) (s : State) : (latchFields w q s).outcome = s.outcome := rfl
@[simp] theorem latchFields_replied (w q : Word) (s : State) : (latchFields w q s).replied = s.replied := rfl
@[simp] theorem latchFields_pending (w q : Word) (s : State) : (latchFields w q s).pending = s.pending := rfl
@[simp] theorem latchFields_sent (w q : Word) (s : State) : (latchFields w q s).sent = s.sent := rfl
@[simp] theorem latchFields_admOut (w q : Word) (s : State) : (latchFields w q s).admOut = s.admOut := rfl
@[simp] theorem latchFields_freeCount (w q : Word) (s : State) : (latchFields w q s).freeCount = s.freeCount := rfl
@[simp] theorem latchFields_scratch_raw (w q : Word) (s : State) : (latchFields w q s).scratch.raw = s.scratch.raw := rfl
@[simp] theorem latchFields_scratch_fAddr (w q : Word) (s : State) : (latchFields w q s).scratch.fAddr = s.scratch.fAddr := rfl
@[simp] theorem latchFields_scratch_fFc (w q : Word) (s : State) : (latchFields w q s).scratch.fFc = s.scratch.fFc := rfl
@[simp] theorem latchFields_scratch_fPayload (w q : Word) (s : State) : (latchFields w q s).scratch.fPayload = s.scratch.fPayload := rfl
@[simp] theorem latchFields_scratch_fCrc (w q : Word) (s : State) : (latchFields w q s).scratch.fCrc = s.scratch.fCrc := rfl
@[simp] theorem latchFields_scratch_w (w q : Word) (s : State) : (latchFields w q s).scratch.w = w := rfl
@[simp] theorem latchFields_scratch_q (w q : Word) (s : State) : (latchFields w q s).scratch.q = q := rfl
@[simp] theorem latchFields_scratch_bc (w q : Word) (s : State) : (latchFields w q s).scratch.bc = s.scratch.bc := rfl
@[simp] theorem latchFields_scratch_suppress (w q : Word) (s : State) : (latchFields w q s).scratch.suppress = s.scratch.suppress := rfl
@[simp] theorem latchFields_scratch_wrOk (w q : Word) (s : State) : (latchFields w q s).scratch.wrOk = s.scratch.wrOk := rfl
@[simp] theorem latchFields_scratch_verdict (w q : Word) (s : State) : (latchFields w q s).scratch.verdict = s.scratch.verdict := rfl
@[simp] theorem latchFields_scratch_rFc (w q : Word) (s : State) : (latchFields w q s).scratch.rFc = s.scratch.rFc := rfl
@[simp] theorem latchFields_scratch_rPayload (w q : Word) (s : State) : (latchFields w q s).scratch.rPayload = s.scratch.rPayload := rfl
@[simp] theorem latchFields_scratch_tx (w q : Word) (s : State) : (latchFields w q s).scratch.tx = s.scratch.tx := rfl
@[simp] theorem latchFields_scratch_crc (w q : Word) (s : State) : (latchFields w q s).scratch.crc = s.scratch.crc := rfl

/-! ### `latchByteCount` -/

@[simp] theorem latchByteCount_params (bc : Byte) (s : State) : (latchByteCount bc s).params = s.params := rfl
@[simp] theorem latchByteCount_table (bc : Byte) (s : State) : (latchByteCount bc s).table = s.table := rfl
@[simp] theorem latchByteCount_unitId (bc : Byte) (s : State) : (latchByteCount bc s).unitId = s.unitId := rfl
@[simp] theorem latchByteCount_phase (bc : Byte) (s : State) : (latchByteCount bc s).phase = s.phase := rfl
@[simp] theorem latchByteCount_outcome (bc : Byte) (s : State) : (latchByteCount bc s).outcome = s.outcome := rfl
@[simp] theorem latchByteCount_replied (bc : Byte) (s : State) : (latchByteCount bc s).replied = s.replied := rfl
@[simp] theorem latchByteCount_pending (bc : Byte) (s : State) : (latchByteCount bc s).pending = s.pending := rfl
@[simp] theorem latchByteCount_sent (bc : Byte) (s : State) : (latchByteCount bc s).sent = s.sent := rfl
@[simp] theorem latchByteCount_admOut (bc : Byte) (s : State) : (latchByteCount bc s).admOut = s.admOut := rfl
@[simp] theorem latchByteCount_freeCount (bc : Byte) (s : State) : (latchByteCount bc s).freeCount = s.freeCount := rfl
@[simp] theorem latchByteCount_scratch_raw (bc : Byte) (s : State) : (latchByteCount bc s).scratch.raw = s.scratch.raw := rfl
@[simp] theorem latchByteCount_scratch_fAddr (bc : Byte) (s : State) : (latchByteCount bc s).scratch.fAddr = s.scratch.fAddr := rfl
@[simp] theorem latchByteCount_scratch_fFc (bc : Byte) (s : State) : (latchByteCount bc s).scratch.fFc = s.scratch.fFc := rfl
@[simp] theorem latchByteCount_scratch_fPayload (bc : Byte) (s : State) : (latchByteCount bc s).scratch.fPayload = s.scratch.fPayload := rfl
@[simp] theorem latchByteCount_scratch_fCrc (bc : Byte) (s : State) : (latchByteCount bc s).scratch.fCrc = s.scratch.fCrc := rfl
@[simp] theorem latchByteCount_scratch_w (bc : Byte) (s : State) : (latchByteCount bc s).scratch.w = s.scratch.w := rfl
@[simp] theorem latchByteCount_scratch_q (bc : Byte) (s : State) : (latchByteCount bc s).scratch.q = s.scratch.q := rfl
@[simp] theorem latchByteCount_scratch_bc (bc : Byte) (s : State) : (latchByteCount bc s).scratch.bc = bc := rfl
@[simp] theorem latchByteCount_scratch_suppress (bc : Byte) (s : State) : (latchByteCount bc s).scratch.suppress = s.scratch.suppress := rfl
@[simp] theorem latchByteCount_scratch_wrOk (bc : Byte) (s : State) : (latchByteCount bc s).scratch.wrOk = s.scratch.wrOk := rfl
@[simp] theorem latchByteCount_scratch_verdict (bc : Byte) (s : State) : (latchByteCount bc s).scratch.verdict = s.scratch.verdict := rfl
@[simp] theorem latchByteCount_scratch_rFc (bc : Byte) (s : State) : (latchByteCount bc s).scratch.rFc = s.scratch.rFc := rfl
@[simp] theorem latchByteCount_scratch_rPayload (bc : Byte) (s : State) : (latchByteCount bc s).scratch.rPayload = s.scratch.rPayload := rfl
@[simp] theorem latchByteCount_scratch_tx (bc : Byte) (s : State) : (latchByteCount bc s).scratch.tx = s.scratch.tx := rfl
@[simp] theorem latchByteCount_scratch_crc (bc : Byte) (s : State) : (latchByteCount bc s).scratch.crc = s.scratch.crc := rfl

/-! ### `executeRead` -/

@[simp] theorem executeRead_params (data : State → List Byte) (s : State) : (executeRead data s).params = s.params := rfl
@[simp] theorem executeRead_table (data : State → List Byte) (s : State) : (executeRead data s).table = s.table := rfl
@[simp] theorem executeRead_unitId (data : State → List Byte) (s : State) : (executeRead data s).unitId = s.unitId := rfl
@[simp] theorem executeRead_phase (data : State → List Byte) (s : State) : (executeRead data s).phase = .executed := rfl
@[simp] theorem executeRead_outcome (data : State → List Byte) (s : State) : (executeRead data s).outcome = s.outcome := rfl
@[simp] theorem executeRead_replied (data : State → List Byte) (s : State) : (executeRead data s).replied = s.replied := rfl
@[simp] theorem executeRead_pending (data : State → List Byte) (s : State) : (executeRead data s).pending = s.pending := rfl
@[simp] theorem executeRead_sent (data : State → List Byte) (s : State) : (executeRead data s).sent = s.sent := rfl
@[simp] theorem executeRead_admOut (data : State → List Byte) (s : State) : (executeRead data s).admOut = s.admOut := rfl
@[simp] theorem executeRead_freeCount (data : State → List Byte) (s : State) : (executeRead data s).freeCount = s.freeCount := rfl
@[simp] theorem executeRead_scratch_raw (data : State → List Byte) (s : State) : (executeRead data s).scratch.raw = s.scratch.raw := rfl
@[simp] theorem executeRead_scratch_fAddr (data : State → List Byte) (s : State) : (executeRead data s).scratch.fAddr = s.scratch.fAddr := rfl
@[simp] theorem executeRead_scratch_fFc (data : State → List Byte) (s : State) : (executeRead data s).scratch.fFc = s.scratch.fFc := rfl
@[simp] theorem executeRead_scratch_fPayload (data : State → List Byte) (s : State) : (executeRead data s).scratch.fPayload = s.scratch.fPayload := rfl
@[simp] theorem executeRead_scratch_fCrc (data : State → List Byte) (s : State) : (executeRead data s).scratch.fCrc = s.scratch.fCrc := rfl
@[simp] theorem executeRead_scratch_w (data : State → List Byte) (s : State) : (executeRead data s).scratch.w = s.scratch.w := rfl
@[simp] theorem executeRead_scratch_q (data : State → List Byte) (s : State) : (executeRead data s).scratch.q = s.scratch.q := rfl
@[simp] theorem executeRead_scratch_bc (data : State → List Byte) (s : State) : (executeRead data s).scratch.bc = s.scratch.bc := rfl
@[simp] theorem executeRead_scratch_suppress (data : State → List Byte) (s : State) : (executeRead data s).scratch.suppress = s.scratch.suppress := rfl
@[simp] theorem executeRead_scratch_wrOk (data : State → List Byte) (s : State) : (executeRead data s).scratch.wrOk = true := rfl
@[simp] theorem executeRead_scratch_verdict (data : State → List Byte) (s : State) : (executeRead data s).scratch.verdict = s.scratch.verdict := rfl
@[simp] theorem executeRead_scratch_rFc (data : State → List Byte) (s : State) : (executeRead data s).scratch.rFc = s.scratch.rFc := rfl
@[simp] theorem executeRead_scratch_rPayload (data : State → List Byte) (s : State) : (executeRead data s).scratch.rPayload = data s := rfl
@[simp] theorem executeRead_scratch_tx (data : State → List Byte) (s : State) : (executeRead data s).scratch.tx = s.scratch.tx := rfl
@[simp] theorem executeRead_scratch_crc (data : State → List Byte) (s : State) : (executeRead data s).scratch.crc = s.scratch.crc := rfl

/-! ### `executeWrite` -/

@[simp] theorem executeWrite_params (write : State → Memory × Bool) (s : State) : (executeWrite write s).params = s.params := rfl
@[simp] theorem executeWrite_table (write : State → Memory × Bool) (s : State) : (executeWrite write s).table = (write s).1 := rfl
@[simp] theorem executeWrite_unitId (write : State → Memory × Bool) (s : State) : (executeWrite write s).unitId = s.unitId := rfl
@[simp] theorem executeWrite_phase (write : State → Memory × Bool) (s : State) : (executeWrite write s).phase = .executed := rfl
@[simp] theorem executeWrite_outcome (write : State → Memory × Bool) (s : State) : (executeWrite write s).outcome = s.outcome := rfl
@[simp] theorem executeWrite_replied (write : State → Memory × Bool) (s : State) : (executeWrite write s).replied = s.replied := rfl
@[simp] theorem executeWrite_pending (write : State → Memory × Bool) (s : State) : (executeWrite write s).pending = s.pending := rfl
@[simp] theorem executeWrite_sent (write : State → Memory × Bool) (s : State) : (executeWrite write s).sent = s.sent := rfl
@[simp] theorem executeWrite_admOut (write : State → Memory × Bool) (s : State) : (executeWrite write s).admOut = s.admOut := rfl
@[simp] theorem executeWrite_freeCount (write : State → Memory × Bool) (s : State) : (executeWrite write s).freeCount = s.freeCount := rfl
@[simp] theorem executeWrite_scratch_raw (write : State → Memory × Bool) (s : State) : (executeWrite write s).scratch.raw = s.scratch.raw := rfl
@[simp] theorem executeWrite_scratch_fAddr (write : State → Memory × Bool) (s : State) : (executeWrite write s).scratch.fAddr = s.scratch.fAddr := rfl
@[simp] theorem executeWrite_scratch_fFc (write : State → Memory × Bool) (s : State) : (executeWrite write s).scratch.fFc = s.scratch.fFc := rfl
@[simp] theorem executeWrite_scratch_fPayload (write : State → Memory × Bool) (s : State) : (executeWrite write s).scratch.fPayload = s.scratch.fPayload := rfl
@[simp] theorem executeWrite_scratch_fCrc (write : State → Memory × Bool) (s : State) : (executeWrite write s).scratch.fCrc = s.scratch.fCrc := rfl
@[simp] theorem executeWrite_scratch_w (write : State → Memory × Bool) (s : State) : (executeWrite write s).scratch.w = s.scratch.w := rfl
@[simp] theorem executeWrite_scratch_q (write : State → Memory × Bool) (s : State) : (executeWrite write s).scratch.q = s.scratch.q := rfl
@[simp] theorem executeWrite_scratch_bc (write : State → Memory × Bool) (s : State) : (executeWrite write s).scratch.bc = s.scratch.bc := rfl
@[simp] theorem executeWrite_scratch_suppress (write : State → Memory × Bool) (s : State) : (executeWrite write s).scratch.suppress = s.scratch.suppress := rfl
@[simp] theorem executeWrite_scratch_wrOk (write : State → Memory × Bool) (s : State) : (executeWrite write s).scratch.wrOk = (write s).2 := rfl
@[simp] theorem executeWrite_scratch_verdict (write : State → Memory × Bool) (s : State) : (executeWrite write s).scratch.verdict = s.scratch.verdict := rfl
@[simp] theorem executeWrite_scratch_rFc (write : State → Memory × Bool) (s : State) : (executeWrite write s).scratch.rFc = s.scratch.rFc := rfl
@[simp] theorem executeWrite_scratch_rPayload (write : State → Memory × Bool) (s : State) : (executeWrite write s).scratch.rPayload = s.scratch.rPayload := rfl
@[simp] theorem executeWrite_scratch_tx (write : State → Memory × Bool) (s : State) : (executeWrite write s).scratch.tx = s.scratch.tx := rfl
@[simp] theorem executeWrite_scratch_crc (write : State → Memory × Bool) (s : State) : (executeWrite write s).scratch.crc = s.scratch.crc := rfl

/-! ### `resetBlock` -/

@[simp] theorem resetBlock_params (c : Byte) (s : State) : (resetBlock c s).params = s.params := rfl
@[simp] theorem resetBlock_table (c : Byte) (s : State) : (resetBlock c s).table = [] := rfl
@[simp] theorem resetBlock_unitId (c : Byte) (s : State) : (resetBlock c s).unitId = c := rfl
@[simp] theorem resetBlock_phase (c : Byte) (s : State) : (resetBlock c s).phase = .awaitingFrame := rfl
@[simp] theorem resetBlock_outcome (c : Byte) (s : State) : (resetBlock c s).outcome = .none := rfl
@[simp] theorem resetBlock_replied (c : Byte) (s : State) : (resetBlock c s).replied = false := rfl
@[simp] theorem resetBlock_scratch (c : Byte) (s : State) : (resetBlock c s).scratch = Scratch.reset := rfl
@[simp] theorem resetBlock_pending (c : Byte) (s : State) : (resetBlock c s).pending = s.pending := rfl
@[simp] theorem resetBlock_sent (c : Byte) (s : State) : (resetBlock c s).sent = s.sent := rfl
@[simp] theorem resetBlock_admOut (c : Byte) (s : State) : (resetBlock c s).admOut = s.admOut := rfl
@[simp] theorem resetBlock_freeCount (c : Byte) (s : State) : (resetBlock c s).freeCount = s.freeCount := rfl

end Sys2Proof.Machine
end

