-- ==== Sys2Proof/Laws/Ops.lean ====
section
/-! SUPPORT. One lemma per shared operation, saying once everything it can do. -/

namespace Sys2Proof.Machine

/-! ### The two ends of a cycle -/

/-- The state in which a cycle that dispatched a request for address byte `u` ends: the table, the outcome, and the answer
with function code `fc` and payload `pl`, are as given, and the scratch state is some `sc` with the `suppress` of `u`. -/
def ended (s : State) (sc : Scratch) (m : Memory) (u : Byte) (o : CycleOutcome) (fc : Byte) (pl : List Byte) : State :=
  { s with
    phase := .awaitingFrame, table := m, outcome := o, scratch := { sc with suppress := suppressFor u }
    replied := decide (u ≠ 0x00#8)
    sent := if u = 0x00#8 then s.sent else s.sent ++ [serialize s.unitId fc pl] }

/-- `ended` says how the cycle answered (R164). -/
theorem ended_answered (s : State) (sc : Scratch) (m : Memory) (u : Byte) (o : CycleOutcome) (fc : Byte)
    (pl : List Byte) : State.Answered s (ended s sc m u o fc pl) u o fc pl := by
  refine ⟨rfl, ?_⟩
  by_cases h : u = 0x00#8 <;> simp [ended, h]

/-- `ended` keeps what no cycle may touch (R168). -/
theorem ended_keeps (s : State) (sc : Scratch) (m : Memory) (u : Byte) (o : CycleOutcome) (fc : Byte)
    (pl : List Byte) : State.CycleKeeps s (ended s sc m u o fc pl) := ⟨rfl, rfl, rfl, rfl, rfl⟩

@[simp] theorem ended_table (s : State) (sc : Scratch) (m : Memory) (u : Byte) (o : CycleOutcome) (fc : Byte)
    (pl : List Byte) : (ended s sc m u o fc pl).table = m := rfl

@[simp] theorem ended_freeCount (s : State) (sc : Scratch) (m : Memory) (u : Byte) (o : CycleOutcome) (fc : Byte)
    (pl : List Byte) : (ended s sc m u o fc pl).freeCount = s.freeCount := rfl

@[simp] theorem ended_scratch (s : State) (sc : Scratch) (m : Memory) (u : Byte) (o : CycleOutcome) (fc : Byte)
    (pl : List Byte) : (ended s sc m u o fc pl).scratch = { sc with suppress := suppressFor u } := rfl

/-- `x` is a state in the middle of a cycle that began at `s`: a cycle writes the table, its phase and its scratch state before
it ends, and what the outcome registers hold does not matter. -/
abbrev Within (s x : State) : Prop :=
  x.params = s.params ∧ x.unitId = s.unitId ∧ x.pending = s.pending ∧ x.sent = s.sent ∧ x.admOut = s.admOut ∧
  x.freeCount = s.freeCount

/-! ### The edges up to `AddressChecked` -/

/-- The state in phase `AddressChecked` of a request that has passed the CRC and the address check (R155). -/
def checked (r : Request) (s : State) : State :=
  { s with
    phase := .addressChecked
    scratch :=
      { s.scratch with
        raw := serialize r.addr r.fc r.payload, fAddr := r.addr, fFc := r.fc, fPayload := r.payload
        fCrc := bodyCrc r.addr r.fc r.payload, crc := bodyCrc r.addr r.fc r.payload
        suppress := suppressFor r.addr } }

/-- The scratch state of a request that has been received and is for another peripheral (R155). -/
def received (r : Request) (s : State) : Scratch :=
  { s.scratch with
    raw := serialize r.addr r.fc r.payload, fAddr := r.addr, fFc := r.fc, fPayload := r.payload
    fCrc := bodyCrc r.addr r.fc r.payload, crc := bodyCrc r.addr r.fc r.payload }

/-- A cycle is over when `AwaitingFrame` is reached (R167). -/
theorem finish_awaiting (r : Request) (n : Nat) {s : State} (h : s.phase = .awaitingFrame) : finish r n s = s := by
  cases n <;> simp [finish, h]

/-- One more edge (R150). -/
theorem finish_step (r : Request) (n : Nat) {s : State} (h : s.phase ≠ .awaitingFrame) :
    finish r (n + 1) s = finish r n (edge r s) := by
  simp [finish, h]

/-- The first edge of a cycle (R153): the frame is received and split. -/
theorem edge_awaiting (r : Request) {s : State} (h : s.phase = .awaitingFrame) :
    edge r s = { s with phase := .parsed, scratch := { received r s with crc := s.scratch.crc } } := by
  simp [edge, h, latchFrame, latchRaw, Request.frame, received]

/-- A request for this block passes the address check (R155). -/
theorem runRequest_takes {s : State} {r : Request} (h : State.Takes s r.addr) :
    runRequest r s = finish r 4 (r.dispatch (checked r s)) := by
  obtain ⟨hp, hu⟩ := h
  have hu' : r.addr = Config.broadcast ∨ r.addr = s.unitId := hu
  have h2 : addressEdge { s with phase := .parsed, scratch := { received r s with crc := s.scratch.crc } } =
      checked r s := by
    simp [addressEdge, hu', checked, received]
  rw [runRequest, edge_awaiting r hp, finish_step r 5 (by simp)]
  simp only [edge]
  rw [h2, finish_step r 4 (by simp [checked])]
  rfl

/-- A request for another peripheral is dropped (R155). -/
theorem runRequest_other {s : State} {r : Request} (hp : s.phase = .awaitingFrame) (h0 : r.addr ≠ 0x00#8)
    (hu : r.addr ≠ s.unitId) :
    runRequest r s = { s with
      phase := .awaitingFrame, outcome := .notRecipient, replied := false, scratch := received r s } := by
  have hu' : ¬(r.addr = Config.broadcast ∨ r.addr = s.unitId) := by simpa [Config.broadcast] using ⟨h0, hu⟩
  have h2 : addressEdge { s with phase := .parsed, scratch := { received r s with crc := s.scratch.crc } } =
      { s with phase := .awaitingFrame, outcome := .notRecipient, replied := false, scratch := received r s } := by
    simp [addressEdge, hu', drop, received]
  rw [runRequest, edge_awaiting r hp, finish_step r 5 (by simp)]
  simp only [edge]
  rw [h2, finish_awaiting r 5 rfl]

/-- From `ResponseReady` the cycle responds and ends (R164). -/
theorem finish_responseReady (r : Request) (n : Nat) {s : State} (h : s.phase = .responseReady) :
    finish r (n + 1) s = respond s := by
  rw [finish_step r n (by simp [h]), show edge r s = respond s by simp [edge, h], finish_awaiting]
  unfold respond; split <;> rfl

/-- What `respond` makes of a Result (R164), given the address byte whose `suppress` the address check has set. -/
theorem respond_result {s x : State} {u : Byte} (hx : Within s x) (hs : x.scratch.suppress = suppressFor u) :
    ∃ sc, respond x = ended s sc x.table u x.scratch.verdict x.scratch.rFc x.scratch.rPayload ∧
      sc.wrOk = x.scratch.wrOk := by
  obtain ⟨h1, h2, h3, h4, h5, h6⟩ := hx
  have hs' : x.scratch.suppress = decide (u = 0x00#8) := hs
  by_cases h : u = 0x00#8
  · refine ⟨x.scratch, ?_, rfl⟩
    have hsc : ({ x.scratch with suppress := suppressFor u } : Scratch) = x.scratch := by rw [← hs]
    simp only [respond, ended, hs', h, decide_true, if_true, ← h1, h2, ← h3, h4, ← h5, ← h6]
    rw [← h, hsc]
    simp
  · refine ⟨{ x.scratch with
      tx := serialize x.unitId x.scratch.rFc x.scratch.rPayload
      crc := bodyCrc x.unitId x.scratch.rFc x.scratch.rPayload }, ?_, rfl⟩
    simp [respond, ended, hs', h, ← hs, ← h1, h2, ← h3, h4, ← h5, ← h6]

/-! ### Answers on the edge from `AddressChecked` -/

/-- Raising an exception ends the cycle with its response (R204). -/
theorem finish_raise {s x : State} {u : Byte} (r : Request) (n : Nat) (e : ModbusException)
    (hx : Within s x)
    (hs : x.scratch.suppress = suppressFor u) :
    ∃ sc, finish r (n + 1) (raise e x) =
      ended s sc x.table u (exceptionOutcome e) (exceptionFc x.scratch.fFc) [exceptionCode e] ∧
      sc.wrOk = x.scratch.wrOk := by
  rw [finish_responseReady r n (s := raise e x) rfl]
  exact respond_result (x := raise e x) hx hs

/-- An unsupported function code (R189). -/
theorem runRequest_unsupported {s : State} {u fc : Byte} {pl : List Byte} (h : State.Takes s u) :
    ∃ sc, runRequest (unsupportedRequest u fc pl) s =
      ended s sc s.table u .illegalFunction (exceptionFc fc) [0x01#8] := by
  rw [runRequest_takes (r := unsupportedRequest u fc pl) h]
  obtain ⟨sc, h', _⟩ := finish_raise (s := s) (x := checked (unsupportedRequest u fc pl) s) (u := u)
    (unsupportedRequest u fc pl) 3 .illegalFunction ⟨rfl, rfl, rfl, rfl, rfl, rfl⟩ rfl
  exact ⟨sc, h'⟩

/-- The Result the extension handler's answer stands for (R190). -/
def extensionAnswer (code : Byte) : ExtReply → CycleOutcome × Byte × List Byte
  | .normal pl => (.normal, code, pl)
  | .exception e => (exceptionOutcome e, exceptionFc code, [exceptionCode e])

/-- An extension code (R190): the handler's answer is the Result, and one free value is used. -/
theorem runRequest_extension {s : State} {u code : Byte} {pl : List Byte} (h : State.Takes s u) :
    ∃ sc, runRequest (extensionRequest u code pl) s =
      { ended s sc s.table u (extensionAnswer code (Config.extHandler s.freeCount code pl)).1
          (extensionAnswer code (Config.extHandler s.freeCount code pl)).2.1
          (extensionAnswer code (Config.extHandler s.freeCount code pl)).2.2 with
        freeCount := s.freeCount + 1 } := by
  rw [runRequest_takes (r := extensionRequest u code pl) h]
  show ∃ sc, finish _ 4 (extensionResult code (Config.extHandler s.freeCount code pl) _) = _
  cases Config.extHandler s.freeCount code pl with
  | normal p =>
    rw [extensionResult, finish_responseReady _ 3 rfl]
    obtain ⟨sc, h', _⟩ := respond_result (s := { s with freeCount := s.freeCount + 1 })
      (x := setResult .normal code p
        { checked (extensionRequest u code pl) s with freeCount := s.freeCount + 1 })
      (u := u) ⟨rfl, rfl, rfl, rfl, rfl, rfl⟩ rfl
    exact ⟨sc, h'⟩
  | exception e =>
    obtain ⟨sc, h', _⟩ := finish_raise (s := { s with freeCount := s.freeCount + 1 })
      (x := { checked (extensionRequest u code pl) s with freeCount := s.freeCount + 1 }) (u := u)
      (extensionRequest u code pl) 3 e ⟨rfl, rfl, rfl, rfl, rfl, rfl⟩ rfl
    exact ⟨sc, h'⟩

/-! ### Supported function codes -/

/-- A supported request reaches its checks (R157). -/
theorem runRequest_supported {s : State} {u fc : Byte} {pl : List Byte} {v e c : State → State} (h : State.Takes s u) :
    runRequest (supportedRequest u fc pl v e c) s =
      finish (supportedRequest u fc pl v e c) 3
        (v (enter .functionChecked (checked (supportedRequest u fc pl v e c) s))) := by
  rw [runRequest_takes (r := supportedRequest u fc pl v e c) h]
  rfl

/-- From `Executed`: `DeviceFailure` when `wr_ok` is false, else the normal Result (R163, R164). -/
theorem finish_conclude {s x : State} {u : Byte} (r : Request) (payload : State → List Byte)
    (hr : r.conclude = conclude payload) (hp : x.phase = .executed)
    (hx : Within s x)
    (hs : x.scratch.suppress = suppressFor u) :
    ∃ sc, finish r 2 x =
      (if x.scratch.wrOk then ended s sc x.table u .normal x.scratch.fFc (payload x)
       else ended s sc x.table u .deviceFailure (exceptionFc x.scratch.fFc) [0x04#8]) ∧
      sc.wrOk = x.scratch.wrOk := by
  rw [finish_step r 1 (by simp [hp]), show edge r x = conclude payload x by simp [edge, hp, hr]]
  unfold conclude
  by_cases hw : x.scratch.wrOk = true
  · simp only [hw, if_true]
    rw [finish_responseReady r 0 rfl]
    obtain ⟨sc, h1, h2⟩ := respond_result (s := s) (x := setResult .normal x.scratch.fFc (payload x) x) (u := u)
      hx hs
    exact ⟨sc, h1, by rw [h2]; exact hw⟩
  · simp only [hw, Bool.false_eq_true, if_false]
    obtain ⟨sc, h1, h2⟩ := finish_raise (s := s) (x := x) (u := u) r 0 .deviceFailure hx hs
    exact ⟨sc, h1, by rw [h2]; simpa using hw⟩

/-- The outcome, the function code of the answer and its payload for an exception (R204). -/
def exceptionAnswer (fc : Byte) (e : ModbusException) : CycleOutcome × Byte × List Byte :=
  (exceptionOutcome e, exceptionFc fc, [exceptionCode e])

/-- How a range read answers (R181 to R184). -/
def readAnswer (p : Params) (m : Memory) (fc : Byte) (o : AqOperands) (bound : Nat) (k : Kind)
    (pack : Memory → Nat → Nat → List Byte) : CycleOutcome × Byte × List Byte :=
  match o with
  | .badLength _ => exceptionAnswer fc .illegalValue
  | .fields w q =>
    match firstFailure (amountOk bound q) (rangeAddressOk w q) with
    | some e => exceptionAnswer fc e
    | none =>
      (.normal, fc, countPrefix p (pack m (translate k w) q.toNat) ++ pack m (translate k w) q.toNat)

/-- A range read (R181 to R184): the table is unchanged, and every form ends with its answer. -/
theorem runRequest_read {s : State} {u fc : Byte} {o : AqOperands} {bound : Nat} {k : Kind}
    {pack : Memory → Nat → Nat → List Byte} (h : State.Takes s u) :
    ∃ sc, runRequest (readRequest u fc o bound k pack) s =
      ended s sc s.table u (readAnswer s.params s.table fc o bound k pack).1
        (readAnswer s.params s.table fc o bound k pack).2.1 (readAnswer s.params s.table fc o bound k pack).2.2 ∧
      ((readAnswer s.params s.table fc o bound k pack).1 = .normal → sc.wrOk = true) := by
  unfold readRequest
  rw [runRequest_supported h]
  set r := supportedRequest _ _ _ _ _ _ with hr
  cases o with
  | badLength p =>
    obtain ⟨sc, h1, _⟩ := finish_raise (s := s) (x := enter .functionChecked (checked r s)) (u := u) r 2 .illegalValue
      ⟨rfl, rfl, rfl, rfl, rfl, rfl⟩ rfl
    exact ⟨sc, h1, by simp [readAnswer, exceptionAnswer, exceptionOutcome]⟩
  | fields w q =>
    simp only [validateAq, readAnswer]
    cases hff : firstFailure (amountOk bound q) (rangeAddressOk w q) with
    | some e =>
      obtain ⟨sc, h1, _⟩ := finish_raise (s := s) (x := latchFields w q (enter .functionChecked (checked r s)))
        (u := u) r 2 e ⟨rfl, rfl, rfl, rfl, rfl, rfl⟩ rfl
      exact ⟨sc, h1, by cases e <;> simp [exceptionAnswer, exceptionOutcome]⟩
    | none =>
      simp only [validated]
      rw [finish_step r 2 (by simp)]
      obtain ⟨sc, h1, h2⟩ := finish_conclude (s := s) (u := u)
        (x := edge r (enter .rangeValidated (latchFields w q (enter .functionChecked (checked r s)))))
        r readPayload rfl rfl ⟨rfl, rfl, rfl, rfl, rfl, rfl⟩ rfl
      exact ⟨sc, h1, fun _ => h2⟩

/-- How a single write answers, with the table it leaves (R185, R186). -/
def writeAnswer (cap : Nat) (m : Memory) (fc : Byte) (o : AqOperands) (valueOk : Word → Bool) (k : Kind)
    (stored : Word → Word) : Memory × CycleOutcome × Byte × List Byte :=
  match o with
  | .badLength _ => (m, exceptionAnswer fc .illegalValue)
  | .fields w q =>
    match firstFailure (valueOk q) (singleAddressOk w) with
    | some e => (m, exceptionAnswer fc e)
    | none =>
      ((Memory.verifyAndSet cap m (translate k w) (stored q)).1,
        if (Memory.verifyAndSet cap m (translate k w) (stored q)).2 then
          (.normal, fc, [hiByte w, loByte w, hiByte q, loByte q])
        else exceptionAnswer fc .deviceFailure)

/-- A single write (R185, R186): every form ends with its answer. -/
theorem runRequest_write {s : State} {u fc : Byte} {o : AqOperands} {valueOk : Word → Bool} {k : Kind}
    {stored : Word → Word} (h : State.Takes s u) :
    ∃ sc, runRequest (writeRequest u fc o valueOk k stored) s =
      ended s sc (writeAnswer s.params.tableCap s.table fc o valueOk k stored).1 u
        (writeAnswer s.params.tableCap s.table fc o valueOk k stored).2.1
        (writeAnswer s.params.tableCap s.table fc o valueOk k stored).2.2.1
        (writeAnswer s.params.tableCap s.table fc o valueOk k stored).2.2.2 ∧
      ((writeAnswer s.params.tableCap s.table fc o valueOk k stored).2.1 = .normal → sc.wrOk = true) ∧
      ((writeAnswer s.params.tableCap s.table fc o valueOk k stored).2.1 = .deviceFailure → sc.wrOk = false) := by
  unfold writeRequest
  rw [runRequest_supported h]
  set r := supportedRequest _ _ _ _ _ _ with hr
  cases o with
  | badLength p =>
    obtain ⟨sc, h1, _⟩ := finish_raise (s := s) (x := enter .functionChecked (checked r s)) (u := u) r 2 .illegalValue
      ⟨rfl, rfl, rfl, rfl, rfl, rfl⟩ rfl
    exact ⟨sc, h1, by simp [writeAnswer, exceptionAnswer, exceptionOutcome]⟩
  | fields w q =>
    simp only [validateAq, writeAnswer]
    cases hff : firstFailure (valueOk q) (singleAddressOk w) with
    | some e =>
      obtain ⟨sc, h1, _⟩ := finish_raise (s := s) (x := latchFields w q (enter .functionChecked (checked r s)))
        (u := u) r 2 e ⟨rfl, rfl, rfl, rfl, rfl, rfl⟩ rfl
      refine ⟨sc, h1, ?_⟩
      unfold firstFailure at hff
      split at hff
      · split at hff
        · cases hff
        · cases hff; simp [exceptionAnswer, exceptionOutcome]
      · cases hff; simp [exceptionAnswer, exceptionOutcome]
    | none =>
      simp only [validated]
      rw [finish_step r 2 (by simp)]
      obtain ⟨sc, h1, h2⟩ := finish_conclude (s := s) (u := u)
        (x := edge r (enter .rangeValidated (latchFields w q (enter .functionChecked (checked r s)))))
        r writePayload rfl rfl ⟨rfl, rfl, rfl, rfl, rfl, rfl⟩ rfl
      by_cases hv : (Memory.verifyAndSet s.params.tableCap s.table (translate k w) (stored q)).2 = true
      · refine ⟨sc, h1.trans ?_, fun _ => h2.trans hv, fun hd => ?_⟩
        · show (if (Memory.verifyAndSet s.params.tableCap s.table (translate k w) (stored q)).2 = true then _ else _) = _
          simp only [hv, if_true]; rfl
        · simp [hv] at hd
      · refine ⟨sc, h1.trans ?_, fun hd => ?_, fun _ => h2.trans (Bool.eq_false_iff.2 hv)⟩
        · show (if (Memory.verifyAndSet s.params.tableCap s.table (translate k w) (stored q)).2 = true then _ else _) = _
          simp only [hv, Bool.false_eq_true, if_false]; rfl
        · simp [hv, exceptionAnswer, exceptionOutcome] at hd

/-- How a multiple write answers, with the table it leaves (R187, R188). -/
def writeManyAnswer (cap : Nat) (m : Memory) (fc : Byte) (o : AqbdOperands) (valueOk : Word → Byte → List Byte → Bool)
    (k : Kind) (unpack : List Byte → Nat → List Word) : Memory × CycleOutcome × Byte × List Byte :=
  match o with
  | .short _ => (m, exceptionAnswer fc .illegalValue)
  | .fields w q bc data =>
    match firstFailure (valueOk q bc data) (rangeAddressOk w q) with
    | some e => (m, exceptionAnswer fc e)
    | none =>
      ((Memory.writeRange cap m (translate k w) (unpack data q.toNat)).1,
        if (Memory.writeRange cap m (translate k w) (unpack data q.toNat)).2 then
          (.normal, fc, [hiByte w, loByte w, hiByte q, loByte q])
        else exceptionAnswer fc .deviceFailure)

/-- A multiple write (R187, R188): every form ends with its answer. -/
theorem runRequest_writeMany {s : State} {u fc : Byte} {o : AqbdOperands}
    {valueOk : Word → Byte → List Byte → Bool} {k : Kind} {unpack : List Byte → Nat → List Word}
    (h : State.Takes s u) :
    ∃ sc, runRequest (writeManyRequest u fc o valueOk k unpack) s =
      ended s sc (writeManyAnswer s.params.tableCap s.table fc o valueOk k unpack).1 u
        (writeManyAnswer s.params.tableCap s.table fc o valueOk k unpack).2.1
        (writeManyAnswer s.params.tableCap s.table fc o valueOk k unpack).2.2.1
        (writeManyAnswer s.params.tableCap s.table fc o valueOk k unpack).2.2.2 ∧
      ((writeManyAnswer s.params.tableCap s.table fc o valueOk k unpack).2.1 = .normal → sc.wrOk = true) ∧
      ((writeManyAnswer s.params.tableCap s.table fc o valueOk k unpack).2.1 = .deviceFailure → sc.wrOk = false) := by
  unfold writeManyRequest
  rw [runRequest_supported h]
  set r := supportedRequest _ _ _ _ _ _ with hr
  cases o with
  | short p =>
    obtain ⟨sc, h1, _⟩ := finish_raise (s := s) (x := enter .functionChecked (checked r s)) (u := u) r 2 .illegalValue
      ⟨rfl, rfl, rfl, rfl, rfl, rfl⟩ rfl
    exact ⟨sc, h1, by simp [writeManyAnswer, exceptionAnswer, exceptionOutcome]⟩
  | fields w q bc data =>
    simp only [validateAqbd, writeManyAnswer]
    cases hff : firstFailure (valueOk q bc data) (rangeAddressOk w q) with
    | some e =>
      obtain ⟨sc, h1, _⟩ := finish_raise (s := s)
        (x := latchByteCount bc (latchFields w q (enter .functionChecked (checked r s)))) (u := u) r 2 e ⟨rfl, rfl, rfl, rfl, rfl, rfl⟩ rfl
      refine ⟨sc, h1, ?_⟩
      unfold firstFailure at hff
      split at hff
      · split at hff
        · cases hff
        · cases hff; simp [exceptionAnswer, exceptionOutcome]
      · cases hff; simp [exceptionAnswer, exceptionOutcome]
    | none =>
      simp only [validated]
      rw [finish_step r 2 (by simp)]
      obtain ⟨sc, h1, h2⟩ := finish_conclude (s := s) (u := u)
        (x := edge r (enter .rangeValidated (latchByteCount bc (latchFields w q (enter .functionChecked (checked r s))))))
        r writePayload rfl rfl ⟨rfl, rfl, rfl, rfl, rfl, rfl⟩ rfl
      by_cases hv : (Memory.writeRange s.params.tableCap s.table (translate k w) (unpack data q.toNat)).2 = true
      · refine ⟨sc, h1.trans ?_, fun _ => h2.trans hv, fun hd => ?_⟩
        · show (if (Memory.writeRange s.params.tableCap s.table (translate k w) (unpack data q.toNat)).2 = true then _ else _) = _
          simp only [hv, if_true]; rfl
        · simp [hv] at hd
      · refine ⟨sc, h1.trans ?_, fun hd => ?_, fun _ => h2.trans (Bool.eq_false_iff.2 hv)⟩
        · show (if (Memory.writeRange s.params.tableCap s.table (translate k w) (unpack data q.toNat)).2 = true then _ else _) = _
          simp only [hv, Bool.false_eq_true, if_false]; rfl
        · simp [hv, exceptionAnswer, exceptionOutcome] at hd

/-! ### The administrative port -/

/-- Between cycles an administrative operation is performed (R127). -/
theorem admPerform_awaiting {s : State} (op : Memory → Memory × AdmResult) (h : s.phase = .awaitingFrame) :
    admPerform op s = { s with table := (op s.table).1, admOut := (op s.table).2 } := by
  simp [admPerform, h]

/-- In the middle of a cycle it is held (R127). -/
theorem admPerform_held {s : State} (op : Memory → Memory × AdmResult) (h : s.phase ≠ .awaitingFrame) :
    admPerform op s = s := by
  simp [admPerform, h]

/-! ### Instructions and requests -/

/-- An instruction of the administrative port is one operation on the table (R127). -/
theorem exec_adm {i : Instr} (h : Instr.request? i = none) (s : State) :
    ∃ op, exec i s = .next (admPerform op s) := by
  cases i <;> simp only [Instr.request?, reduceCtorEq] at h <;> exact ⟨_, rfl⟩

/-- An instruction of the protocol port is the cycle of its request (R151). -/
theorem exec_request {i : Instr} {r : Request} (h : Instr.request? i = some r) (s : State) :
    exec i s = .next (runRequest r s) := by
  cases i <;> simp only [Instr.request?, Option.some.injEq, reduceCtorEq] at h <;> subst h <;> rfl

end Sys2Proof.Machine
end

