-- ==== Sys2Proof/Laws/Cycle.lean ====
section
/-! SUPPORT. What any edge and any cycle of a request can do, said once: from every state (`request_run`), and from a state
between two cycles (`request_cases`). -/

namespace Sys2Proof.Machine

/-! ### Every edge, from every state -/

/-- What no edge of a request touches. -/
abbrev CycleFixes (s t : State) : Prop :=
  t.params = s.params ∧ t.unitId = s.unitId ∧ t.pending = s.pending ∧ t.admOut = s.admOut

/-- The received frame is kept (spec/10_state.md R17, R18). -/
abbrev FrameKept (s t : State) : Prop :=
  t.scratch.raw = s.scratch.raw ∧ t.scratch.fAddr = s.scratch.fAddr ∧ t.scratch.fFc = s.scratch.fFc ∧
  t.scratch.fPayload = s.scratch.fPayload ∧ t.scratch.fCrc = s.scratch.fCrc

/-- What no edge but the first one touches. -/
abbrev EdgeKeeps (s t : State) : Prop :=
  t.params = s.params ∧ t.unitId = s.unitId ∧ t.pending = s.pending ∧ t.admOut = s.admOut ∧ FrameKept s t

theorem EdgeKeeps.fixes {s t : State} (h : EdgeKeeps s t) : CycleFixes s t := ⟨h.1, h.2.1, h.2.2.1, h.2.2.2.1⟩

theorem CycleFixes.trans {s t u : State} (h : CycleFixes s t) (h' : CycleFixes t u) : CycleFixes s u :=
  ⟨h'.1.trans h.1, h'.2.1.trans h.2.1, h'.2.2.1.trans h.2.2.1, h'.2.2.2.trans h.2.2.2⟩

theorem FrameKept.trans {s t u : State} (h : FrameKept s t) (h' : FrameKept t u) : FrameKept s u :=
  ⟨h'.1.trans h.1, h'.2.1.trans h.2.1, h'.2.2.1.trans h.2.2.1, h'.2.2.2.1.trans h.2.2.2.1,
    h'.2.2.2.2.trans h.2.2.2.2⟩

/-- The edge from `ResponseReady` (R164). -/
theorem respond_keeps (s : State) : EdgeKeeps s (respond s) ∧ (respond s).phase = .awaitingFrame := by
  unfold respond
  split <;> exact ⟨⟨rfl, rfl, rfl, rfl, rfl, rfl, rfl, rfl, rfl⟩, rfl⟩

/-- The edge from `Parsed` (R155). -/
theorem addressEdge_keeps (s : State) : EdgeKeeps s (addressEdge s) ∧
    ((addressEdge s).phase = .awaitingFrame ∨ (addressEdge s).phase = .addressChecked) := by
  unfold addressEdge
  dsimp only
  split
  · exact ⟨⟨rfl, rfl, rfl, rfl, rfl, rfl, rfl, rfl, rfl⟩, .inl rfl⟩
  · split
    · exact ⟨⟨rfl, rfl, rfl, rfl, rfl, rfl, rfl, rfl, rfl⟩, .inr rfl⟩
    · exact ⟨⟨rfl, rfl, rfl, rfl, rfl, rfl, rfl, rfl, rfl⟩, .inl rfl⟩

theorem validated_keeps (o : Option ModbusException) (s : State) : EdgeKeeps s (validated o s) ∧
    ((validated o s).phase = .responseReady ∨ (validated o s).phase = .rangeValidated) := by
  cases o
  · exact ⟨⟨rfl, rfl, rfl, rfl, rfl, rfl, rfl, rfl, rfl⟩, .inr rfl⟩
  · exact ⟨⟨rfl, rfl, rfl, rfl, rfl, rfl, rfl, rfl, rfl⟩, .inl rfl⟩

/-- The edge from `FunctionChecked`, format `AQ` (R158). -/
theorem validateAq_keeps (o : AqOperands) (check : Word → Word → Option ModbusException) (s : State) :
    EdgeKeeps s (validateAq o check s) ∧
    ((validateAq o check s).phase = .responseReady ∨ (validateAq o check s).phase = .rangeValidated) := by
  cases o with
  | badLength p => exact ⟨⟨rfl, rfl, rfl, rfl, rfl, rfl, rfl, rfl, rfl⟩, .inl rfl⟩
  | fields w q => exact validated_keeps (check w q) (latchFields w q s)

/-- The edge from `FunctionChecked`, format `AQBD` (R158). -/
theorem validateAqbd_keeps (o : AqbdOperands) (check : Word → Word → Byte → List Byte → Option ModbusException)
    (s : State) : EdgeKeeps s (validateAqbd o check s) ∧
    ((validateAqbd o check s).phase = .responseReady ∨ (validateAqbd o check s).phase = .rangeValidated) := by
  cases o with
  | short p => exact ⟨⟨rfl, rfl, rfl, rfl, rfl, rfl, rfl, rfl, rfl⟩, .inl rfl⟩
  | fields w q bc d => exact validated_keeps (check w q bc d) (latchByteCount bc (latchFields w q s))

theorem executeRead_keeps (data : State → List Byte) (s : State) :
    EdgeKeeps s (executeRead data s) ∧ (executeRead data s).phase = .executed := ⟨⟨rfl, rfl, rfl, rfl, rfl, rfl, rfl, rfl, rfl⟩, rfl⟩

theorem executeWrite_keeps (write : State → Memory × Bool) (s : State) :
    EdgeKeeps s (executeWrite write s) ∧ (executeWrite write s).phase = .executed := ⟨⟨rfl, rfl, rfl, rfl, rfl, rfl, rfl, rfl, rfl⟩, rfl⟩

theorem raise_keeps (e : ModbusException) (s : State) :
    EdgeKeeps s (raise e s) ∧ (raise e s).phase = .responseReady := ⟨⟨rfl, rfl, rfl, rfl, rfl, rfl, rfl, rfl, rfl⟩, rfl⟩

/-- The edge from `Executed` (R163, R164). -/
theorem conclude_keeps (payload : State → List Byte) (s : State) :
    EdgeKeeps s (conclude payload s) ∧ (conclude payload s).phase = .responseReady := by
  unfold conclude
  split <;> exact ⟨⟨rfl, rfl, rfl, rfl, rfl, rfl, rfl, rfl, rfl⟩, rfl⟩

theorem extensionEdge_keeps (code : Byte) (p : List Byte) (s : State) :
    EdgeKeeps s (extensionEdge code p s) ∧ (extensionEdge code p s).phase = .responseReady := by
  unfold extensionEdge
  cases Config.extHandler s.freeCount code p <;> exact ⟨⟨rfl, rfl, rfl, rfl, rfl, rfl, rfl, rfl, rfl⟩, rfl⟩

/-- What an edge keeps, and that it is one of R150's. -/
abbrev EdgeOk (s t : State) : Prop :=
  CycleFixes s t ∧ Phase.mayMove s.phase t.phase = true ∧ (s.phase ≠ .awaitingFrame → FrameKept s t)

theorem EdgeKeeps.edgeOk {s t : State} (h : EdgeKeeps s t) (hm : Phase.mayMove s.phase t.phase = true) : EdgeOk s t :=
  ⟨h.fixes, hm, fun _ => h.2.2.2.2⟩

theorem edge_ok_of {r : Request} (hd : ∀ s, s.phase = .addressChecked → EdgeOk s (r.dispatch s))
    (hv : ∀ s, s.phase = .functionChecked → EdgeOk s (r.validate s))
    (he : ∀ s, s.phase = .rangeValidated → EdgeOk s (r.execute s))
    (hc : ∀ s, s.phase = .executed → EdgeOk s (r.conclude s)) (s : State) : EdgeOk s (edge r s) := by
  unfold edge
  split
  · rename_i h
    exact ⟨⟨rfl, rfl, rfl, rfl⟩, by rw [h]; rfl, fun hp => absurd h hp⟩
  · rename_i h
    obtain ⟨a, e⟩ := addressEdge_keeps s
    exact a.edgeOk (by rcases e with e | e <;> rw [h, e] <;> rfl)
  · exact hd s ‹_›
  · exact hv s ‹_›
  · exact he s ‹_›
  · exact hc s ‹_›
  · rename_i h
    obtain ⟨a, e⟩ := respond_keeps s
    exact a.edgeOk (by rw [h, e]; rfl)

theorem supported_edge_ok {u fc : Byte} {pl : List Byte} {v e : State → State} {p : State → List Byte}
    (hv : ∀ s, EdgeKeeps s (v s) ∧ ((v s).phase = .responseReady ∨ (v s).phase = .rangeValidated))
    (he : ∀ s, EdgeKeeps s (e s) ∧ (e s).phase = .executed) (s : State) :
    EdgeOk s (edge (supportedRequest u fc pl v e (conclude p)) s) := by
  refine edge_ok_of (fun s h => ⟨⟨rfl, rfl, rfl, rfl⟩, by rw [h]; rfl, fun _ => ⟨rfl, rfl, rfl, rfl, rfl⟩⟩)
    (fun s h => ?_) (fun s h => ?_) (fun s h => ?_) s
  · obtain ⟨a, e⟩ := hv s
    refine a.edgeOk ?_
    rcases e with e | e <;> rw [h, e] <;> rfl
  · obtain ⟨a, e'⟩ := he s
    exact a.edgeOk (by rw [h, e']; rfl)
  · obtain ⟨a, e⟩ := conclude_keeps p s
    exact a.edgeOk (by rw [h, e]; rfl)

theorem immediate_edge_ok {u fc : Byte} {pl : List Byte} {f : State → State}
    (hf : ∀ s, EdgeKeeps s (f s) ∧ (f s).phase = .responseReady) (s : State) :
    EdgeOk s (edge (immediateRequest u fc pl f) s) := by
  refine edge_ok_of (fun s h => ?_) (fun s h => ?_)
    (fun s h => ⟨⟨rfl, rfl, rfl, rfl⟩, by rw [h]; rfl, fun _ => ⟨rfl, rfl, rfl, rfl, rfl⟩⟩) (fun s h => ?_) s <;>
  · obtain ⟨a, e⟩ := hf s
    exact a.edgeOk (by rw [h, e]; rfl)

/-- Any edge of any request, from any state: what it keeps, and that it is one of R150's. -/
theorem request_edge {i : Instr} {r : Request} (h : Instr.request? i = some r) (s : State) : EdgeOk s (edge r s) := by
  have hr : ∀ u fc o n k p, EdgeOk s (edge (readRequest u fc o n k p) s) := fun _ _ _ _ _ _ =>
    supported_edge_ok (validateAq_keeps _ _) (executeRead_keeps _) s
  have hw : ∀ u fc o ok k p, EdgeOk s (edge (writeRequest u fc o ok k p) s) := fun _ _ _ _ _ _ =>
    supported_edge_ok (validateAq_keeps _ _) (executeWrite_keeps _) s
  have hm : ∀ u fc o ok k p, EdgeOk s (edge (writeManyRequest u fc o ok k p) s) := fun _ _ _ _ _ _ =>
    supported_edge_ok (validateAqbd_keeps _ _) (executeWrite_keeps _) s
  have hu : ∀ u fc p, EdgeOk s (edge (unsupportedRequest u fc p) s) := fun _ _ _ =>
    immediate_edge_ok (raise_keeps _) s
  cases i <;> simp only [Instr.request?, Option.some.injEq, reduceCtorEq] at h <;> subst h
  case rdcoil => exact hr _ _ _ _ _ _
  case rddisc => exact hr _ _ _ _ _ _
  case rdhold => exact hr _ _ _ _ _ _
  case rdinp => exact hr _ _ _ _ _ _
  case wrcoil => exact hw _ _ _ _ _ _
  case wrhold => exact hw _ _ _ _ _ _
  case wrcoils => exact hm _ _ _ _ _ _
  case wrholds => exact hm _ _ _ _ _ _
  case ext => exact immediate_edge_ok (extensionEdge_keeps _ _) s
  all_goals exact hu _ _ _

/-- An operation does not read the events that wait (spec/60_exceptions.md R206): with others waiting it does the same. -/
abbrev IgnoresPending (f : State → State) : Prop :=
  ∀ (s : State) (p : List Event), f { s with pending := p } = { f s with pending := p }

theorem addressEdge_pending : IgnoresPending addressEdge := by
  intro s p
  simp only [addressEdge, drop]
  split
  · rfl
  · split <;> rfl

theorem respond_pending : IgnoresPending respond := by
  intro s p
  simp only [respond]
  split <;> rfl

theorem validated_pending (o : Option ModbusException) : IgnoresPending (validated o) := by
  intro s p
  cases o <;> rfl

theorem validateAq_pending (o : AqOperands) (check : Word → Word → Option ModbusException) :
    IgnoresPending (validateAq o check) := by
  intro s p
  cases o with
  | badLength _ => rfl
  | fields w q => exact validated_pending (check w q) (latchFields w q s) p

theorem validateAqbd_pending (o : AqbdOperands) (check : Word → Word → Byte → List Byte → Option ModbusException) :
    IgnoresPending (validateAqbd o check) := by
  intro s p
  cases o with
  | short _ => rfl
  | fields w q bc d => exact validated_pending (check w q bc d) (latchByteCount bc (latchFields w q s)) p

theorem conclude_pending {payload : State → List Byte}
    (h : ∀ (s : State) (p : List Event), payload { s with pending := p } = payload s) : IgnoresPending (conclude payload) := by
  intro s p
  simp only [conclude, h]
  split <;> rfl

theorem extensionEdge_pending (code : Byte) (pl : List Byte) : IgnoresPending (extensionEdge code pl) := by
  intro s p
  simp only [extensionEdge]
  cases Config.extHandler s.freeCount code pl <;> rfl

theorem edge_pending_of {r : Request} (hd : IgnoresPending r.dispatch) (hv : IgnoresPending r.validate)
    (he : IgnoresPending r.execute) (hc : IgnoresPending r.conclude) : IgnoresPending (edge r) := by
  rintro ⟨_, _, _, phase, _, _, _, _, _, _, _⟩ p
  cases phase
  case awaitingFrame => rfl
  case parsed => exact addressEdge_pending _ p
  case addressChecked => exact hd _ p
  case functionChecked => exact hv _ p
  case rangeValidated => exact he _ p
  case executed => exact hc _ p
  case responseReady => exact respond_pending _ p

/-- No edge of any request reads the events that wait. -/
theorem request_edge_pending {i : Instr} {r : Request} (h : Instr.request? i = some r) : IgnoresPending (edge r) := by
  have hr : ∀ u fc o n k p, IgnoresPending (edge (readRequest u fc o n k p)) := fun _ _ _ _ _ _ =>
    edge_pending_of (fun _ _ => rfl) (validateAq_pending _ _) (fun _ _ => rfl) (conclude_pending fun _ _ => rfl)
  have hw : ∀ u fc o ok k p, IgnoresPending (edge (writeRequest u fc o ok k p)) := fun _ _ _ _ _ _ =>
    edge_pending_of (fun _ _ => rfl) (validateAq_pending _ _) (fun _ _ => rfl) (conclude_pending fun _ _ => rfl)
  have hm : ∀ u fc o ok k p, IgnoresPending (edge (writeManyRequest u fc o ok k p)) := fun _ _ _ _ _ _ =>
    edge_pending_of (fun _ _ => rfl) (validateAqbd_pending _ _) (fun _ _ => rfl) (conclude_pending fun _ _ => rfl)
  have hu : ∀ u fc p, IgnoresPending (edge (unsupportedRequest u fc p)) := fun _ _ _ =>
    edge_pending_of (fun _ _ => rfl) (fun _ _ => rfl) (fun _ _ => rfl) (fun _ _ => rfl)
  cases i <;> simp only [Instr.request?, Option.some.injEq, reduceCtorEq] at h <;> subst h
  case rdcoil => exact hr _ _ _ _ _ _
  case rddisc => exact hr _ _ _ _ _ _
  case rdhold => exact hr _ _ _ _ _ _
  case rdinp => exact hr _ _ _ _ _ _
  case wrcoil => exact hw _ _ _ _ _ _
  case wrhold => exact hw _ _ _ _ _ _
  case wrcoils => exact hm _ _ _ _ _ _
  case wrholds => exact hm _ _ _ _ _ _
  case ext => exact edge_pending_of (extensionEdge_pending _ _) (extensionEdge_pending _ _) (fun _ _ => rfl) (extensionEdge_pending _ _)
  all_goals exact hu _ _ _

theorem request_finish_pending {i : Instr} {r : Request} (h : Instr.request? i = some r) :
    ∀ n, IgnoresPending (finish r n)
  | 0 => fun _ _ => rfl
  | n + 1 => by
    intro s p
    by_cases hp : s.phase = .awaitingFrame
    · rw [finish_awaiting r _ hp, finish_awaiting r _ (by exact hp)]
    · rw [finish_step r n hp, finish_step r n (by exact hp), request_edge_pending h s p, request_finish_pending h n]

/-- A cycle of any request, from any state, does not read the events that wait. -/
theorem request_run_pending {i : Instr} {r : Request} (h : Instr.request? i = some r) : IgnoresPending (runRequest r) := by
  intro s p
  unfold runRequest
  rw [request_edge_pending h s p, request_finish_pending h 6]

/-! ### Every cycle, from every state -/

/-- The largest number of edges from a phase to `AwaitingFrame` (R150, R167). -/
def Phase.left : Phase → Nat
  | .awaitingFrame => 0
  | .parsed => 6
  | .addressChecked => 5
  | .functionChecked => 4
  | .rangeValidated => 3
  | .executed => 2
  | .responseReady => 1

theorem Phase.left_le (p : Phase) : p.left ≤ 6 := by cases p <;> simp [Phase.left]

theorem Phase.left_lt {p q : Phase} (h : Phase.mayMove p q = true) (hp : p ≠ .awaitingFrame) : q.left < p.left := by
  cases p <;> cases q <;> simp_all [Phase.mayMove, Phase.left]

theorem request_finish {i : Instr} {r : Request} (h : Instr.request? i = some r) :
    ∀ (n : Nat) (s : State), s.phase.left ≤ n →
      CycleFixes s (finish r n s) ∧ FrameKept s (finish r n s) ∧ (finish r n s).phase = .awaitingFrame := by
  intro n
  induction n with
  | zero =>
    intro s hs
    refine ⟨⟨rfl, rfl, rfl, rfl⟩, ⟨rfl, rfl, rfl, rfl, rfl⟩, ?_⟩
    show s.phase = _
    cases hp : s.phase <;> rw [hp] at hs <;> simp_all [Phase.left]
  | succ n ih =>
    intro s hs
    by_cases hp : s.phase = .awaitingFrame
    · rw [finish_awaiting r _ hp]
      exact ⟨⟨rfl, rfl, rfl, rfl⟩, ⟨rfl, rfl, rfl, rfl, rfl⟩, hp⟩
    · rw [finish_step r n hp]
      obtain ⟨a, e, k⟩ := request_edge h s
      obtain ⟨a', k', e'⟩ := ih (edge r s) (by have := Phase.left_lt e hp; omega)
      exact ⟨a.trans a', (k hp).trans k', e'⟩

/-- The cycle of any request, from any state, ends (R167), and what it keeps (R168). -/
theorem request_run {i : Instr} {r : Request} (h : Instr.request? i = some r) (s : State) :
    CycleFixes s (runRequest r s) ∧ (runRequest r s).phase = .awaitingFrame := by
  obtain ⟨a, _⟩ := request_edge h s
  obtain ⟨a', _, e'⟩ := request_finish h 6 (edge r s) (Phase.left_le _)
  exact ⟨a.trans a', e'⟩

/-- From between two cycles, the received frame stays in the scratch state (R153). -/
theorem request_frame {i : Instr} {r : Request} (h : Instr.request? i = some r) {s : State}
    (hp : s.phase = .awaitingFrame) :
    (runRequest r s).scratch.raw = serialize r.addr r.fc r.payload ∧ (runRequest r s).scratch.fAddr = r.addr ∧
    (runRequest r s).scratch.fFc = r.fc ∧ (runRequest r s).scratch.fPayload = r.payload ∧
    (runRequest r s).scratch.fCrc = bodyCrc r.addr r.fc r.payload := by
  obtain ⟨_, k, _⟩ := request_finish h 6 (edge r s) (Phase.left_le _)
  rw [edge_awaiting r hp] at k
  unfold runRequest
  rw [edge_awaiting r hp]
  exact k

/-! ### Every cycle, from between two cycles -/

/-- What the table, the outcome and the answer of a dispatched request can be (R163, R164, R204, R209): a normal answer, or one
of the exceptions, of which only `DeviceFailure` comes after a write; and the table keeps its canonical form and its
capacity, changes only where a request may write, and loses no entry. -/
abbrev Ends (s : State) (r : Request) (m : Memory) (o : CycleOutcome) (fc : Byte) (pl : List Byte) : Prop :=
  ((o = .normal ∧ fc = r.fc) ∨
    ∃ e, o = exceptionOutcome e ∧ fc = exceptionFc r.fc ∧ pl = [exceptionCode e] ∧
      (e ≠ .deviceFailure → m = s.table)) ∧
  (Memory.wf s.table = true → Memory.wf m = true ∧
    (s.table.length ≤ s.params.tableCap → m.length ≤ s.params.tableCap) ∧
    (∀ a, ¬ protocolWritable a → Memory.lookup m a = Memory.lookup s.table a) ∧
    (∀ a, Memory.lookup s.table a ≠ none → Memory.lookup m a ≠ none))

theorem ends_normal {s : State} {r : Request} {pl : List Byte} : Ends s r s.table .normal r.fc pl :=
  ⟨.inl ⟨rfl, rfl⟩, fun h => ⟨h, fun h => h, fun _ _ => rfl, fun _ h => h⟩⟩

theorem ends_exception {s : State} {r : Request} (e : ModbusException) :
    Ends s r s.table (exceptionOutcome e) (exceptionFc r.fc) [exceptionCode e] :=
  ⟨.inr ⟨e, rfl, rfl, rfl, fun _ => rfl⟩, fun h => ⟨h, fun h => h, fun _ _ => rfl, fun _ h => h⟩⟩

/-- The answer of a write and the table it leaves (R163), for a run of values in the coil or the holding band. -/
theorem ends_written {s : State} {r : Request} {k : Kind} {w : Word} {vs : List Word} {pl : List Byte}
    (hk : k = .coil ∨ k = .holding) (hw : w.toNat + vs.length ≤ 9999) :
    Ends s r (Memory.writeRange s.params.tableCap s.table (translate k w) vs).1
      (if (Memory.writeRange s.params.tableCap s.table (translate k w) vs).2 then (CycleOutcome.normal, r.fc, pl)
        else exceptionAnswer r.fc .deviceFailure).1
      (if (Memory.writeRange s.params.tableCap s.table (translate k w) vs).2 then (CycleOutcome.normal, r.fc, pl)
        else exceptionAnswer r.fc .deviceFailure).2.1
      (if (Memory.writeRange s.params.tableCap s.table (translate k w) vs).2 then (CycleOutcome.normal, r.fc, pl)
        else exceptionAnswer r.fc .deviceFailure).2.2 := by
  constructor
  · split
    · exact .inl ⟨rfl, rfl⟩
    · exact .inr ⟨.deviceFailure, rfl, rfl, rfl, fun h => absurd rfl h⟩
  · intro h
    have hr := Memory.wf_rising h
    have hb : k.base = 0 ∨ k.base = 40000 := by
      rcases hk with rfl | rfl
      · exact .inl rfl
      · exact .inr rfl
    have ht : translate k w = k.base + w.toNat := rfl
    refine ⟨Memory.wf_writeRange _ _ h (by omega), fun hl => Memory.length_writeRange_le _ _ hl _, fun a ha => ?_,
      fun a ha => Memory.lookup_writeRange_kept _ _ hr _ _ ha⟩
    refine Memory.lookup_writeRange_outside _ _ hr _ _ ?_
    unfold protocolWritable at ha
    omega

theorem writeRange_singleton (cap : Nat) (m : Memory) (a : Nat) (v : Word) :
    Memory.writeRange cap m a [v] = Memory.verifyAndSet cap m a v := by
  simp [Memory.writeRange]

theorem firstFailure_none {v a : Bool} (h : firstFailure v a = none) : v = true ∧ a = true := by
  cases v <;> cases a <;> simp [firstFailure] at h ⊢

/-- The request of `i`, taken under any address byte the block takes, ends with one table, outcome and answer, which depend on
nothing but the parameters, the table and the count of free values. -/
abbrev Taken (i : Instr) (r : Request) (s : State) : Prop :=
  ∃ m o fc pl n, Ends s r m o fc pl ∧ ∀ u s', s'.params = s.params → s'.table = s.table → s'.freeCount = s.freeCount →
    State.Takes s' u → ∃ r' sc, Instr.request? (Instr.withUnit u i) = some r' ∧
      runRequest r' s' = { ended s' sc m u o fc pl with freeCount := n }

/-- A request that is taken ends, with the same table, outcome and answer whatever the address byte it is taken under (R155,
R164). -/
theorem request_taken {i : Instr} {r : Request} (h : Instr.request? i = some r) (s : State) :
    Taken i r s := by
  have hread : ∀ (fc : Byte) (o : AqOperands) (bound : Nat) (k : Kind) (pack : Memory → Nat → Nat → List Byte),
      r.fc = fc → (∀ u, Instr.request? (Instr.withUnit u i) = some (readRequest u fc o bound k pack)) →
      Taken i r s := by
    rintro fc o bound k pack rfl hi
    refine ⟨s.table, (readAnswer s.params s.table r.fc o bound k pack).1,
      (readAnswer s.params s.table r.fc o bound k pack).2.1, (readAnswer s.params s.table r.fc o bound k pack).2.2,
      s.freeCount, ?_, fun u s' hp ht hn hu => ?_⟩
    rotate_left
    · obtain ⟨sc, h1, _⟩ := runRequest_read (fc := r.fc) (o := o) (bound := bound) (k := k) (pack := pack) hu
      rw [hp, ht] at h1
      exact ⟨_, sc, hi u, by rw [← hn]; exact h1⟩
    · unfold readAnswer
      split
      · exact ends_exception .illegalValue
      · split
        · exact ends_exception _
        · exact ends_normal
  have hwrite : ∀ (fc : Byte) (o : AqOperands) (ok : Word → Bool) (k : Kind) (stored : Word → Word),
      k = .coil ∨ k = .holding → r.fc = fc →
      (∀ u, Instr.request? (Instr.withUnit u i) = some (writeRequest u fc o ok k stored)) →
      Taken i r s := by
    rintro fc o ok k stored hk rfl hi
    refine ⟨(writeAnswer s.params.tableCap s.table r.fc o ok k stored).1, (writeAnswer s.params.tableCap s.table r.fc o ok k stored).2.1,
      (writeAnswer s.params.tableCap s.table r.fc o ok k stored).2.2.1,
      (writeAnswer s.params.tableCap s.table r.fc o ok k stored).2.2.2, s.freeCount, ?_, fun u s' hp ht hn hu => ?_⟩
    rotate_left
    · obtain ⟨sc, h1, _⟩ := runRequest_write (fc := r.fc) (o := o) (valueOk := ok) (k := k) (stored := stored) hu
      rw [hp, ht] at h1
      exact ⟨_, sc, hi u, by rw [← hn]; exact h1⟩
    · unfold writeAnswer
      split
      · exact ends_exception .illegalValue
      · split
        · exact ends_exception _
        · rename_i w q hff
          have ha := (firstFailure_none hff).2
          rw [singleAddressOk_eq] at ha
          rw [← writeRange_singleton]
          exact ends_written hk (by simp at ha ⊢; omega)
  have hmany : ∀ (fc : Byte) (o : AqbdOperands) (ok : Word → Byte → List Byte → Bool) (k : Kind)
      (unpack : List Byte → Nat → List Word),
      k = .coil ∨ k = .holding → (∀ d n, (unpack d n).length = n) → r.fc = fc →
      (∀ u, Instr.request? (Instr.withUnit u i) = some (writeManyRequest u fc o ok k unpack)) →
      Taken i r s := by
    rintro fc o ok k unpack hk hlen rfl hi
    refine ⟨(writeManyAnswer s.params.tableCap s.table r.fc o ok k unpack).1, (writeManyAnswer s.params.tableCap s.table r.fc o ok k unpack).2.1,
      (writeManyAnswer s.params.tableCap s.table r.fc o ok k unpack).2.2.1,
      (writeManyAnswer s.params.tableCap s.table r.fc o ok k unpack).2.2.2, s.freeCount, ?_, fun u s' hp ht hn hu => ?_⟩
    rotate_left
    · obtain ⟨sc, h1, _⟩ := runRequest_writeMany (fc := r.fc) (o := o) (valueOk := ok) (k := k) (unpack := unpack) hu
      rw [hp, ht] at h1
      exact ⟨_, sc, hi u, by rw [← hn]; exact h1⟩
    · unfold writeManyAnswer
      split
      · exact ends_exception .illegalValue
      · split
        · exact ends_exception _
        · rename_i w q bc data hff
          have ha := (firstFailure_none hff).2
          rw [rangeAddressOk_eq] at ha
          exact ends_written hk (by rw [hlen]; simp at ha; omega)
  have huns : ∀ (fc : Byte) (p : List Byte), r.fc = fc →
      (∀ u, Instr.request? (Instr.withUnit u i) = some (unsupportedRequest u fc p)) →
      Taken i r s := by
    rintro fc p rfl hi
    refine ⟨s.table, _, _, _, s.freeCount, ends_exception .illegalFunction, fun u s' hp ht hn hu => ?_⟩
    obtain ⟨sc, h1⟩ := runRequest_unsupported (fc := r.fc) (pl := p) hu
    rw [ht] at h1
    exact ⟨_, sc, hi u, by rw [← hn]; exact h1⟩
  have lcoils : ∀ d n, (coilsStored d n).length = n := fun d n => by simp [coilsStored_eq]
  have lwords : ∀ d n, (unpackWords d n).length = n := fun d n => by simp [unpackWords]
  cases i <;> simp only [Instr.request?, Option.some.injEq, reduceCtorEq] at h <;> subst h
  case rdcoil => exact hread _ _ _ _ _ rfl fun _ => rfl
  case rddisc => exact hread _ _ _ _ _ rfl fun _ => rfl
  case rdhold => exact hread _ _ _ _ _ rfl fun _ => rfl
  case rdinp => exact hread _ _ _ _ _ rfl fun _ => rfl
  case wrcoil => exact hwrite _ _ _ _ _ (.inl rfl) rfl fun _ => rfl
  case wrhold => exact hwrite _ _ _ _ _ (.inr rfl) rfl fun _ => rfl
  case wrcoils => exact hmany _ _ _ _ _ (.inl rfl) lcoils rfl fun _ => rfl
  case wrholds => exact hmany _ _ _ _ _ (.inr rfl) lwords rfl fun _ => rfl
  case ext u code p =>
    refine ⟨s.table, (extensionAnswer code (Config.extHandler s.freeCount code p)).1,
      (extensionAnswer code (Config.extHandler s.freeCount code p)).2.1,
      (extensionAnswer code (Config.extHandler s.freeCount code p)).2.2, s.freeCount + 1, ?_, fun u s' hp ht hn hu => ?_⟩
    rotate_left
    · obtain ⟨sc, h1⟩ := runRequest_extension (code := code) (pl := p) hu
      rw [ht, hn] at h1
      exact ⟨_, sc, rfl, h1⟩
    · cases Config.extHandler s.freeCount code p with
      | normal pl => exact ends_normal
      | exception e => exact ends_exception e
  all_goals exact huns _ _ rfl fun _ => rfl

theorem withUnit_self {i : Instr} {r : Request} (h : Instr.request? i = some r) : Instr.withUnit r.addr i = i := by
  cases i <;> simp only [Instr.request?, Option.some.injEq, reduceCtorEq] at h <;> subst h <;> rfl

/-- From between two cycles a request is dropped, or taken and ended (R155, R164). -/
theorem request_cases {i : Instr} {r : Request} (h : Instr.request? i = some r) {s : State}
    (hp : s.phase = .awaitingFrame) :
    (r.addr ≠ 0x00#8 ∧ r.addr ≠ s.unitId ∧ runRequest r s = { s with
      phase := .awaitingFrame, outcome := .notRecipient, replied := false, scratch := received r s }) ∨
    (State.Takes s r.addr ∧ ∃ sc m o fc pl n,
      runRequest r s = { ended s sc m r.addr o fc pl with freeCount := n } ∧ Ends s r m o fc pl) := by
  by_cases ht : State.Takes s r.addr
  · obtain ⟨m, o, fc, pl, n, he, hu⟩ := request_taken h s
    obtain ⟨r', sc, h1, h2⟩ := hu r.addr s rfl rfl rfl ht
    rw [withUnit_self h, h] at h1
    cases h1
    exact .inr ⟨ht, sc, m, o, fc, pl, n, h2, he⟩
  · have h0 : r.addr ≠ 0x00#8 := fun h0 => ht ⟨hp, .inl h0⟩
    have h1 : r.addr ≠ s.unitId := fun h1 => ht ⟨hp, .inr h1⟩
    exact .inl ⟨h0, h1, runRequest_other hp h0 h1⟩

end Sys2Proof.Machine
end

