-- ==== Sys2Proof/Laws/Frames.lean ====
section
/-! SUPPORT. What `parse`, `check_crc` and the decoder of the protocol port make of a frame. -/

namespace Sys2Proof

open Sys2Proof.Machine

/-- A frame of at least 4 bytes is split (spec/43_frame_codec.md R141). -/
theorem parse_isSome {raw : List Byte} (h : 4 ≤ raw.length) : ∃ f, parse raw = some f := by
  unfold parse
  rw [if_neg (by omega)]
  exact ⟨_, rfl⟩

/-- A shorter one is `TooShort` (R141). -/
theorem parse_short {raw : List Byte} (h : raw.length < 4) : parse raw = none := by
  unfold parse
  rw [if_pos h]

/-- The fields of a split frame, by the rule (R141). -/
theorem parse_fields {raw : List Byte} {f : Frame} (h : parse raw = some f) :
    4 ≤ raw.length ∧ f.addr = byteAt raw 0 ∧ f.fc = byteAt raw 1 ∧ f.payload = (raw.drop 2).take (raw.length - 4) ∧
      f.crc = be16 (byteAt raw (raw.length - 1)) (byteAt raw (raw.length - 2)) := by
  unfold parse at h
  split at h
  · cases h
  · cases h
    exact ⟨by omega, rfl, rfl, rfl, rfl⟩

/-- The bytes the CRC is computed over are all but the last two (spec/43_frame_codec.md R142). -/
theorem body_of_parse {raw : List Byte} {f : Frame} (h : parse raw = some f) :
    [f.addr, f.fc] ++ f.payload = raw.take (raw.length - 2) := by
  obtain ⟨hl, ha, hf, hp, _⟩ := parse_fields h
  rw [ha, hf, hp]
  match raw, hl with
  | a :: b :: rest, hl =>
    obtain ⟨n, hn⟩ : ∃ n, rest.length = n + 2 := ⟨rest.length - 2, by simp only [List.length_cons] at hl; omega⟩
    simp [byteAt, hn]

/-- The CRC a frame should carry (R142). -/
theorem bodyCrc_of_parse {raw : List Byte} {f : Frame} (h : parse raw = some f) :
    bodyCrc f.addr f.fc f.payload = crc16 (raw.take (raw.length - 2)) := by
  rw [bodyCrc, body_of_parse h]

/-- `check_crc` says that the last two bytes are the CRC of the others (R142). -/
theorem checkCrc_iff {raw : List Byte} {f : Frame} (h : parse raw = some f) : checkCrc f = true ↔ crcCorrect raw := by
  unfold checkCrc crcCorrect
  rw [beq_iff_eq, bodyCrc_of_parse h, (parse_fields h).2.2.2.2]

/-- The operand list of a payload is well formed, and written out it is the payload again (spec/30_encoding.md R63). -/
theorem AqOperands.wellFormed_ofBytes (p : List Byte) :
    (AqOperands.ofBytes p).wellFormed = true ∧ (AqOperands.ofBytes p).toBytes = p := by
  unfold AqOperands.ofBytes
  split
  · exact ⟨rfl, by simp [AqOperands.toBytes]⟩
  · rename_i h
    refine ⟨?_, rfl⟩
    simp only [AqOperands.wellFormed, decide_eq_true_eq]
    intro hl
    match p, hl with
    | [a, b, c, d], _ => exact h a b c d rfl

/-- The operand list of a payload is well formed, and written out it is the payload again (spec/30_encoding.md R64). -/
theorem AqbdOperands.wellFormed_ofBytes (p : List Byte) :
    (AqbdOperands.ofBytes p).wellFormed = true ∧ (AqbdOperands.ofBytes p).toBytes = p := by
  unfold AqbdOperands.ofBytes
  split
  · exact ⟨rfl, by simp [AqbdOperands.toBytes]⟩
  · rename_i h
    refine ⟨?_, rfl⟩
    simp only [AqbdOperands.wellFormed, decide_eq_true_eq]
    by_contra hl
    match p, hl with
    | a :: b :: c :: d :: e :: r, _ => exact h a b c d e r rfl
    | [], hl => simp at hl
    | [_], hl => simp at hl
    | [_, _], hl => simp at hl
    | [_, _, _], hl => simp at hl
    | [_, _, _, _], hl => simp at hl

/-- The rows of the opcode table leave no function code uncovered (spec/30_encoding.md R71). -/
theorem protocolRows_cover (fc : Byte) : ∃ r, protocolRows.find? (·.covers fc) = some r := by
  have h : ∀ fc : Byte, (protocolRows.find? (·.covers fc)).isSome = true := by decide +kernel
  exact Option.isSome_iff_exists.1 (h fc)

/-- Every address byte, function code and payload is a request (R70, R71). -/
theorem decodeRequest_isSome (ext : List Byte) (u fc : Byte) (p : List Byte) :
    ∃ i, decodeRequest ext u fc p = some i := by
  unfold decodeRequest
  split
  · exact ⟨_, rfl⟩
  · obtain ⟨r, hr⟩ := protocolRows_cover fc
    rw [hr]
    exact ⟨_, rfl⟩

/-- The request of a frame holds the address byte, the function code and the payload of that frame. -/
theorem decodeRequest_spec {ext : List Byte} {u fc : Byte} {p : List Byte} {i : Instr}
    (h : decodeRequest ext u fc p = some i) :
    i.wellFormed ext = true ∧ ∃ r, Instr.request? i = some r ∧ r.addr = u ∧ r.fc = fc ∧ r.payload = p ∧
      encode i = .frame (serialize u fc p) := by
  unfold decodeRequest at h
  split at h
  · rename_i hc
    cases h
    exact ⟨hc, _, rfl, rfl, rfl, rfl, rfl⟩
  · rename_i hc
    simp only [Option.map_eq_some_iff] at h
    obtain ⟨row, hrow, hb⟩ := h
    have hcov := List.find?_some hrow
    have hmem := List.mem_of_find?_eq_some hrow
    have hc' : ext.contains fc = false := by simpa using hc
    simp only [OpRow.covers, beq_iff_eq] at hcov
    have hid : ∀ (x k : Byte), x &&& 0xFF#8 = k → x = k := by
      intro x k h
      have : x &&& 0xFF#8 = x := BitVec.and_allOnes
      rw [this] at h
      exact h
    simp only [protocolRows, supportedRows, unsupportedRows, List.cons_append, List.nil_append, List.mem_cons,
      List.not_mem_nil, or_false] at hmem
    rcases hmem with rfl | rfl | rfl | rfl | rfl | rfl | rfl | rfl | rfl | rfl | rfl | rfl | rfl | rfl | rfl | rfl |
      rfl | rfl | rfl | rfl <;> subst hb <;> dsimp only at hcov <;>
    first
      | (have := hid _ _ hcov
         subst this
         refine ⟨?_, _, rfl, rfl, rfl, ?_, ?_⟩
         · simp only [Instr.wellFormed, (AqOperands.wellFormed_ofBytes p).1, (AqbdOperands.wellFormed_ofBytes p).1,
             hc']
           rfl
         · first
             | exact (AqOperands.wellFormed_ofBytes p).2
             | exact (AqbdOperands.wellFormed_ofBytes p).2
             | rfl
         · simp only [encode, (AqOperands.wellFormed_ofBytes p).2, (AqbdOperands.wellFormed_ofBytes p).2])
      | (refine ⟨?_, _, rfl, rfl, rfl, rfl, rfl⟩
         simp only [Instr.wellFormed, rowCode, hcov, hc']
         simp)

/-- A frame with a good CRC is decoded by its fields; one with a wrong CRC is rejected (R62). -/
theorem decodeFrame_of_parse (ext : List Byte) {raw : List Byte} {f : Frame} (h : parse raw = some f) :
    (crcCorrect raw → ∃ i, decodeFrame ext raw = .instr i ∧ decodeRequest ext f.addr f.fc f.payload = some i) ∧
    (¬ crcCorrect raw → decodeFrame ext raw = .rejected .badCrc) := by
  obtain ⟨i, hi⟩ := decodeRequest_isSome ext f.addr f.fc f.payload
  constructor
  · intro hc
    exact ⟨i, by simp [decodeFrame, h, (checkCrc_iff h).2 hc, hi], hi⟩
  · intro hc
    have hc' : ¬ checkCrc f = true := fun hx => hc ((checkCrc_iff h).1 hx)
    simp [decodeFrame, h, hc']

/-- A frame with a good CRC is its fields serialized again (R143, R144). -/
theorem serialize_of_parse {raw : List Byte} {f : Frame} (h : parse raw = some f) (hc : crcCorrect raw) :
    serialize f.addr f.fc f.payload = raw := by
  obtain ⟨hl, _, _, _, h5⟩ := parse_fields h
  have hb := body_of_parse h
  have : bodyCrc f.addr f.fc f.payload = f.crc := by simpa [checkCrc] using (checkCrc_iff h).2 hc
  rw [serialize, this, hb, h5]
  simp only [hiByte_be16, loByte_be16]
  apply List.ext_getElem
  · simp; omega
  · intro i h1 h2
    simp at h1
    by_cases hi : i < raw.length - 2
    · rw [List.getElem_append_left (by simp; omega)]; simp
    · rw [List.getElem_append_right (by simp; omega)]
      simp only [List.length_take, byteAt]
      have : i = raw.length - 2 ∨ i = raw.length - 1 := by omega
      rcases this with rfl | rfl
      · have e : raw.length - 2 - min (raw.length - 2) raw.length = 0 := by omega
        simp only [e]; simp; rw [List.getElem?_eq_getElem (by omega)]; rfl
      · have e : raw.length - 1 - min (raw.length - 2) raw.length = 1 := by omega
        simp only [e]; simp; rw [List.getElem?_eq_getElem (by omega)]; rfl

end Sys2Proof
end

