-- ==== Sys2Proof/Laws/PerInstr.lean ====
section
/-! SUPPORT. Statements about every instruction, one lemma per constructor. -/

namespace Sys2Proof

/-- What the selector of an encoded instruction must be: a function code `fc` with `fc & mask = pattern` in byte 1 of a frame,
or `adm_op` with `adm_op & mask = pattern` (the match and mask columns of spec/opcode_table.json). -/
def selectorMatches : PortWord → Byte → Byte → Prop
  | .frame raw, mask, pattern => 4 ≤ raw.length ∧ byteAt raw 1 &&& mask = pattern
  | .adm op _ _, mask, pattern => op.setWidth 8 &&& mask = pattern

/-- The mask and the pattern of an instruction's row of spec/opcode_table.json; the extension row matches its own code. -/
def rowOf : Instr → Byte × Byte
  | .rdcoil _ _ => (0xFF#8, 0x01#8)
  | .rddisc _ _ => (0xFF#8, 0x02#8)
  | .rdhold _ _ => (0xFF#8, 0x03#8)
  | .rdinp _ _ => (0xFF#8, 0x04#8)
  | .wrcoil _ _ => (0xFF#8, 0x05#8)
  | .wrhold _ _ => (0xFF#8, 0x06#8)
  | .wrcoils _ _ => (0xFF#8, 0x0F#8)
  | .wrholds _ _ => (0xFF#8, 0x10#8)
  | .ext _ code _ => (0xFF#8, code)
  | .unsupported0000 _ _ => (0xFF#8, 0x00#8)
  | .unsupported0707 _ _ => (0xFF#8, 0x07#8)
  | .unsupported080B _ _ _ => (0xFC#8, 0x08#8)
  | .unsupported0C0D _ _ _ => (0xFE#8, 0x0C#8)
  | .unsupported0E0E _ _ => (0xFF#8, 0x0E#8)
  | .unsupported1111 _ _ => (0xFF#8, 0x11#8)
  | .unsupported1213 _ _ _ => (0xFE#8, 0x12#8)
  | .unsupported1417 _ _ _ => (0xFC#8, 0x14#8)
  | .unsupported181F _ _ _ => (0xF8#8, 0x18#8)
  | .unsupported203F _ _ _ => (0xE0#8, 0x20#8)
  | .unsupported407F _ _ _ => (0xC0#8, 0x40#8)
  | .unsupported80FF _ _ _ => (0x80#8, 0x80#8)
  | .admGet _ => (0x07#8, 0x00#8)
  | .admSet _ _ => (0x07#8, 0x01#8)
  | .admVset _ _ => (0x07#8, 0x02#8)
  | .admExists _ => (0x07#8, 0x03#8)
  | .admDelete _ => (0x07#8, 0x04#8)
  | .admReserved5 => (0x07#8, 0x05#8)
  | .admReserved67 _ => (0x06#8, 0x06#8)

/-- The frame of a request holds its function code in byte 1. -/
theorem selectorMatches_frame (u fc : Byte) (pl : List Byte) {mask pattern : Byte} (h : fc &&& mask = pattern) :
    selectorMatches (.frame (serialize u fc pl)) mask pattern := by
  refine ⟨by simp [serialize], ?_⟩
  simpa [serialize, byteAt] using h

/-- The function code of a well-formed row lies in the row. -/
theorem rowCode_matches {ext : List Byte} {mask pattern fc : Byte} (h : rowCode ext mask pattern fc = true) :
    fc &&& mask = pattern := by
  simp only [rowCode, Bool.and_eq_true, beq_iff_eq] at h
  exact h.1

end Sys2Proof

namespace Sys2Proof.Laws.Selector

/-- The encoding of a well-formed instruction is selected by the instruction's own row of the opcode table. -/
def Statement (i : Instr) : Prop :=
  ∀ ext : List Byte, i.wellFormed ext = true → selectorMatches (encode i) (rowOf i).1 (rowOf i).2

theorem rdcoil (u : Byte) (o : AqOperands) : Statement (.rdcoil u o) :=
  fun _ _ => selectorMatches_frame u 0x01#8 _ (mask := 0xFF#8) (pattern := 0x01#8) (by decide)

theorem rddisc (u : Byte) (o : AqOperands) : Statement (.rddisc u o) :=
  fun _ _ => selectorMatches_frame u 0x02#8 _ (mask := 0xFF#8) (pattern := 0x02#8) (by decide)

theorem rdhold (u : Byte) (o : AqOperands) : Statement (.rdhold u o) :=
  fun _ _ => selectorMatches_frame u 0x03#8 _ (mask := 0xFF#8) (pattern := 0x03#8) (by decide)

theorem rdinp (u : Byte) (o : AqOperands) : Statement (.rdinp u o) :=
  fun _ _ => selectorMatches_frame u 0x04#8 _ (mask := 0xFF#8) (pattern := 0x04#8) (by decide)

theorem wrcoil (u : Byte) (o : AqOperands) : Statement (.wrcoil u o) :=
  fun _ _ => selectorMatches_frame u 0x05#8 _ (mask := 0xFF#8) (pattern := 0x05#8) (by decide)

theorem wrhold (u : Byte) (o : AqOperands) : Statement (.wrhold u o) :=
  fun _ _ => selectorMatches_frame u 0x06#8 _ (mask := 0xFF#8) (pattern := 0x06#8) (by decide)

theorem wrcoils (u : Byte) (o : AqbdOperands) : Statement (.wrcoils u o) :=
  fun _ _ => selectorMatches_frame u 0x0F#8 _ (mask := 0xFF#8) (pattern := 0x0F#8) (by decide)

theorem wrholds (u : Byte) (o : AqbdOperands) : Statement (.wrholds u o) :=
  fun _ _ => selectorMatches_frame u 0x10#8 _ (mask := 0xFF#8) (pattern := 0x10#8) (by decide)

theorem ext (u code : Byte) (p : List Byte) : Statement (.ext u code p) :=
  fun _ _ => selectorMatches_frame u _ _ (BitVec.and_allOnes (x := code))

theorem unsupported0000 (u : Byte) (p : List Byte) : Statement (.unsupported0000 u p) :=
  fun _ _ => selectorMatches_frame u 0x00#8 _ (mask := 0xFF#8) (pattern := 0x00#8) (by decide)

theorem unsupported0707 (u : Byte) (p : List Byte) : Statement (.unsupported0707 u p) :=
  fun _ _ => selectorMatches_frame u 0x07#8 _ (mask := 0xFF#8) (pattern := 0x07#8) (by decide)

theorem unsupported080B (u fc : Byte) (p : List Byte) : Statement (.unsupported080B u fc p) :=
  fun _ h => selectorMatches_frame u _ _ (rowCode_matches h)

theorem unsupported0C0D (u fc : Byte) (p : List Byte) : Statement (.unsupported0C0D u fc p) :=
  fun _ h => selectorMatches_frame u _ _ (rowCode_matches h)

theorem unsupported0E0E (u : Byte) (p : List Byte) : Statement (.unsupported0E0E u p) :=
  fun _ _ => selectorMatches_frame u 0x0E#8 _ (mask := 0xFF#8) (pattern := 0x0E#8) (by decide)

theorem unsupported1111 (u : Byte) (p : List Byte) : Statement (.unsupported1111 u p) :=
  fun _ _ => selectorMatches_frame u 0x11#8 _ (mask := 0xFF#8) (pattern := 0x11#8) (by decide)

theorem unsupported1213 (u fc : Byte) (p : List Byte) : Statement (.unsupported1213 u fc p) :=
  fun _ h => selectorMatches_frame u _ _ (rowCode_matches h)

theorem unsupported1417 (u fc : Byte) (p : List Byte) : Statement (.unsupported1417 u fc p) :=
  fun _ h => selectorMatches_frame u _ _ (rowCode_matches h)

theorem unsupported181F (u fc : Byte) (p : List Byte) : Statement (.unsupported181F u fc p) :=
  fun _ h => selectorMatches_frame u _ _ (rowCode_matches h)

theorem unsupported203F (u fc : Byte) (p : List Byte) : Statement (.unsupported203F u fc p) :=
  fun _ h => selectorMatches_frame u _ _ (rowCode_matches h)

theorem unsupported407F (u fc : Byte) (p : List Byte) : Statement (.unsupported407F u fc p) :=
  fun _ h => selectorMatches_frame u _ _ (rowCode_matches h)

theorem unsupported80FF (u fc : Byte) (p : List Byte) : Statement (.unsupported80FF u fc p) :=
  fun _ h => selectorMatches_frame u _ _ (rowCode_matches h)

theorem admGet (a : Word) : Statement (.admGet a) := fun _ _ => (by decide : BitVec.setWidth 8 0#3 &&& 0x07#8 = 0x00#8)

theorem admSet (a v : Word) : Statement (.admSet a v) := fun _ _ => (by decide : BitVec.setWidth 8 1#3 &&& 0x07#8 = 0x01#8)

theorem admVset (a v : Word) : Statement (.admVset a v) := fun _ _ => (by decide : BitVec.setWidth 8 2#3 &&& 0x07#8 = 0x02#8)

theorem admExists (a : Word) : Statement (.admExists a) := fun _ _ => (by decide : BitVec.setWidth 8 3#3 &&& 0x07#8 = 0x03#8)

theorem admDelete (a : Word) : Statement (.admDelete a) := fun _ _ => (by decide : BitVec.setWidth 8 4#3 &&& 0x07#8 = 0x04#8)

theorem admReserved5 : Statement .admReserved5 := fun _ _ => (by decide : BitVec.setWidth 8 5#3 &&& 0x07#8 = 0x05#8)

theorem admReserved67 (low : Bool) : Statement (.admReserved67 low) := by
  intro _ _
  cases low
  · exact (by decide : BitVec.setWidth 8 6#3 &&& 0x06#8 = 0x06#8)
  · exact (by decide : BitVec.setWidth 8 7#3 &&& 0x06#8 = 0x06#8)

end Sys2Proof.Laws.Selector
end

