-- ==== Sys2Proof/Laws/Step.lean ====
section
/-! SUPPORT. What a step can do, one lemma for each event it can take. -/

namespace Sys2Proof.Machine

theorem tooLong_iff (p : Params) (raw : List Byte) : tooLong p raw = true ↔ ¬ fitsBuffer p raw := by
  unfold tooLong fitsBuffer
  cases p.rxMax with
  | none => simp
  | some n => simp

/-- A delivered frame that stands for a request is fetched as that request (spec/44_dispatcher.md R153, R154). -/
theorem fetchFrame_instr {s : State} {raw : List Byte} {i : Instr} (hf : fitsBuffer s.params raw)
    (hd : decodeFrame s.params.extCodes raw = .instr i) : fetchFrame raw s = .run i s := by
  have ht : tooLong s.params raw = false := by
    rw [Bool.eq_false_iff]
    intro h
    exact (tooLong_iff _ _).1 h hf
  unfold fetchFrame
  rw [ht]
  cases hp : parse raw with
  | none => rw [decodeFrame, hp] at hd; cases hd
  | some f => simp [hd]

/-- What the cycle of a delivered frame does: `FrameError`, `BadCrc`, or the cycle of its request (R153, R154). -/
theorem frame_cases (raw : List Byte) (s : State) :
    (((raw.length < 4 ∨ ¬ fitsBuffer s.params raw) ∧
      ∃ sc, perform (fetchFrame raw s) = .next { drop .frameError s with scratch := sc })) ∨
    (4 ≤ raw.length ∧ fitsBuffer s.params raw ∧ ¬ crcCorrect raw ∧ ∃ f, parse raw = some f ∧
      perform (fetchFrame raw s) = .next { drop .badCrc s with
        scratch := { s.scratch with
          raw := raw, fAddr := f.addr, fFc := f.fc, fPayload := f.payload, fCrc := f.crc
          crc := bodyCrc f.addr f.fc f.payload } }) ∨
    (4 ≤ raw.length ∧ fitsBuffer s.params raw ∧ crcCorrect raw ∧ ∃ i r,
      decode s.params.extCodes (.frame raw) = .instr i ∧ Instr.request? i = some r ∧ r.addr = byteAt raw 0 ∧
      r.fc = byteAt raw 1 ∧ r.payload = (raw.drop 2).take (raw.length - 4) ∧
      serialize r.addr r.fc r.payload = raw ∧ exec i s = .next (runRequest r s) ∧
      perform (fetchFrame raw s) = .next (runRequest r s)) := by
  by_cases hf : fitsBuffer s.params raw
  · have ht : tooLong s.params raw = false := by
      rw [Bool.eq_false_iff]
      intro h
      exact (tooLong_iff _ _).1 h hf
    by_cases hl : raw.length < 4
    · refine .inl ⟨.inl hl, { s.scratch with raw := raw }, ?_⟩
      simp only [fetchFrame, ht, parse_short hl]
      rfl
    · have hl' : 4 ≤ raw.length := by omega
      obtain ⟨f, hp⟩ := parse_isSome hl'
      by_cases hc : crcCorrect raw
      · obtain ⟨i, hd, hi⟩ := (decodeFrame_of_parse s.params.extCodes hp).1 hc
        obtain ⟨_, r, hr, e1, e2, e3, _⟩ := decodeRequest_spec hi
        obtain ⟨_, f1, f2, f3, _⟩ := parse_fields hp
        have hx := exec_request hr s
        refine .inr (.inr ⟨hl', hf, hc, i, r, hd, hr, by rw [e1, f1], by rw [e2, f2], by rw [e3, f3], ?_, hx, ?_⟩)
        · rw [e1, e2, e3]
          exact serialize_of_parse hp hc
        · rw [fetchFrame_instr hf hd]
          exact hx
      · refine .inr (.inl ⟨hl', hf, hc, f, hp, ?_⟩)
        have hne : bodyCrc f.addr f.fc f.payload ≠ f.crc := by
          intro he
          exact hc ((checkCrc_iff hp).1 (by simp [checkCrc, he]))
        simp only [fetchFrame, ht, hp, (decodeFrame_of_parse _ hp).2 hc, perform, Bool.false_eq_true, if_false]
        simp [addressEdge, latchFrame, latchRaw, hne, drop]
  · refine .inl ⟨.inr hf, s.scratch, ?_⟩
    simp only [fetchFrame, (tooLong_iff _ _).2 hf, if_true]
    rfl

theorem step_frame {s : State} {raw : List Byte} {rest : List Event} (h : State.Receives s raw rest) :
    step s = perform (fetchFrame raw { s with pending := rest }) := by
  simp [step, fetch, h.1, h.2, fetchEvent, fetchRequest]

theorem step_adm {s : State} {op : BitVec 3} {addr wdata : Word} {rest : List Event} (hp : s.phase = .awaitingFrame)
    (he : s.pending = .request (.adm op addr wdata) :: rest) :
    step s = exec (decodeAdm op addr wdata) { s with pending := rest } := by
  simp [step, fetch, hp, he, fetchEvent, fetchRequest, perform]

theorem decodeAdm_request (op : BitVec 3) (addr wdata : Word) : Instr.request? (decodeAdm op addr wdata) = none := by
  unfold decodeAdm
  repeat' split
  all_goals rfl

theorem step_timeout {s : State} {rest : List Event} (hp : s.phase = .awaitingFrame)
    (he : s.pending = .timeout :: rest) : step s = .next (drop .timeout { s with pending := rest }) := by
  simp [step, fetch, hp, he, fetchEvent, perform]

theorem step_reset {s : State} {cfg : Byte} {rest : List Event} (hp : s.phase = .awaitingFrame)
    (he : s.pending = .reset cfg :: rest) : step s = .next (resetBlock cfg { s with pending := rest }) := by
  simp [step, fetch, hp, he, fetchEvent, perform]

theorem step_idle {s : State} (hp : s.phase = .awaitingFrame) (he : s.pending = []) : step s = .next s := by
  simp [step, fetch, hp, he, perform]

/-- The cycle of a delivered frame always answers a next state. -/
theorem frame_next (raw : List Byte) (s : State) : ∃ t, perform (fetchFrame raw s) = .next t := by
  rcases frame_cases raw s with ⟨_, sc, h⟩ | ⟨_, _, _, f, _, h⟩ | ⟨_, _, _, i, r, _, _, _, _, _, _, _, h⟩
  all_goals exact ⟨_, h⟩

theorem step_resetDuring {s : State} {raw : List Byte} {cfg : Byte} {rest : List Event} (hp : s.phase = .awaitingFrame)
    (he : s.pending = .resetDuring raw cfg :: rest) :
    ∃ u, perform (fetchFrame raw { s with pending := rest }) = .next u ∧
      step s = .next (cutShort cfg s u) := by
  obtain ⟨u, hu⟩ := frame_next raw { s with pending := rest }
  refine ⟨u, hu, ?_⟩
  have hf : fetch s = .cutByReset (fetchFrame raw { s with pending := rest }) cfg := by
    unfold fetch
    rw [if_pos hp, he]
    rfl
  unfold step
  rw [hf]
  dsimp only
  rw [hu]

/-- In the middle of a cycle the step finishes it (R167). -/
theorem step_inCycle {s : State} (hp : s.phase ≠ .awaitingFrame) :
    ∃ i r, decodeRequest s.params.extCodes s.scratch.fAddr s.scratch.fFc s.scratch.fPayload = some i ∧
      Instr.request? i = some r ∧ step s = .next (runRequest r s) := by
  obtain ⟨i, hi⟩ := decodeRequest_isSome s.params.extCodes s.scratch.fAddr s.scratch.fFc s.scratch.fPayload
  obtain ⟨_, r, hr, _⟩ := decodeRequest_spec hi
  refine ⟨i, r, hi, hr, ?_⟩
  simp only [step, fetch, hp, if_false, inProgress, hi, perform]
  exact exec_request hr s

end Sys2Proof.Machine
end

