-- ==== Sys2Proof/Tests/Slice0.lean ====
section
/-! SUPPORT. The model's own tests, few and small.  Expected results are those of spec/95_test_vectors.md and of the worked
examples of spec/30 to spec/45; where a frame is not in the spec its two CRC bytes were computed by hand from spec/40_crc16.md
R91 to R93, outside the model.  The theorems named `witness_…` show, for each statement with hypotheses, states and operands
that meet all of them. -/

namespace Sys2Proof.Tests

open Sys2Proof Sys2Proof.Machine

-- One theorem after the other: a kernel evaluation waits for every theorem before it, and many that wait at once hold many
-- threads.
set_option Elab.async false

/-! ### Helpers -/

/-- Between two cycles, with the table `t`. -/
def idle (t : Memory) : State := { State.reset with table := t }

/-- As `idle`, and the event `e` is delivered next. -/
def about (t : Memory) (e : Event) : State := { idle t with pending := [e] }

/-- As `about`, for a frame. -/
def hears (t : Memory) (raw : List Byte) : State := about t (.request (.frame raw))

/-- The next state, if there is one, passes the check. -/
def passes (o : Host.Outcome State Fault Refusal) (check : State → Bool) : Bool :=
  match o with
  | .next t => check t
  | .fault _ => false
  | .refused _ => false

/-- One step reports the outcome `o`, has sent the frames `tx`, and leaves the table `t`. -/
def steps (s : State) (o : CycleOutcome) (tx : List (List Byte)) (t : Memory) : Bool :=
  passes (step s) fun u => decide (u.outcome = o) && decide (u.sent = tx) && decide (u.table = t)

/-- One instruction ends with the outcome `o` and the table `t`. -/
def runs (i : Instr) (s : State) (o : CycleOutcome) (t : Memory) : Bool :=
  passes (exec i s) fun u => decide (u.outcome = o) && decide (u.table = t)

/-- The table T0 of spec/95_test_vectors.md. -/
def t0 : Memory := [⟨5, 0x0001#16⟩, ⟨40001, 0x1234#16⟩, ⟨40003, 0x0000#16⟩]

/-- A block in the middle of the cycle of a Write Holding request, after its checks. -/
def inCycle : State :=
  { idle t0 with
    phase := .rangeValidated, pending := [.request (.adm 0#3 0x0005#16 0x0000#16)]
    scratch := { Scratch.reset with
      fAddr := 0x03#8, fFc := 0x06#8, fPayload := [0x00#8, 0x01#8, 0xAA#8, 0xBB#8], w := 0x0001#16, q := 0xAABB#16 } }

/-! ### WellFormed: an ill-formed term for each check -/

theorem test_wellFormed_badLength : (Instr.rdcoil 0x03#8 (.badLength [0x00#8, 0x00#8, 0x00#8, 0x01#8])).wellFormed [] = false := by
  decide

theorem test_wellFormed_short :
    (Instr.wrcoils 0x03#8 (.short [0x00#8, 0x00#8, 0x00#8, 0x01#8, 0x00#8])).wellFormed [] = false := by decide

theorem test_wellFormed_claimed :
    (Instr.wrhold 0x03#8 (.fields 0x0000#16 0x0000#16)).wellFormed [0x06#8] = false ∧
    (Instr.unsupported0707 0x03#8 []).wellFormed [0x07#8] = false ∧
    (Instr.unsupported407F 0x03#8 0x41#8 []).wellFormed [0x41#8] = false := by decide

theorem test_wellFormed_ext : (Instr.ext 0x03#8 0x42#8 []).wellFormed [0x41#8] = false := by decide

theorem test_wellFormed_row :
    (Instr.unsupported080B 0x03#8 0x0C#8 []).wellFormed [] = false ∧
    (Instr.unsupported0C0D 0x03#8 0x0E#8 []).wellFormed [] = false ∧
    (Instr.unsupported1213 0x03#8 0x11#8 []).wellFormed [] = false ∧
    (Instr.unsupported1417 0x03#8 0x18#8 []).wellFormed [] = false ∧
    (Instr.unsupported181F 0x03#8 0x17#8 []).wellFormed [] = false ∧
    (Instr.unsupported203F 0x03#8 0x40#8 []).wellFormed [] = false ∧
    (Instr.unsupported407F 0x03#8 0x80#8 []).wellFormed [] = false ∧
    (Instr.unsupported80FF 0x03#8 0x7F#8 []).wellFormed [] = false := by decide

/-! ### Decoding: one frame for each constructor, byte by byte (spec/30_encoding.md R62 to R71) -/

/-- V-FN-1. -/
theorem test_decode_rdcoil :
    decode [] (.frame [0x03#8, 0x01#8, 0x00#8, 0x00#8, 0x00#8, 0x08#8, 0x3C#8, 0x2E#8]) =
      .instr (.rdcoil 0x03#8 (.fields 0x0000#16 0x0008#16)) := by decide +kernel

/-- V-FN-3. -/
theorem test_decode_rddisc :
    decode [] (.frame [0x03#8, 0x02#8, 0x00#8, 0x00#8, 0x00#8, 0x01#8, 0xB8#8, 0x28#8]) =
      .instr (.rddisc 0x03#8 (.fields 0x0000#16 0x0001#16)) := by decide +kernel

/-- V-VAL-1: the high byte of the address field comes first. -/
theorem test_decode_rdhold :
    decode [] (.frame [0x03#8, 0x03#8, 0x27#8, 0x0D#8, 0x00#8, 0x01#8, 0x1E#8, 0x9F#8]) =
      .instr (.rdhold 0x03#8 (.fields 0x270D#16 0x0001#16)) := by decide +kernel

/-- P3 line 13. -/
theorem test_decode_rdinp :
    decode [] (.frame [0x03#8, 0x04#8, 0x00#8, 0x01#8, 0x00#8, 0x01#8, 0x61#8, 0xE8#8]) =
      .instr (.rdinp 0x03#8 (.fields 0x0001#16 0x0001#16)) := by decide +kernel

/-- V-FN-6. -/
theorem test_decode_wrcoil :
    decode [] (.frame [0x03#8, 0x05#8, 0x00#8, 0x05#8, 0xFF#8, 0x00#8, 0x9D#8, 0xD9#8]) =
      .instr (.wrcoil 0x03#8 (.fields 0x0005#16 0xFF00#16)) := by decide +kernel

/-- V-FN-8. -/
theorem test_decode_wrhold :
    decode [] (.frame [0x03#8, 0x06#8, 0x00#8, 0x01#8, 0x12#8, 0x34#8, 0xD4#8, 0x9F#8]) =
      .instr (.wrhold 0x03#8 (.fields 0x0001#16 0x1234#16)) := by decide +kernel

/-- V-FN-12. -/
theorem test_decode_wrcoils :
    decode [] (.frame [0x03#8, 0x0F#8, 0x00#8, 0x08#8, 0x00#8, 0x0A#8, 0x02#8, 0xCD#8, 0x01#8, 0x68#8, 0x40#8]) =
      .instr (.wrcoils 0x03#8 (.fields 0x0008#16 0x000A#16 0x02#8 [0xCD#8, 0x01#8])) := by decide +kernel

/-- V-FN-10. -/
theorem test_decode_wrholds :
    decode [] (.frame [0x03#8, 0x10#8, 0x00#8, 0x02#8, 0x00#8, 0x02#8, 0x04#8, 0xAB#8, 0xCD#8, 0x00#8, 0x01#8, 0x09#8,
        0xD5#8]) =
      .instr (.wrholds 0x03#8 (.fields 0x0002#16 0x0002#16 0x04#8 [0xAB#8, 0xCD#8, 0x00#8, 0x01#8])) := by
  decide +kernel

/-- V-VAL-18 and V-VAL-15: the operand forms of a payload of the wrong length. -/
theorem test_decode_wrong_length :
    decode [] (.frame [0x03#8, 0x03#8, 0x00#8, 0x00#8, 0x00#8, 0x60#8, 0x44#8]) =
      .instr (.rdhold 0x03#8 (.badLength [0x00#8, 0x00#8, 0x00#8])) ∧
    decode [] (.frame [0x03#8, 0x0F#8, 0x00#8, 0x00#8, 0x00#8, 0x08#8, 0x55#8, 0xEF#8]) =
      .instr (.wrcoils 0x03#8 (.short [0x00#8, 0x00#8, 0x00#8, 0x08#8])) := by decide +kernel

theorem test_decode_ext :
    decode [0x41#8] (.frame [0x03#8, 0x41#8, 0x05#8, 0x71#8, 0x93#8]) = .instr (.ext 0x03#8 0x41#8 [0x05#8]) := by
  decide +kernel

/-- V-FN-23. -/
theorem test_decode_unsupported0000 :
    decode [] (.frame [0x03#8, 0x00#8, 0x01#8, 0x40#8]) = .instr (.unsupported0000 0x03#8 []) := by decide +kernel

/-- V-FN-20. -/
theorem test_decode_unsupported0707 :
    decode [] (.frame [0x03#8, 0x07#8, 0x40#8, 0x82#8]) = .instr (.unsupported0707 0x03#8 []) := by decide +kernel

theorem test_decode_unsupported080B :
    decode [] (.frame [0x03#8, 0x0B#8, 0xAA#8, 0x06#8, 0x8F#8]) = .instr (.unsupported080B 0x03#8 0x0B#8 [0xAA#8]) := by
  decide +kernel

theorem test_decode_unsupported0C0D :
    decode [] (.frame [0x03#8, 0x0D#8, 0xC0#8, 0x85#8]) = .instr (.unsupported0C0D 0x03#8 0x0D#8 []) := by decide +kernel

theorem test_decode_unsupported0E0E :
    decode [] (.frame [0x03#8, 0x0E#8, 0x01#8, 0x02#8, 0xE1#8, 0xF2#8]) =
      .instr (.unsupported0E0E 0x03#8 [0x01#8, 0x02#8]) := by decide +kernel

theorem test_decode_unsupported1111 :
    decode [] (.frame [0x03#8, 0x11#8, 0xC1#8, 0x4C#8]) = .instr (.unsupported1111 0x03#8 []) := by decide +kernel

theorem test_decode_unsupported1213 :
    decode [] (.frame [0x03#8, 0x13#8, 0x09#8, 0x4C#8, 0xF6#8]) = .instr (.unsupported1213 0x03#8 0x13#8 [0x09#8]) := by
  decide +kernel

theorem test_decode_unsupported1417 :
    decode [] (.frame [0x03#8, 0x16#8, 0x80#8, 0x8E#8]) = .instr (.unsupported1417 0x03#8 0x16#8 []) := by decide +kernel

theorem test_decode_unsupported181F :
    decode [] (.frame [0x03#8, 0x18#8, 0x01#8, 0x4A#8]) = .instr (.unsupported181F 0x03#8 0x18#8 []) := by decide +kernel

/-- V-FN-21. -/
theorem test_decode_unsupported203F :
    decode [] (.frame [0x03#8, 0x2B#8, 0x0E#8, 0x01#8, 0x00#8, 0x09#8, 0xB7#8]) =
      .instr (.unsupported203F 0x03#8 0x2B#8 [0x0E#8, 0x01#8, 0x00#8]) := by decide +kernel

theorem test_decode_unsupported407F :
    decode [] (.frame [0x03#8, 0x7F#8, 0x40#8, 0xA0#8]) = .instr (.unsupported407F 0x03#8 0x7F#8 []) := by decide +kernel

/-- V-FN-22. -/
theorem test_decode_unsupported80FF :
    decode [] (.frame [0x03#8, 0x83#8, 0x40#8, 0xE1#8]) = .instr (.unsupported80FF 0x03#8 0x83#8 []) := by decide +kernel

/-- spec/30_encoding.md R69, every operation code. -/
theorem test_decode_adm :
    decode [] (.adm 0#3 0x9C41#16 0x0000#16) = .instr (.admGet 0x9C41#16) ∧
    decode [] (.adm 1#3 0x9C41#16 0x1234#16) = .instr (.admSet 0x9C41#16 0x1234#16) ∧
    decode [] (.adm 2#3 0x0007#16 0x00FF#16) = .instr (.admVset 0x0007#16 0x00FF#16) ∧
    decode [] (.adm 3#3 0x9C43#16 0x0000#16) = .instr (.admExists 0x9C43#16) ∧
    decode [] (.adm 4#3 0x9C41#16 0x0000#16) = .instr (.admDelete 0x9C41#16) ∧
    decode [] (.adm 5#3 0x0000#16 0x0000#16) = .instr .admReserved5 ∧
    decode [] (.adm 6#3 0x0000#16 0x0000#16) = .instr (.admReserved67 false) ∧
    decode [] (.adm 7#3 0x0000#16 0x0000#16) = .instr (.admReserved67 true) := by decide +kernel

/-- V-DSP-3, V-FRM-5: what the decoder refuses, by name. -/
theorem test_decode_rejects :
    decode [] (.frame [0x03#8, 0x01#8, 0x00#8]) = .rejected .tooShort ∧
    decode [] (.frame [0x03#8, 0x03#8, 0x00#8, 0x00#8, 0x00#8, 0x02#8, 0xC5#8, 0x00#8]) = .rejected .badCrc ∧
    decode [] (.frame [0x03#8, 0x03#8, 0x00#8, 0x00#8, 0x00#8, 0x02#8, 0xE9#8, 0xC5#8]) = .rejected .badCrc := by
  decide +kernel

/-- Words of spec/opcode_table.json. -/
theorem test_decodeTableWord :
    decodeTableWord 16 0x0001 = some (.rdcoil 0x00#8 (.fields 0x0000#16 0x0000#16)) ∧
    decodeTableWord 8 0x10 = some (.wrholds 0x00#8 (.fields 0x0000#16 0x0000#16 0x00#8 [])) ∧
    decodeTableWord 8 0xFF = some (.unsupported80FF 0x00#8 0xFF#8 []) ∧
    decodeTableWord 8 0x04 = some (.admDelete 0x0000#16) := by decide +kernel

/-! ### The CRC engine and the codecs (V-CRC, V-BIT, V-FRM) -/

/-- V-CRC-1, 2, 6, 8, 12. -/
theorem test_crc16 :
    crc16 [] = 0xFFFF#16 ∧ crc16 [0x00#8] = 0x40BF#16 ∧
    crc16 [0x31#8, 0x32#8, 0x33#8, 0x34#8, 0x35#8, 0x36#8, 0x37#8, 0x38#8, 0x39#8] = 0x4B37#16 ∧
    crc16 [0x11#8, 0x03#8, 0x00#8, 0x6B#8, 0x00#8, 0x03#8] = 0x8776#16 ∧ crc16 [0xFF#8, 0xFF#8] = 0x0000#16 := by
  decide +kernel

/-- V-CRC-3, 15, 16, 17, 20. -/
theorem test_crcStep :
    crcStep 0xFFFF#16 0x01#8 = 0x807E#16 ∧ crcTable 0x01#8 = 0xC0C1#16 ∧ crcTable 0x80#8 = 0xA001#16 ∧
    crcTable 0xFF#8 = 0x4040#16 ∧ crcBit 0x7FFF#16 = 0x9FFE#16 ∧ crcBit 0x8000#16 = 0x4000#16 := by decide +kernel

/-- V-BIT-1, 2, 4, 9, 10. -/
theorem test_pack :
    let tb : Memory := [⟨0, 0xFF00#16⟩, ⟨7, 0x8000#16⟩, ⟨8, 0x0001#16⟩, ⟨9, 0x0000#16⟩]
    packBits tb 0 8 = [0x81#8] ∧ packBits tb 0 9 = [0x81#8, 0x01#8] ∧ packBits tb 7 2 = [0x03#8] ∧
    packWords tb 0 2 = [0xFF#8, 0x00#8, 0x00#8, 0x00#8] ∧
    packWords tb 7 3 = [0x80#8, 0x00#8, 0x00#8, 0x01#8, 0x00#8, 0x00#8] := by decide +kernel

/-- V-BIT-8, 11, 12. -/
theorem test_unpack :
    unpackBits [0xCD#8, 0xFF#8] 10 = [true, false, true, true, false, false, true, true, true, true] ∧
    unpackWords [0x00#8, 0x00#8, 0xFF#8, 0xFF#8, 0x80#8, 0x01#8] 3 = [0x0000#16, 0xFFFF#16, 0x8001#16] ∧
    unpackWords [0xAB#8, 0xCD#8, 0x00#8, 0x01#8] 2 = [0xABCD#16, 0x0001#16] := by decide +kernel

/-- V-FRM-1, 6, 9. -/
theorem test_frame_codec :
    parse [0x03#8, 0x03#8, 0x00#8, 0x00#8, 0x00#8, 0x02#8, 0xC5#8, 0xE9#8] =
      some ⟨0x03#8, 0x03#8, [0x00#8, 0x00#8, 0x00#8, 0x02#8], 0xE9C5#16⟩ ∧
    serialize 0x03#8 0x03#8 [0x00#8, 0x00#8, 0x00#8, 0x00#8] =
      [0x03#8, 0x03#8, 0x00#8, 0x00#8, 0x00#8, 0x00#8, 0x44#8, 0x28#8] ∧
    serialize 0xFF#8 0xFF#8 [] = [0xFF#8, 0xFF#8, 0x00#8, 0x00#8] := by decide +kernel

/-! ### The register table (V-TAB) -/

/-- V-TAB-1, 2. -/
theorem test_find :
    Memory.find t0 40001 = (true, 1) ∧ Memory.find t0 5 = (true, 0) ∧ Memory.find t0 40003 = (true, 2) ∧
    Memory.find t0 0 = (false, 0) ∧ Memory.find t0 6 = (false, 1) ∧ Memory.find t0 40002 = (false, 2) ∧
    Memory.find t0 65535 = (false, 3) ∧ Memory.find [] 0 = (false, 0) := by decide +kernel

/-- V-TAB-6, 9, 10, 11. -/
theorem test_verifyAndSet :
    Memory.verifyAndSet 65536 t0 7 0x00FF#16 =
      ([⟨5, 0x0001#16⟩, ⟨7, 0x00FF#16⟩, ⟨40001, 0x1234#16⟩, ⟨40003, 0x0000#16⟩], true) ∧
    Memory.verifyAndSet 3 t0 7 0x00FF#16 = (t0, false) ∧ Memory.verifyAndSet 3 t0 7 0x0000#16 = (t0, true) ∧
    Memory.verifyAndSet 3 t0 5 0x0009#16 =
      ([⟨5, 0x0009#16⟩, ⟨40001, 0x1234#16⟩, ⟨40003, 0x0000#16⟩], true) := by decide +kernel

/-! ### The status registers -/

/-- spec/10_state.md R16 and spec/60_exceptions.md R201, every code. -/
theorem test_status_codes :
    [Phase.awaitingFrame, .parsed, .addressChecked, .functionChecked, .rangeValidated, .executed, .responseReady].map
      (fun p => (statusRegisters { idle t0 with phase := p }).phase) = [0#3, 1#3, 2#3, 3#3, 4#3, 5#3, 6#3] ∧
    [CycleOutcome.none, .normal, .timeout, .frameError, .badCrc, .notRecipient, .illegalFunction, .illegalAddress,
        .illegalValue, .deviceFailure].map (fun o => (statusRegisters { idle t0 with outcome := o }).outcome) =
      [0#4, 1#4, 2#4, 3#4, 4#4, 5#4, 6#4, 7#4, 8#4, 9#4] := by decide

/-! ### One step of each instruction -/

/-- V-FN-1. -/
theorem test_step_rdcoil :
    steps (hears [⟨5, 0x0001#16⟩] [0x03#8, 0x01#8, 0x00#8, 0x00#8, 0x00#8, 0x08#8, 0x3C#8, 0x2E#8]) .normal
      [[0x03#8, 0x01#8, 0x20#8, 0x81#8, 0x88#8]] [⟨5, 0x0001#16⟩] = true := by decide +kernel

/-- V-VAL-21: the value check comes first. -/
theorem test_step_rdcoil_value_first :
    steps (hears [] [0x03#8, 0x01#8, 0xFF#8, 0xFF#8, 0x00#8, 0x00#8, 0x3D#8, 0xCC#8]) .illegalValue
      [[0x03#8, 0x81#8, 0x03#8, 0xA1#8, 0x91#8]] [] = true := by decide +kernel

/-- P3 line 6. -/
theorem test_step_rddisc :
    steps (hears [⟨10002, 0xFF00#16⟩, ⟨10003, 0x0000#16⟩]
        [0x03#8, 0x02#8, 0x00#8, 0x00#8, 0x00#8, 0x08#8, 0x78#8, 0x2E#8]) .normal
      [[0x03#8, 0x02#8, 0x04#8, 0x81#8, 0x63#8]] [⟨10002, 0xFF00#16⟩, ⟨10003, 0x0000#16⟩] = true := by decide +kernel

/-- V-FN-9. -/
theorem test_step_rdhold :
    steps (hears [⟨40001, 0x1234#16⟩] [0x03#8, 0x03#8, 0x00#8, 0x00#8, 0x00#8, 0x02#8, 0xC5#8, 0xE9#8]) .normal
      [[0x03#8, 0x03#8, 0x00#8, 0x00#8, 0x12#8, 0x34#8, 0x49#8, 0x5F#8]] [⟨40001, 0x1234#16⟩] = true := by
  decide +kernel

/-- V-FN-14: with the byte count. -/
theorem test_step_rdhold_byte_count :
    passes (step { hears [⟨40001, 0x1234#16⟩] [0x03#8, 0x03#8, 0x00#8, 0x00#8, 0x00#8, 0x02#8, 0xC5#8, 0xE9#8] with
        params := { Params.default with respByteCount := true } })
      (fun u => decide (u.sent = [[0x03#8, 0x03#8, 0x04#8, 0x00#8, 0x00#8, 0x12#8, 0x34#8, 0xD4#8, 0x84#8]])) = true := by
  decide +kernel

/-- P3 line 7. -/
theorem test_step_rdinp :
    steps (hears [⟨30000, 0x00FA#16⟩, ⟨30001, 0xFFFF#16⟩]
        [0x03#8, 0x04#8, 0x00#8, 0x00#8, 0x00#8, 0x03#8, 0xB1#8, 0xE9#8]) .normal
      [[0x03#8, 0x04#8, 0x00#8, 0xFA#8, 0xFF#8, 0xFF#8, 0x00#8, 0x00#8, 0x9D#8, 0xEE#8]]
      [⟨30000, 0x00FA#16⟩, ⟨30001, 0xFFFF#16⟩] = true := by decide +kernel

/-- V-FN-7: the entry stays, with value 0. -/
theorem test_step_wrcoil :
    steps (hears [⟨5, 0x0001#16⟩] [0x03#8, 0x05#8, 0x00#8, 0x05#8, 0x00#8, 0x00#8, 0xDC#8, 0x29#8]) .normal
      [[0x03#8, 0x05#8, 0x00#8, 0x05#8, 0x00#8, 0x00#8, 0xDC#8, 0x29#8]] [⟨5, 0x0000#16⟩] = true := by decide +kernel

/-- V-VAL-6. -/
theorem test_step_wrcoil_illegal :
    steps (hears [] [0x03#8, 0x05#8, 0xFF#8, 0xFF#8, 0x00#8, 0x01#8, 0x0D#8, 0xCC#8]) .illegalValue
      [[0x03#8, 0x85#8, 0x03#8, 0xA3#8, 0x51#8]] [] = true := by decide +kernel

/-- V-VAL-3. -/
theorem test_step_wrhold :
    steps (hears [] [0x03#8, 0x06#8, 0x27#8, 0x0E#8, 0x00#8, 0x07#8, 0xA2#8, 0x9D#8]) .normal
      [[0x03#8, 0x06#8, 0x27#8, 0x0E#8, 0x00#8, 0x07#8, 0xA2#8, 0x9D#8]] [⟨49998, 0x0007#16⟩] = true := by decide +kernel

/-- V-DSP-8: a broadcast is executed and not answered. -/
theorem test_step_wrhold_broadcast :
    steps (hears [] [0x00#8, 0x06#8, 0x00#8, 0x09#8, 0xBE#8, 0xEF#8, 0x68#8, 0x35#8]) .normal []
      [⟨40009, 0xBEEF#16⟩] = true := by decide +kernel

/-- V-FN-12. -/
theorem test_step_wrcoils :
    steps (hears [] [0x03#8, 0x0F#8, 0x00#8, 0x08#8, 0x00#8, 0x0A#8, 0x02#8, 0xCD#8, 0x01#8, 0x68#8, 0x40#8]) .normal
      [[0x03#8, 0x0F#8, 0x00#8, 0x08#8, 0x00#8, 0x0A#8, 0x55#8, 0xEC#8]]
      [⟨8, 0x0001#16⟩, ⟨9, 0x0000#16⟩, ⟨10, 0x0001#16⟩, ⟨11, 0x0001#16⟩, ⟨12, 0x0000#16⟩, ⟨13, 0x0000#16⟩,
        ⟨14, 0x0001#16⟩, ⟨15, 0x0001#16⟩, ⟨16, 0x0001#16⟩, ⟨17, 0x0000#16⟩] = true := by decide +kernel

/-- V-VAL-14. -/
theorem test_step_wrcoils_byte_count :
    steps (hears [] [0x03#8, 0x0F#8, 0x00#8, 0x00#8, 0x00#8, 0x09#8, 0x01#8, 0xFF#8, 0x6E#8, 0xCC#8]) .illegalValue
      [[0x03#8, 0x8F#8, 0x03#8, 0xA5#8, 0xF1#8]] [] = true := by decide +kernel

/-- V-FN-10. -/
theorem test_step_wrholds :
    steps (hears [⟨40001, 0x1234#16⟩]
        [0x03#8, 0x10#8, 0x00#8, 0x02#8, 0x00#8, 0x02#8, 0x04#8, 0xAB#8, 0xCD#8, 0x00#8, 0x01#8, 0x09#8, 0xD5#8]) .normal
      [[0x03#8, 0x10#8, 0x00#8, 0x02#8, 0x00#8, 0x02#8, 0xE1#8, 0xEA#8]]
      [⟨40001, 0x1234#16⟩, ⟨40002, 0xABCD#16⟩, ⟨40003, 0x0001#16⟩] = true := by decide +kernel

/-- P2 line 2: a full table. -/
theorem test_step_wrholds_device_failure :
    steps { hears [⟨40000, 0x1111#16⟩]
          [0x03#8, 0x10#8, 0x00#8, 0x01#8, 0x00#8, 0x03#8, 0x06#8, 0x00#8, 0x00#8, 0x22#8, 0x22#8, 0x33#8, 0x33#8,
            0x4E#8, 0x90#8] with
        params := { Params.default with tableCap := 2 } } .deviceFailure
      [[0x03#8, 0x90#8, 0x04#8, 0xEC#8, 0x03#8]] [⟨40000, 0x1111#16⟩, ⟨40001, 0x0000#16⟩] = true := by decide +kernel

/-- V-FN-21, V-FN-22, V-FN-23: the unsupported codes. -/
theorem test_step_unsupported :
    steps (hears [] [0x03#8, 0x2B#8, 0x0E#8, 0x01#8, 0x00#8, 0x09#8, 0xB7#8]) .illegalFunction
      [[0x03#8, 0xAB#8, 0x01#8, 0x3F#8, 0x30#8]] [] = true ∧
    steps (hears [] [0x03#8, 0x83#8, 0x40#8, 0xE1#8]) .illegalFunction
      [[0x03#8, 0x83#8, 0x01#8, 0x21#8, 0x30#8]] [] = true ∧
    steps (hears [] [0x03#8, 0x00#8, 0x01#8, 0x40#8]) .illegalFunction
      [[0x03#8, 0x80#8, 0x01#8, 0x21#8, 0xC0#8]] [] = true := by decide +kernel

/-- P3 line 9 and V-TAB-8: the administrative port. -/
theorem test_step_adm :
    passes (step (about [⟨20000, 0x5555#16⟩] (.request (.adm 0#3 0x4E20#16 0x0000#16))))
      (fun u => decide (u.admOut = ⟨some 0x5555#16, none⟩)) = true ∧
    passes (step (about [⟨10003, 0x0000#16⟩] (.request (.adm 3#3 0x2713#16 0x0000#16))))
      (fun u => decide (u.admOut = ⟨none, some true⟩)) = true ∧
    passes (step (about [⟨5, 0x0000#16⟩, ⟨7, 0x00FF#16⟩, ⟨40001, 0x1234#16⟩, ⟨40003, 0x0000#16⟩]
        (.request (.adm 4#3 0x9C41#16 0x0000#16))))
      (fun u => decide (u.table = [⟨5, 0x0000#16⟩, ⟨7, 0x00FF#16⟩, ⟨40003, 0x0000#16⟩])) = true := by decide +kernel

/-- V-DSP-6, V-DSP-12, V-FRM-10 with V-DSP-13: the silent outcomes and a frame without a payload. -/
theorem test_step_dispatch :
    steps (hears [] [0x07#8, 0x03#8, 0x00#8, 0x00#8, 0x00#8, 0x02#8, 0xC5#8, 0x00#8]) .badCrc [] [] = true ∧
    steps { hears [] [0x03#8, 0x06#8, 0x00#8, 0x00#8, 0x00#8, 0x01#8, 0x49#8, 0xE8#8] with unitId := 0x00#8 }
      .notRecipient [] [] = true ∧
    steps (hears [] [0x03#8, 0x03#8, 0x41#8, 0x41#8]) .illegalValue
      [[0x03#8, 0x83#8, 0x03#8, 0xA0#8, 0xF1#8]] [] = true := by decide +kernel

/-- spec/44_dispatcher.md R163: a block in the middle of a cycle finishes it, and the operation that waits is not taken. -/
theorem test_step_in_cycle :
    passes (step inCycle) (fun u =>
      decide (u.phase = .awaitingFrame) && decide (u.pending = inCycle.pending) &&
      decide (Memory.lookup u.table 40001 = some 0xAABB#16)) = true := by decide +kernel

/-- A table word is run as the first instruction after reset. -/
theorem test_withFetchWord :
    passes (step (State.reset.withFetchWord 8 0x07)) (fun u => decide (u.outcome = .illegalFunction)) = true ∧
    passes (step (State.reset.withFetchWord 8 0x02)) (fun u => decide (u.admOut = ⟨none, some true⟩)) = true := by
  decide +kernel

/-! ### Witnesses: the hypotheses of the statements can be met, each clause at a boundary -/

/-- A frame for this block: V-FN-1. -/
def goodFrame : List Byte := [0x03#8, 0x01#8, 0x00#8, 0x00#8, 0x00#8, 0x08#8, 0x3C#8, 0x2E#8]

/-- V-DSP-7: for another peripheral. -/
def foreignFrame : List Byte := [0x07#8, 0x03#8, 0x00#8, 0x00#8, 0x00#8, 0x01#8, 0x84#8, 0x6C#8]

/-- V-DSP-8: a broadcast. -/
def broadcastFrame : List Byte := [0x00#8, 0x06#8, 0x00#8, 0x09#8, 0xBE#8, 0xEF#8, 0x68#8, 0x35#8]

/-- V-DSP-4: four bytes, and a wrong CRC. -/
def badFrame : List Byte := [0x03#8, 0x03#8, 0x00#8, 0x00#8]

theorem fits_default (t : Memory) (raw raw' : List Byte) : fitsBuffer (hears t raw').params raw := by
  intro n h
  cases h

theorem witness_ResetEmptiesTheTableAndLoadsUnitId :
    (about t0 (.reset 0x09#8)).phase = .awaitingFrame ∧ (about t0 (.reset 0x09#8)).pending = .reset 0x09#8 :: [] := by decide

/-- The ends of the parameters' ranges. -/
theorem witness_ResetStateIsLegal :
    Params.wf Params.default = true ∧ Params.wf ⟨1, some 264, true, [0x41#8, 0x7F#8]⟩ = true ∧
    Params.wf ⟨0, none, false, []⟩ = false ∧ Params.wf ⟨65537, none, false, []⟩ = false ∧
    Params.wf ⟨1, some 263, false, []⟩ = false ∧ Params.wf ⟨1, none, false, [0x06#8]⟩ = false ∧
    Params.wf ⟨1, none, false, [0x80#8]⟩ = false := by decide

theorem witness_StepKeepsLegalStates :
    State.Inv (hears t0 goodFrame) ∧ State.Inv (about t0 (.request (.adm 1#3 0xFFFF#16 0x0001#16))) ∧
    State.Inv (about t0 (.resetDuring goodFrame 0x00#8)) := by decide +kernel

/-- Both cases: a block in the middle of a cycle, and one that waits with nothing to take. -/
theorem witness_EveryStepEndsAndTakesAtMostOneEvent :
    inCycle.phase ≠ .awaitingFrame ∧ (idle t0).phase = .awaitingFrame ∧ (idle t0).pending = [] := by decide

theorem witness_StepRunsTheDecodedInstruction :
    (State.Receives (hears t0 goodFrame) goodFrame [] ∧ fitsBuffer (hears t0 goodFrame).params goodFrame ∧
      decode (hears t0 goodFrame).params.extCodes (.frame goodFrame) =
        .instr (.rdcoil 0x03#8 (.fields 0x0000#16 0x0008#16))) ∧
    ((about t0 (.request (.adm 3#3 0x0005#16 0x0000#16))).phase = .awaitingFrame ∧
      (about t0 (.request (.adm 3#3 0x0005#16 0x0000#16))).pending = .request (.adm 3#3 0x0005#16 0x0000#16) :: [] ∧
      decode [] (.adm 3#3 0x0005#16 0x0000#16) = .instr (.admExists 0x0005#16)) :=
  ⟨⟨by decide, fits_default _ _ _, by decide +kernel⟩, by decide +kernel⟩

theorem witness_TimeoutOnlyReports :
    (about t0 .timeout).phase = .awaitingFrame ∧ (about t0 .timeout).pending = .timeout :: [] := by decide

/-- The two lengths where the clauses meet, and the receive buffer's. -/
theorem witness_FrameErrorOrParsedFields :
    State.Receives (hears t0 [0x03#8, 0x01#8, 0x00#8]) [0x03#8, 0x01#8, 0x00#8] [] ∧
    State.Receives (hears t0 badFrame) badFrame [] ∧ badFrame.length = 4 ∧ fitsBuffer (hears t0 badFrame).params badFrame ∧
    fitsBuffer ⟨1, some 264, false, []⟩ (List.replicate 264 0x03#8) ∧
    ¬ fitsBuffer ⟨1, some 264, false, []⟩ (List.replicate 265 0x03#8) := by
  refine ⟨by decide, by decide, rfl, fits_default _ _ _, ?_, ?_⟩
  · intro n h
    cases h
    decide +kernel
  · intro h
    exact absurd (h 264 rfl) (by decide +kernel)

theorem witness_WrongCrcIsDroppedSilently :
    State.Receives (hears t0 badFrame) badFrame [] ∧ 4 ≤ badFrame.length ∧ fitsBuffer (hears t0 badFrame).params badFrame ∧
    ¬ crcCorrect badFrame := ⟨by decide, by decide, fits_default _ _ _, by decide +kernel⟩

theorem witness_ForeignFrameIsDroppedSilently :
    State.Receives (hears t0 foreignFrame) foreignFrame [] ∧ 4 ≤ foreignFrame.length ∧
    fitsBuffer (hears t0 foreignFrame).params foreignFrame ∧ crcCorrect foreignFrame ∧
    byteAt foreignFrame 0 ≠ 0x00#8 ∧ byteAt foreignFrame 0 ≠ (hears t0 foreignFrame).unitId :=
  ⟨by decide, by decide, fits_default _ _ _, by decide +kernel⟩

theorem witness_BroadcastExecutesLikeAddressed :
    (Instr.request? (.wrhold 0x00#8 (.fields 0x0009#16 0xBEEF#16))).isSome = true ∧ (idle t0).phase = .awaitingFrame ∧
    (idle t0).unitId ≠ 0x00#8 := by decide

/-- Both clauses: a broadcast, and a frame with any other address byte. -/
theorem witness_UnitIdZeroNeverSends :
    (∀ raw, ({ hears t0 raw with unitId := 0x00#8 } : State).phase = .awaitingFrame ∧
      ({ hears t0 raw with unitId := 0x00#8 } : State).unitId = 0x00#8 ∧
      ({ hears t0 raw with unitId := 0x00#8 } : State).pending = .request (.frame raw) :: []) ∧
    4 ≤ broadcastFrame.length ∧ crcCorrect broadcastFrame ∧ byteAt broadcastFrame 0 = 0x00#8 ∧
    4 ≤ goodFrame.length ∧ crcCorrect goodFrame ∧ byteAt goodFrame 0 ≠ 0x00#8 :=
  ⟨fun _ => ⟨rfl, rfl, rfl⟩, by decide +kernel⟩

/-- The clause that answers, and an event of the second part. -/
theorem witness_AlwaysAnswersExactlyOnce :
    (State.Receives (hears t0 goodFrame) goodFrame [] ∧ 4 ≤ goodFrame.length ∧
      fitsBuffer (hears t0 goodFrame).params goodFrame ∧ crcCorrect goodFrame ∧
      byteAt goodFrame 0 = (hears t0 goodFrame).unitId ∧ (hears t0 goodFrame).unitId ≠ 0x00#8) ∧
    ((about t0 .timeout).phase = .awaitingFrame ∧
      (∀ raw rest, (about t0 .timeout).pending ≠ .request (.frame raw) :: rest) ∧
      (∀ raw cfg rest, (about t0 .timeout).pending ≠ .resetDuring raw cfg :: rest)) :=
  ⟨⟨by decide, by decide, fits_default _ _ _, by decide +kernel⟩, rfl, fun _ _ => nofun, fun _ _ _ => nofun⟩

theorem witness_ResetDuringCycleAbandonsIt :
    (about t0 (.resetDuring goodFrame 0x09#8)).phase = .awaitingFrame ∧
    (about t0 (.resetDuring goodFrame 0x09#8)).pending = .resetDuring goodFrame 0x09#8 :: [] := by decide

theorem witness_IdentityChangesOnlyAtReset :
    ∀ cfg rest, (about t0 .timeout).pending ≠ .reset cfg :: rest ∧
      ∀ raw, (about t0 .timeout).pending ≠ .resetDuring raw cfg :: rest := fun _ _ => ⟨nofun, fun _ => nofun⟩

theorem witness_ScratchStateNeverLeaks :
    (hears t0 goodFrame).phase = .awaitingFrame ∧ inCycle.scratch ≠ (hears t0 goodFrame).scratch := by decide

theorem witness_StatusRegistersReadTheState : State.Inv (idle t0) ∧ State.Inv State.reset ∧ ¬ State.Inv inCycle := by
  decide +kernel

theorem witness_PhaseMovesOnlyAlongTheEdges :
    (Instr.request? (.wrcoils 0x03#8 (.fields 0x0000#16 0x0001#16 0x01#8 [0x01#8]))).isSome = true := by decide

/-- A request for each of the four exceptions (V-FN-20, V-VAL-4, V-VAL-7, P2 line 6). -/
theorem witness_ExceptionResponseFrame :
    State.Takes (idle []) 0x03#8 ∧
    runs (.unsupported0707 0x03#8 []) (idle []) (exceptionOutcome .illegalFunction) [] = true ∧
    runs (.wrhold 0x03#8 (.fields 0x270F#16 0x0007#16)) (idle []) (exceptionOutcome .illegalAddress) [] = true ∧
    runs (.rdhold 0x03#8 (.fields 0x0000#16 0x007E#16)) (idle []) (exceptionOutcome .illegalValue) [] = true ∧
    runs (.wrcoil 0x03#8 (.fields 0x0000#16 0xFF00#16))
      { idle [⟨40000, 0x4444#16⟩, ⟨40001, 0x0000#16⟩] with params := { Params.default with tableCap := 2 } }
      (exceptionOutcome .deviceFailure) [⟨40000, 0x4444#16⟩, ⟨40001, 0x0000#16⟩] = true := by decide +kernel

theorem witness_RequestsWriteOnlyCoilsAndHoldings :
    (Instr.request? (.wrhold 0x03#8 (.fields 0x0000#16 0x0001#16))).isSome = true ∧ (idle t0).phase = .awaitingFrame ∧
    Memory.wf (idle t0).table = true ∧ protocolWritable 9998 ∧ ¬ protocolWritable 9999 ∧ ¬ protocolWritable 39999 ∧
    protocolWritable 40000 ∧ protocolWritable 49998 ∧ ¬ protocolWritable 49999 := by decide

/-- Addressed and broadcast; the ends of the amounts and of the addresses (the bound 7000 and the start 9997 by the checks
alone). -/
theorem witness_ReadCoilsRule :
    State.Takes (idle t0) 0x03#8 ∧ State.Takes (idle t0) 0x00#8 ∧
    runs (.rdcoil 0x03#8 (.badLength [])) (idle t0) .illegalValue t0 = true ∧
    runs (.rdcoil 0x03#8 (.fields 0x0000#16 0x0000#16)) (idle t0) .illegalValue t0 = true ∧
    runs (.rdcoil 0x03#8 (.fields 0x270F#16 0x1B59#16)) (idle t0) .illegalValue t0 = true ∧
    runs (.rdcoil 0x03#8 (.fields 0x270E#16 0x0001#16)) (idle t0) .illegalAddress t0 = true ∧
    runs (.rdcoil 0x03#8 (.fields 0x270D#16 0x0001#16)) (idle t0) .normal t0 = true ∧
    firstFailure (amountOk 7000 0x1B58#16) (rangeAddressOk 0x0BB6#16 0x1B58#16) = none ∧
    firstFailure (amountOk 7000 0x1B58#16) (rangeAddressOk 0x0BB7#16 0x1B58#16) = some .illegalAddress := by
  decide +kernel

theorem witness_ReadDiscretesRule :
    State.Takes (idle t0) 0x03#8 ∧
    runs (.rddisc 0x03#8 (.badLength [])) (idle t0) .illegalValue t0 = true ∧
    runs (.rddisc 0x03#8 (.fields 0x0000#16 0x0000#16)) (idle t0) .illegalValue t0 = true ∧
    runs (.rddisc 0x03#8 (.fields 0x0000#16 0x1B59#16)) (idle t0) .illegalValue t0 = true ∧
    runs (.rddisc 0x03#8 (.fields 0x270E#16 0x0001#16)) (idle t0) .illegalAddress t0 = true ∧
    runs (.rddisc 0x03#8 (.fields 0x270D#16 0x0001#16)) (idle t0) .normal t0 = true := by decide +kernel

/-- V-VAL-1, 2, 7, 8, 9. -/
theorem witness_ReadHoldingsRule :
    State.Takes (idle t0) 0x03#8 ∧
    runs (.rdhold 0x03#8 (.badLength [])) (idle t0) .illegalValue t0 = true ∧
    runs (.rdhold 0x03#8 (.fields 0x0000#16 0x0000#16)) (idle t0) .illegalValue t0 = true ∧
    runs (.rdhold 0x03#8 (.fields 0x0000#16 0x007E#16)) (idle t0) .illegalValue t0 = true ∧
    runs (.rdhold 0x03#8 (.fields 0x2691#16 0x007D#16)) (idle t0) .normal t0 = true ∧
    runs (.rdhold 0x03#8 (.fields 0x2692#16 0x007D#16)) (idle t0) .illegalAddress t0 = true ∧
    runs (.rdhold 0x03#8 (.fields 0x270D#16 0x0001#16)) (idle t0) .normal t0 = true ∧
    runs (.rdhold 0x03#8 (.fields 0x270E#16 0x0001#16)) (idle t0) .illegalAddress t0 = true := by decide +kernel

theorem witness_ReadInputsRule :
    State.Takes (idle t0) 0x03#8 ∧
    runs (.rdinp 0x03#8 (.badLength [])) (idle t0) .illegalValue t0 = true ∧
    runs (.rdinp 0x03#8 (.fields 0x0000#16 0x0000#16)) (idle t0) .illegalValue t0 = true ∧
    runs (.rdinp 0x03#8 (.fields 0x0000#16 0x007E#16)) (idle t0) .illegalValue t0 = true ∧
    runs (.rdinp 0x03#8 (.fields 0x2691#16 0x007D#16)) (idle t0) .normal t0 = true ∧
    runs (.rdinp 0x03#8 (.fields 0x2692#16 0x007D#16)) (idle t0) .illegalAddress t0 = true := by decide +kernel

/-- A table with one entry and no room for another. -/
def full : State := { idle [⟨5, 0x0001#16⟩] with params := { Params.default with tableCap := 1 } }

/-- V-VAL-5, and the ends of the address range; a write of 1 to a full table. -/
theorem witness_WriteCoilRule :
    State.Takes (idle []) 0x03#8 ∧ State.Takes full 0x03#8 ∧
    runs (.wrcoil 0x03#8 (.badLength [])) (idle []) .illegalValue [] = true ∧
    runs (.wrcoil 0x03#8 (.fields 0x270F#16 0x0001#16)) (idle []) .illegalValue [] = true ∧
    runs (.wrcoil 0x03#8 (.fields 0x270F#16 0x0000#16)) (idle []) .illegalAddress [] = true ∧
    runs (.wrcoil 0x03#8 (.fields 0x270E#16 0xFF00#16)) (idle []) .normal [⟨9998, 0x0001#16⟩] = true ∧
    runs (.wrcoil 0x03#8 (.fields 0x0006#16 0xFF00#16)) full .deviceFailure [⟨5, 0x0001#16⟩] = true := by decide +kernel

/-- V-VAL-3, 4. -/
theorem witness_WriteHoldingRule :
    State.Takes (idle []) 0x03#8 ∧ State.Takes full 0x03#8 ∧
    runs (.wrhold 0x03#8 (.badLength [])) (idle []) .illegalValue [] = true ∧
    runs (.wrhold 0x03#8 (.fields 0x270F#16 0x0007#16)) (idle []) .illegalAddress [] = true ∧
    runs (.wrhold 0x03#8 (.fields 0x270E#16 0x0007#16)) (idle []) .normal [⟨49998, 0x0007#16⟩] = true ∧
    runs (.wrhold 0x03#8 (.fields 0x0000#16 0x0007#16)) full .deviceFailure [⟨5, 0x0001#16⟩] = true := by decide +kernel

/-- V-VAL-14, 15 and the ends of the ranges; V-VAL-20: a byte count of 256 is not 0. -/
theorem witness_WriteCoilsRule :
    State.Takes (idle []) 0x03#8 ∧ State.Takes full 0x03#8 ∧
    runs (.wrcoils 0x03#8 (.short [])) (idle []) .illegalValue [] = true ∧
    runs (.wrcoils 0x03#8 (.fields 0x0000#16 0x0000#16 0x00#8 [])) (idle []) .illegalValue [] = true ∧
    runs (.wrcoils 0x03#8 (.fields 0x0000#16 0x0009#16 0x01#8 [0xFF#8])) (idle []) .illegalValue [] = true ∧
    runs (.wrcoils 0x03#8 (.fields 0x0000#16 0x0001#16 0x01#8 [])) (idle []) .illegalValue [] = true ∧
    runs (.wrcoils 0x03#8 (.fields 0x270E#16 0x0001#16 0x01#8 [0x01#8])) (idle []) .illegalAddress [] = true ∧
    runs (.wrcoils 0x03#8 (.fields 0x270D#16 0x0001#16 0x01#8 [0x01#8])) (idle []) .normal [⟨9997, 0x0001#16⟩] = true ∧
    runs (.wrcoils 0x03#8 (.fields 0x0006#16 0x0001#16 0x01#8 [0x01#8])) full .deviceFailure [⟨5, 0x0001#16⟩] = true ∧
    coilsValueOk 0x07F8#16 0xFF#8 (List.replicate 255 0xFF#8) = true ∧
    coilsValueOk 0x07F9#16 0x00#8 (List.replicate 256 0xFF#8) = false := by decide +kernel

/-- V-VAL-16 and the ends of the ranges. -/
theorem witness_WriteHoldingsRule :
    State.Takes (idle []) 0x03#8 ∧ State.Takes full 0x03#8 ∧
    runs (.wrholds 0x03#8 (.short [])) (idle []) .illegalValue [] = true ∧
    runs (.wrholds 0x03#8 (.fields 0x0000#16 0x0000#16 0x00#8 [])) (idle []) .illegalValue [] = true ∧
    runs (.wrholds 0x03#8 (.fields 0x0000#16 0x0001#16 0x03#8 [0x00#8, 0x00#8, 0x00#8])) (idle []) .illegalValue [] = true ∧
    runs (.wrholds 0x03#8 (.fields 0x0000#16 0x0001#16 0x02#8 [0x00#8])) (idle []) .illegalValue [] = true ∧
    runs (.wrholds 0x03#8 (.fields 0x270E#16 0x0001#16 0x02#8 [0x00#8, 0x07#8])) (idle []) .illegalAddress [] = true ∧
    runs (.wrholds 0x03#8 (.fields 0x270D#16 0x0001#16 0x02#8 [0x00#8, 0x07#8])) (idle []) .normal
      [⟨49997, 0x0007#16⟩] = true ∧
    runs (.wrholds 0x03#8 (.fields 0x0000#16 0x0001#16 0x02#8 [0x00#8, 0x07#8])) full .deviceFailure
      [⟨5, 0x0001#16⟩] = true ∧
    holdsValueOk 0x007D#16 0xFA#8 (List.replicate 250 0x00#8) = true ∧
    holdsValueOk 0x007E#16 0xFC#8 (List.replicate 252 0x00#8) = false := by decide +kernel

theorem witness_WritesTouchOnlyTheirRun : State.Takes (idle t0) 0x03#8 ∧ Memory.wf (idle t0).table = true := by decide

/-- The longest run, and a table with exactly enough room. -/
theorem witness_WriteHoldingsStoresEveryWord :
    State.Takes { idle t0 with params := { Params.default with tableCap := 128 } } 0x03#8 ∧ Memory.wf t0 = true ∧
    t0.length + (0x007D#16).toNat ≤ 128 ∧ 1 ≤ (0x007D#16).toNat ∧ (0x007D#16).toNat ≤ 125 ∧
    (0xFA#8).toNat = 2 * (0x007D#16).toNat ∧ (List.replicate 250 0xAB#8).length = (0xFA#8).toNat ∧
    (0x2691#16).toNat + (0x007D#16).toNat ≤ 9998 := by decide +kernel

/-- The longest run a byte count can declare. -/
theorem witness_WriteCoilsStoresEveryBit :
    State.Takes (idle t0) 0x00#8 ∧ Memory.wf t0 = true ∧ t0.length + (0x07F8#16).toNat ≤ (idle t0).params.tableCap ∧
    1 ≤ (0x07F8#16).toNat ∧ (0xFF#8).toNat = ((0x07F8#16).toNat + 7) / 8 ∧
    (List.replicate 255 0xFF#8).length = (0xFF#8).toNat ∧ (0x1F16#16).toNat + (0x07F8#16).toNat ≤ 9998 ∧
    (0x07F8#16).toNat ≤ 7000 := by decide +kernel

/-- Both ways to have room: an absent address and a free entry, and a present address of a full table. -/
theorem witness_HoldingReadsBackAfterWrite :
    State.Takes (idle t0) 0x03#8 ∧ 0x03#8 ≠ 0x00#8 ∧ Memory.wf t0 = true ∧ (0x270D#16).toNat ≤ 9997 ∧
    t0.length < (idle t0).params.tableCap ∧ (idle t0).params.respByteCount = false ∧
    State.Takes { idle t0 with params := { Params.default with tableCap := 3 } } 0x03#8 ∧
    Memory.lookup t0 (40000 + (0x0001#16).toNat) ≠ none := by decide +kernel

theorem witness_UnsupportedRowsRaiseIllegalFunction : State.Takes (idle t0) 0x03#8 ∧ State.Takes (idle t0) 0x00#8 := by
  decide

theorem witness_EveryOtherCodeIsUnsupported :
    State.Takes (idle t0) 0x03#8 ∧ 0x00#8 ∉ (idle t0).params.extCodes ∧ 0x00#8 ∉ Config.supportedCodes ∧
    0xFF#8 ∉ (idle t0).params.extCodes ∧ 0xFF#8 ∉ Config.supportedCodes ∧ 0x11#8 ∉ Config.supportedCodes := by decide

/-- A block that has an extension code. -/
def extended : State := { idle t0 with params := { Params.default with extCodes := [0x41#8] } }

theorem witness_ExtensionCodesGoToTheHandler : State.Takes extended 0x03#8 ∧ 0x41#8 ∈ extended.params.extCodes := by decide

/-- Both clauses, at the ends of the table. -/
theorem witness_FindAnswersIndexOrInsertionPoint :
    Memory.wf t0 = true ∧ t0[0]? = some ⟨5, 0x0001#16⟩ ∧ t0[2]? = some ⟨40003, 0x0000#16⟩ ∧
    (∀ e ∈ t0, e.addr ≠ 0) ∧ (∀ e ∈ t0, e.addr ≠ 65535) := by decide

/-- Addresses that are present and absent, the extreme ones among them. -/
theorem witness_AdmGetReadsStoredValueOrZero :
    (idle t0).phase = .awaitingFrame ∧ Memory.wf (idle t0).table = true ∧
    Memory.lookup t0 (0x0005#16).toNat = some 0x0001#16 ∧ Memory.lookup t0 (0xFFFF#16).toNat = none ∧
    Memory.lookup t0 (0x9C43#16).toNat = some 0x0000#16 := by decide +kernel

/-- Overwriting, inserting, and a full table. -/
theorem witness_AdmSetOverwritesOrInserts :
    (idle t0).phase = .awaitingFrame ∧ Memory.wf (idle t0).table = true ∧ Memory.lookup t0 (0x0005#16).toNat ≠ none ∧
    Memory.lookup t0 (0xFFFF#16).toNat = none ∧ t0.length < (idle t0).params.tableCap ∧
    full.phase = .awaitingFrame ∧ Memory.wf full.table = true ∧ ¬ full.table.length < full.params.tableCap := by
  decide +kernel

theorem witness_AdmVsetSetsAndReadsBack : (idle t0).phase = .awaitingFrame ∧ Memory.wf (idle t0).table = true := by decide

/-- A full table, with an absent and a present address. -/
theorem witness_FullTableDropsNewEntries :
    full.phase = .awaitingFrame ∧ Memory.wf full.table = true ∧ full.table.length = full.params.tableCap ∧
    Memory.lookup full.table (0x0006#16).toNat = none ∧ Memory.lookup full.table (0x0005#16).toNat ≠ none := by
  decide +kernel

theorem witness_AdmExistsTellsPresence :
    (idle t0).phase = .awaitingFrame ∧ Memory.wf (idle t0).table = true ∧ Memory.lookup t0 (0x9C43#16).toNat ≠ none ∧
    Memory.lookup t0 (0x9C42#16).toNat = none := by decide +kernel

theorem witness_AdmDeleteRemovesTheEntry :
    (idle t0).phase = .awaitingFrame ∧ Memory.wf (idle t0).table = true ∧ Memory.lookup t0 (0x9C41#16).toNat ≠ none ∧
    Memory.lookup t0 (0x0009#16).toNat = none := by decide +kernel

/-- The three reserved codes, and no other. -/
theorem witness_AdmReservedCodesDoNothing :
    (idle t0).phase = .awaitingFrame ∧ 5 ≤ (5#3).toNat ∧ 5 ≤ (6#3).toNat ∧ 5 ≤ (7#3).toNat ∧ ¬ 5 ≤ (4#3).toNat := by
  decide

/-- Both clauses. -/
theorem witness_AdministrativePortIsHeldDuringACycle :
    Instr.request? (.admSet 0x0005#16 0x0001#16) = none ∧ inCycle.phase ≠ .awaitingFrame ∧
    inCycle.pending = [.request (.adm 0#3 0x0005#16 0x0000#16)] ∧ (idle t0).phase = .awaitingFrame := ⟨rfl, by decide⟩

/-- A run of bits that does not fill its last byte: the index of its last bit, and of the last unused one. -/
theorem witness_PackBitsIsLsbFirst : 9 < 8 * ((10 + 7) / 8) ∧ 15 < 8 * ((10 + 7) / 8) ∧ ¬ 16 < 8 * ((10 + 7) / 8) := by decide

/-- A run that ends at the last address of the space, and the lengths of the source's own property. -/
theorem witness_PackBitsRoundTrip :
    Memory.wf t0 = true ∧ 65472 + (List.replicate 64 true).length ≤ 65536 ∧ 0 + ([true] : List Bool).length ≤ 65536 := by
  decide

theorem witness_PackWordsRoundTrip :
    Memory.wf t0 = true ∧ 65411 + (List.replicate 125 0xABCD#16).length ≤ 65536 ∧
    0 + ([0x0000#16] : List Word).length ≤ 65536 := by decide +kernel

/-- The last starts that pass. -/
theorem witness_CheckedAddressesStayInTheirBand :
    rangeAddressOk 0x270D#16 0x0001#16 = true ∧ rangeAddressOk 0x270E#16 0x0001#16 = false ∧
    singleAddressOk 0x270E#16 = true ∧ singleAddressOk 0x270F#16 = false ∧ singleAddressOk 0x0000#16 = true ∧
    rangeAddressOk 0x0000#16 0x270E#16 = true ∧ Kind.coil ≠ Kind.discrete := by decide

theorem witness_CrcResidueIsZero : 4 ≤ badFrame.length ∧ 4 ≤ goodFrame.length := by decide

theorem witness_CrcIsAffineOverXor : goodFrame.length = foreignFrame.length ∧ foreignFrame.length = broadcastFrame.length := by
  decide

/-- The first and the last bit of a frame. -/
theorem witness_SingleBitFlipIsDetected :
    0 < 8 * (serialize 0x03#8 0x81#8 [0x03#8]).length ∧ 39 < 8 * (serialize 0x03#8 0x81#8 [0x03#8]).length ∧
    ¬ 40 < 8 * (serialize 0x03#8 0x81#8 [0x03#8]).length := by decide +kernel

theorem witness_ParseAndSerializeAgree :
    parse goodFrame = some ⟨0x03#8, 0x01#8, [0x00#8, 0x00#8, 0x00#8, 0x08#8], 0x2E3C#16⟩ ∧
    checkCrc ⟨0x03#8, 0x01#8, [0x00#8, 0x00#8, 0x00#8, 0x08#8], 0x2E3C#16⟩ = true := by decide +kernel

/-- Every kind of constructor: supported, extension, unsupported, administrative. -/
theorem witness_DecodeOfEncodeIsTheInstruction :
    (Instr.wrcoils 0x03#8 (.short [])).wellFormed [] = true ∧
    (Instr.rdcoil 0xFF#8 (.badLength [0x00#8])).wellFormed [0x41#8] = true ∧
    (Instr.ext 0x03#8 0x41#8 []).wellFormed [0x41#8] = true ∧
    (Instr.unsupported407F 0x03#8 0x7F#8 [0x01#8]).wellFormed [0x41#8] = true ∧
    (Instr.admReserved67 true).wellFormed [] = true := by decide

theorem witness_EveryGoodFrameIsOneRequest :
    4 ≤ goodFrame.length ∧ crcCorrect goodFrame ∧ crcCorrect [0xFF#8, 0xFF#8, 0x00#8, 0x00#8] := by decide +kernel

end Sys2Proof.Tests
end

section
/-! The statements about the state as a whole (spec/10_state.md): the reset state, what every step keeps, scratch state, and
the status registers. -/

namespace Sys2Proof.Machine

/-! ### What a step keeps, operation by operation -/

@[simp] theorem admPerform_params (op : Memory → Memory × AdmResult) (s : State) :
    (admPerform op s).params = s.params := by
  unfold admPerform; split <;> rfl

@[simp] theorem admPerform_unitId (op : Memory → Memory × AdmResult) (s : State) :
    (admPerform op s).unitId = s.unitId := by
  unfold admPerform; split <;> rfl

/-- The cycle of a delivered frame keeps the parameters and `UNIT_ID` (R168). -/
theorem frame_keeps_params_unitId {raw : List Byte} {s t : State} (h : perform (fetchFrame raw s) = .next t) :
    t.params = s.params ∧ t.unitId = s.unitId := by
  rcases frame_cases raw s with ⟨_, sc, h'⟩ | ⟨_, _, _, f, _, h'⟩ | ⟨_, _, _, i, r, _, hr, _, _, _, _, _, h'⟩ <;>
    cases h.symm.trans h'
  · exact ⟨rfl, rfl⟩
  · exact ⟨rfl, rfl⟩
  · obtain ⟨⟨hparams, hunit, _, _⟩, _⟩ := request_run hr s
    exact ⟨hparams, hunit⟩

/-! ### Operations of the administrative port -/

/-- An operation on the table, given the capacity, that keeps the canonical form and the capacity (R126, R128). -/
def KeepsLegalTable (op : Nat → Memory → Memory × AdmResult) : Prop :=
  ∀ (cap : Nat) (m : Memory), Memory.wf m = true → m.length ≤ cap →
    Memory.wf (op cap m).1 = true ∧ (op cap m).1.length ≤ cap

theorem keepsLegalTable_unchanged (answer : Memory → AdmResult) : KeepsLegalTable fun _ m => (m, answer m) :=
  fun _ _ hwf hcap => ⟨hwf, hcap⟩

theorem keepsLegalTable_set (addr wdata : Word) (answer : Nat → Memory → AdmResult) :
    KeepsLegalTable fun cap m => (Memory.set cap m addr.toNat wdata, answer cap m) :=
  fun cap _ hwf hcap => ⟨Memory.wf_set cap hwf addr.isLt wdata, Memory.length_set_le hcap _ _⟩

theorem keepsLegalTable_delete (addr : Word) (answer : AdmResult) :
    KeepsLegalTable fun _ m => (Memory.delete m addr.toNat, answer) :=
  fun _ m hwf hcap => ⟨Memory.wf_delete hwf _, (Memory.length_delete_le m _).trans hcap⟩

/-- An instruction of the administrative port is one operation on the table, the same at every state with the same capacity,
and it keeps the legal tables (R126, R127). -/
theorem exec_adm_op {i : Instr} (h : Instr.request? i = none) :
    ∃ op, (∀ s, exec i s = .next (admPerform (op s.params.tableCap) s)) ∧ KeepsLegalTable op := by
  cases i <;> simp only [Instr.request?, reduceCtorEq] at h
  case admGet addr =>
    exact ⟨_, fun _ => rfl, keepsLegalTable_unchanged fun m => ⟨some (Memory.get m addr.toNat), none⟩⟩
  case admSet addr wdata => exact ⟨_, fun _ => rfl, keepsLegalTable_set addr wdata fun _ _ => ⟨none, none⟩⟩
  case admVset addr wdata =>
    exact ⟨fun cap => admVsetOp cap addr wdata, fun _ => rfl, keepsLegalTable_set addr wdata _⟩
  case admExists addr =>
    exact ⟨_, fun _ => rfl, keepsLegalTable_unchanged fun m => ⟨none, some (Memory.present m addr.toNat)⟩⟩
  case admDelete addr => exact ⟨_, fun _ => rfl, keepsLegalTable_delete addr ⟨none, none⟩⟩
  case admReserved5 => exact ⟨_, fun _ => rfl, keepsLegalTable_unchanged fun _ => ⟨some 0x0000#16, some false⟩⟩
  case admReserved67 => exact ⟨_, fun _ => rfl, keepsLegalTable_unchanged fun _ => ⟨some 0x0000#16, some false⟩⟩

/-! ### The legal states -/

theorem resetWith_inv {p : Params} (h : Params.wf p = true) (cfg : Byte) : State.Inv (State.resetWith p cfg) :=
  ⟨rfl, rfl, Nat.zero_le _, h⟩

theorem resetBlock_inv {s : State} (h : Params.wf s.params = true) (cfg : Byte) : State.Inv (resetBlock cfg s) :=
  ⟨rfl, rfl, Nat.zero_le _, h⟩

theorem cutShort_inv {before after : State} (h : Params.wf after.params = true) (cfg : Byte) :
    State.Inv (cutShort cfg before after) :=
  ⟨rfl, rfl, Nat.zero_le _, h⟩

theorem drop_inv {s : State} (h : State.Inv s) (o : CycleOutcome) (sc : Scratch) :
    State.Inv { drop o s with scratch := sc } := by
  obtain ⟨_, hwf, hcap, hparams⟩ := h
  exact ⟨rfl, hwf, hcap, hparams⟩

theorem admPerform_inv {op : Nat → Memory → Memory × AdmResult} (hop : KeepsLegalTable op) {s : State}
    (h : State.Inv s) : State.Inv (admPerform (op s.params.tableCap) s) := by
  obtain ⟨hphase, hwf, hcap, hparams⟩ := h
  obtain ⟨hwf', hcap'⟩ := hop s.params.tableCap s.table hwf hcap
  rw [admPerform_awaiting _ hphase]
  exact ⟨hphase, hwf', hcap', hparams⟩

/-- The cycle of a request keeps the legal states (R126): dropped, it leaves the table alone; taken, it ends with a table
in canonical form and within the capacity. -/
theorem runRequest_inv {i : Instr} {r : Request} (hr : Instr.request? i = some r) {s : State} (h : State.Inv s) :
    State.Inv (runRequest r s) := by
  obtain ⟨hphase, hwf, hcap, hparams⟩ := h
  rcases request_cases hr hphase with ⟨_, _, hdropped⟩ | ⟨_, sc, m, o, fc, pl, n, htaken, _, hends⟩
  · rw [hdropped]
    exact ⟨rfl, hwf, hcap, hparams⟩
  · obtain ⟨hwf', hcap', _⟩ := hends hwf
    rw [htaken]
    exact ⟨rfl, hwf', hcap' hcap, hparams⟩

/-- The cycle of a delivered frame keeps the legal states. -/
theorem frame_inv (raw : List Byte) {s : State} (h : State.Inv s) :
    ∃ t, perform (fetchFrame raw s) = .next t ∧ State.Inv t := by
  rcases frame_cases raw s with ⟨_, sc, ht⟩ | ⟨_, _, _, f, _, ht⟩ | ⟨_, _, _, i, r, _, hr, _, _, _, _, _, ht⟩
  · exact ⟨_, ht, drop_inv h _ _⟩
  · exact ⟨_, ht, drop_inv h _ _⟩
  · exact ⟨_, ht, runRequest_inv hr h⟩

/-- Settles O3, by cases on the event the step takes. -/
theorem stepKeepsLegalStates : Obligations.StepKeepsLegalStates := by
  intro s h
  have ⟨hphase, _, _, hparams⟩ := h
  match he : s.pending with
  | [] => exact ⟨s, step_idle hphase he, h⟩
  | .request (.frame raw) :: rest =>
    rw [step_frame ⟨hphase, he⟩]
    exact frame_inv raw (s := { s with pending := rest }) h
  | .request (.adm op addr wdata) :: rest =>
    obtain ⟨admOp, hexec, hkeeps⟩ := exec_adm_op (decodeAdm_request op addr wdata)
    rw [step_adm hphase he, hexec]
    exact ⟨_, rfl, admPerform_inv hkeeps (s := { s with pending := rest }) h⟩
  | .timeout :: rest =>
    exact ⟨_, step_timeout hphase he, drop_inv (s := { s with pending := rest }) h .timeout s.scratch⟩
  | .reset cfg :: rest => exact ⟨_, step_reset hphase he, resetBlock_inv hparams cfg⟩
  | .resetDuring raw cfg :: rest =>
    obtain ⟨u, hu, hstep⟩ := step_resetDuring hphase he
    obtain ⟨hu_params, _⟩ := frame_keeps_params_unitId hu
    exact ⟨_, hstep, cutShort_inv (hu_params ▸ hparams) cfg⟩

/-! ### Scratch state -/

/-- At `s`, what `f` answers depends on the scratch state in its scratch state alone (R27, R168). -/
def ForgetsScratch (f : State → Host.Outcome State Fault Refusal) (s : State) : Prop :=
  ∀ sc, ∃ t sc', f s = .next t ∧ f { s with scratch := sc } = .next { t with scratch := sc' }

/-- The cycle of a request overwrites the scratch state before it reads it: whether the request is taken, and how it ends, do
not depend on it. -/
theorem runRequest_forgetsScratch {i : Instr} {r : Request} (hr : Instr.request? i = some r) {s : State}
    (hphase : s.phase = .awaitingFrame) : ForgetsScratch (fun s => .next (runRequest r s)) s := by
  intro sc
  by_cases htakes : State.Takes s r.addr
  · obtain ⟨m, o, fc, pl, n, _, hruns⟩ := request_taken hr s
    have hr' : Instr.request? (Instr.withUnit r.addr i) = some r := by rw [withUnit_self hr, hr]
    obtain ⟨r₁, sc₁, hr₁, hrun₁⟩ := hruns r.addr s rfl rfl rfl htakes
    obtain ⟨r₂, sc₂, hr₂, hrun₂⟩ := hruns r.addr { s with scratch := sc } rfl rfl rfl htakes
    cases hr'.symm.trans hr₁
    cases hr'.symm.trans hr₂
    exact ⟨_, { sc₂ with suppress := suppressFor r.addr }, congrArg _ hrun₁, congrArg _ hrun₂⟩
  · have h0 : r.addr ≠ 0x00#8 := fun h0 => htakes ⟨hphase, .inl h0⟩
    have hu : r.addr ≠ s.unitId := fun hu => htakes ⟨hphase, .inr hu⟩
    exact ⟨_, received r { s with scratch := sc }, congrArg _ (runRequest_other hphase h0 hu),
      congrArg _ (runRequest_other (s := { s with scratch := sc }) hphase h0 hu)⟩

/-- A frame the block cannot take as one is dropped as `FrameError` (R153). -/
theorem frame_frameError {raw : List Byte} {s : State} (h : raw.length < 4 ∨ ¬ fitsBuffer s.params raw) :
    ∃ sc, perform (fetchFrame raw s) = .next { drop .frameError s with scratch := sc } := by
  rcases frame_cases raw s with ⟨_, ht⟩ | ⟨h4, hfits, _⟩ | ⟨h4, hfits, _⟩
  · exact ht
  · exact h.elim (fun hlt => absurd h4 hlt.not_ge) (absurd hfits)
  · exact h.elim (fun hlt => absurd h4 hlt.not_ge) (absurd hfits)

/-- A frame with a wrong CRC is dropped as `BadCrc` (R154). -/
theorem frame_badCrc {raw : List Byte} {s : State} (h4 : 4 ≤ raw.length) (hfits : fitsBuffer s.params raw)
    (hcrc : ¬ crcCorrect raw) : ∃ sc, perform (fetchFrame raw s) = .next { drop .badCrc s with scratch := sc } := by
  rcases frame_cases raw s with ⟨herr, _⟩ | ⟨_, _, _, f, _, ht⟩ | ⟨_, _, hgood, _⟩
  · exact herr.elim (fun hlt => absurd h4 hlt.not_ge) (absurd hfits)
  · exact ⟨_, ht⟩
  · exact absurd hgood hcrc

/-- Every other frame runs the cycle of the request it decodes to (R153, R154). -/
theorem frame_request {raw : List Byte} {s : State} (h4 : 4 ≤ raw.length) (hfits : fitsBuffer s.params raw)
    (hcrc : crcCorrect raw) :
    ∃ i r, decode s.params.extCodes (.frame raw) = .instr i ∧ Instr.request? i = some r ∧
      perform (fetchFrame raw s) = .next (runRequest r s) := by
  rcases frame_cases raw s with ⟨herr, _⟩ | ⟨_, _, hbad, _⟩ | ⟨_, _, _, i, r, hi, hr, _, _, _, _, _, ht⟩
  · exact herr.elim (fun hlt => absurd h4 hlt.not_ge) (absurd hfits)
  · exact absurd hcrc hbad
  · exact ⟨i, r, hi, hr, ht⟩

/-- The cycle of a delivered frame does not depend on the scratch state it finds. -/
theorem frame_forgetsScratch (raw : List Byte) {s : State} (hphase : s.phase = .awaitingFrame) :
    ForgetsScratch (fun s => perform (fetchFrame raw s)) s := by
  intro sc
  by_cases herr : raw.length < 4 ∨ ¬ fitsBuffer s.params raw
  · obtain ⟨sc₁, h₁⟩ := frame_frameError herr
    obtain ⟨sc₂, h₂⟩ := frame_frameError (s := { s with scratch := sc }) herr
    exact ⟨_, sc₂, h₁, h₂⟩
  obtain ⟨hlt, hnotFits⟩ := not_or.1 herr
  have h4 : 4 ≤ raw.length := Nat.le_of_not_lt hlt
  have hfits : fitsBuffer s.params raw := not_not.1 hnotFits
  by_cases hcrc : crcCorrect raw
  · obtain ⟨i₁, r₁, hi₁, hr₁, h₁⟩ := frame_request h4 hfits hcrc
    obtain ⟨i₂, r₂, hi₂, hr₂, h₂⟩ := frame_request (s := { s with scratch := sc }) h4 hfits hcrc
    cases hi₁.symm.trans hi₂
    cases hr₁.symm.trans hr₂
    dsimp only
    rw [h₁, h₂]
    exact runRequest_forgetsScratch hr₁ hphase sc
  · obtain ⟨sc₁, h₁⟩ := frame_badCrc h4 hfits hcrc
    obtain ⟨sc₂, h₂⟩ := frame_badCrc (s := { s with scratch := sc }) h4 hfits hcrc
    exact ⟨_, sc₂, h₁, h₂⟩

/-- An operation of the administrative port neither reads nor writes the scratch state (R127). -/
theorem exec_adm_forgetsScratch {i : Instr} (hi : Instr.request? i = none) {s : State}
    (hphase : s.phase = .awaitingFrame) : ForgetsScratch (exec i) s := by
  intro sc
  obtain ⟨op, hexec, _⟩ := exec_adm_op hi
  rw [hexec, hexec]
  exact ⟨_, sc, congrArg _ (admPerform_awaiting _ hphase),
    congrArg _ (admPerform_awaiting (s := { s with scratch := sc }) _ hphase)⟩

/-- Between cycles a step does not depend on the scratch state it finds, whatever event it takes. -/
theorem step_forgetsScratch {s : State} (hphase : s.phase = .awaitingFrame) : ForgetsScratch step s := by
  match he : s.pending with
  | [] => exact fun sc => ⟨_, sc, step_idle hphase he, step_idle (s := { s with scratch := sc }) hphase he⟩
  | .request (.frame raw) :: rest =>
    intro sc
    rw [step_frame ⟨hphase, he⟩, step_frame (s := { s with scratch := sc }) ⟨hphase, he⟩]
    exact frame_forgetsScratch raw (s := { s with pending := rest }) hphase sc
  | .request (.adm op addr wdata) :: rest =>
    intro sc
    rw [step_adm hphase he, step_adm (s := { s with scratch := sc }) hphase he]
    exact exec_adm_forgetsScratch (decodeAdm_request op addr wdata) (s := { s with pending := rest }) hphase sc
  | .timeout :: rest =>
    exact fun sc => ⟨_, sc, step_timeout hphase he, step_timeout (s := { s with scratch := sc }) hphase he⟩
  | .reset cfg :: rest =>
    exact fun sc => ⟨_, Scratch.reset, step_reset hphase he, step_reset (s := { s with scratch := sc }) hphase he⟩
  | .resetDuring raw cfg :: rest =>
    intro sc
    obtain ⟨u₁, hu₁, hstep₁⟩ := step_resetDuring hphase he
    obtain ⟨u₂, hu₂, hstep₂⟩ := step_resetDuring (s := { s with scratch := sc }) hphase he
    obtain ⟨u, sc', hu, hu'⟩ := frame_forgetsScratch raw (s := { s with pending := rest }) hphase sc
    cases hu₁.symm.trans hu
    cases hu₂.symm.trans hu'
    exact ⟨_, Scratch.reset, hstep₁, hstep₂⟩

/-- Settles O15: whatever event the step takes, the two answers differ in their scratch state alone. -/
theorem scratchStateNeverLeaks : Obligations.ScratchStateNeverLeaks := by
  intro s sc hphase
  obtain ⟨t, sc', ht, ht'⟩ := step_forgetsScratch hphase sc
  exact ⟨t, _, ht, ht', rfl⟩

/-! ### The identity and the parameters -/

/-- Settles O14, by cases on what the step does: the rest of a cycle, nothing, or the event it takes. -/
theorem identityChangesOnlyAtReset : Obligations.IdentityChangesOnlyAtReset := by
  intro s
  by_cases hphase : s.phase = .awaitingFrame
  · match he : s.pending with
    | [] => exact ⟨s, step_idle hphase he, rfl, fun _ => rfl⟩
    | .request (.frame raw) :: rest =>
      obtain ⟨t, ht⟩ := frame_next raw { s with pending := rest }
      obtain ⟨hparams, hunit⟩ := frame_keeps_params_unitId ht
      exact ⟨t, (step_frame ⟨hphase, he⟩).trans ht, hparams, fun _ => hunit⟩
    | .request (.adm op addr wdata) :: rest =>
      obtain ⟨admOp, hexec, _⟩ := exec_adm_op (decodeAdm_request op addr wdata)
      exact ⟨_, (step_adm hphase he).trans (hexec _), admPerform_params _ _, fun _ => admPerform_unitId _ _⟩
    | .timeout :: rest => exact ⟨_, step_timeout hphase he, rfl, fun _ => rfl⟩
    | .reset cfg :: rest =>
      refine ⟨_, step_reset hphase he, rfl, fun hnoReset => ?_⟩
      obtain ⟨hreset, _⟩ := hnoReset hphase cfg rest
      exact absurd rfl hreset
    | .resetDuring raw cfg :: rest =>
      obtain ⟨u, hu, hstep⟩ := step_resetDuring hphase he
      obtain ⟨hparams, _⟩ := frame_keeps_params_unitId hu
      refine ⟨_, hstep, hparams, fun hnoReset => ?_⟩
      obtain ⟨_, hduring⟩ := hnoReset hphase cfg rest
      exact absurd rfl (hduring raw)
  · obtain ⟨i, r, _, hr, hstep⟩ := step_inCycle hphase
    obtain ⟨⟨hparams, hunit, _, _⟩, _⟩ := request_run hr s
    exact ⟨_, hstep, hparams, fun _ => hunit⟩

/-! ### Reset and the status registers -/

theorem default_params_wf : Params.wf Params.default = true := by decide

/-- Settles O2: the table is empty, the phase `AwaitingFrame`, and the defaults of R5 are in their ranges. -/
theorem resetStateIsLegal : Obligations.ResetStateIsLegal :=
  ⟨resetWith_inv default_params_wf _, fun _ cfg h => resetWith_inv h cfg⟩

/-- `TABLE_CAP` is at most 65536 (R5). -/
theorem params_wf_tableCap_le {p : Params} (h : Params.wf p = true) : p.tableCap ≤ 65536 := by
  simp only [Params.wf, Bool.and_eq_true, decide_eq_true_eq] at h
  obtain ⟨⟨⟨_, hle⟩, _⟩, _⟩ := h
  exact hle

/-- A legal table fits the 17 bits of `TABLE_COUNT` (R11, R25). -/
theorem tableCount_eq_length {s : State} (h : s.table.length ≤ 65536) :
    (statusRegisters s).tableCount.toNat = s.table.length := by
  simp only [statusRegisters, BitVec.toNat_ofNat]
  exact Nat.mod_eq_of_lt (by omega)

/-- Settles O16: the codes by cases on the phase, the outcome and the flag, the count because a legal table is within
`TABLE_CAP`. -/
theorem statusRegistersReadTheState : Obligations.StatusRegistersReadTheState := by
  intro s
  refine ⟨rfl, ?_, ?_, ?_, ?_⟩
  · simp only [statusRegisters]
    cases s.phase <;> rfl
  · simp only [statusRegisters]
    cases s.outcome <;> rfl
  · simp only [statusRegisters]
    cases s.replied <;> rfl
  · rintro ⟨hphase, _, hcap, hparams⟩
    have hlen : s.table.length ≤ 65536 := hcap.trans (params_wf_tableCap_le hparams)
    exact ⟨by simp [statusRegisters, hphase, phaseCode], tableCount_eq_length hlen, hlen⟩

end Sys2Proof.Machine
end

section
/-! The statement about memory (spec/20_memory.md): a holding register that is written and then read. -/

namespace Sys2Proof.Machine

/-! ### A write that has room -/

/-- `set` of a present address, or with a free entry, is read back by `get` (R121, R122). -/
theorem Memory.get_set_room {m : Memory} (h : Memory.Rising m) {cap a : Nat} (v : Word)
    (hroom : m.length < cap ∨ Memory.lookup m a ≠ none) : Memory.get (Memory.set cap m a v) a = v := by
  rw [Memory.get_eq (Memory.rising_set h cap a v), Memory.lookup_set h, if_pos ⟨rfl, hroom.symm⟩]
  rfl

/-- `verify_and_set` of a present address, or with a free entry, succeeds (R123). -/
theorem Memory.verifyAndSet_room {m : Memory} (h : Memory.Rising m) {cap a : Nat} (v : Word)
    (hroom : m.length < cap ∨ Memory.lookup m a ≠ none) :
    Memory.verifyAndSet cap m a v = (Memory.set cap m a v, true) := by
  rw [Memory.verifyAndSet, Memory.get_set_room h v hroom, beq_self_eq_true]

/-! ### The two requests and their answers -/

/-- A Write Holding request with room stores its value and answers `Normal` with the echo (R186). -/
theorem exec_wrhold_room {s : State} {u : Byte} {w v : Word} (htakes : State.Takes s u)
    (hrising : Memory.Rising s.table) (hw : w.toNat ≤ 9998)
    (hroom : s.table.length < s.params.tableCap ∨ Memory.lookup s.table (40000 + w.toNat) ≠ none) :
    ∃ sc, exec (.wrhold u (.fields w v)) s =
      .next (ended s sc (Memory.set s.params.tableCap s.table (40000 + w.toNat) v) u .normal 0x06#8
        [hiByte w, loByte w, hiByte v, loByte v]) := by
  have hchecks : firstFailure true (singleAddressOk w) = none := by
    simp [singleAddressOk_eq, firstFailure, hw]
  have hanswer : writeAnswer s.params.tableCap s.table 0x06#8 (.fields w v) (fun _ => true) .holding id =
      (Memory.set s.params.tableCap s.table (40000 + w.toNat) v,
        .normal, 0x06#8, [hiByte w, loByte w, hiByte v, loByte v]) := by
    simp only [writeAnswer, hchecks, translate, Kind.base, Config.baseHolding, id,
      Memory.verifyAndSet_room hrising v hroom, if_true]
  obtain ⟨sc, hrun, _⟩ := runRequest_write (fc := 0x06#8) (o := .fields w v) (valueOk := fun _ => true)
    (k := .holding) (stored := id) htakes
  rw [hanswer] at hrun
  exact ⟨sc, congrArg _ hrun⟩

/-- A Read Holdings request that passes its checks answers `Normal` with the registers of its run (R183, R191). -/
theorem exec_rdhold_normal {s : State} {u : Byte} {w q : Word} (htakes : State.Takes s u)
    (hq1 : 1 ≤ q.toNat) (hq : q.toNat ≤ 125) (hwq : w.toNat + q.toNat ≤ 9998) :
    ∃ sc, exec (.rdhold u (.fields w q)) s =
      .next (ended s sc s.table u .normal 0x03#8
        (countPrefix s.params (packWords s.table (40000 + w.toNat) q.toNat) ++
          packWords s.table (40000 + w.toNat) q.toNat)) := by
  have hchecks : firstFailure (amountOk Config.maxWords q) (rangeAddressOk w q) = none := by
    rw [firstFailure_eq _ _ (amountOk_eq _ _) (rangeAddressOk_eq _ _), if_neg (by simp only [Config.maxWords]; omega),
      if_neg (by omega)]
  have hanswer : readAnswer s.params s.table 0x03#8 (.fields w q) Config.maxWords .holding packWords =
      (.normal, 0x03#8, countPrefix s.params (packWords s.table (40000 + w.toNat) q.toNat) ++
        packWords s.table (40000 + w.toNat) q.toNat) := by
    simp only [readAnswer, hchecks, translate, Kind.base, Config.baseHolding]
  obtain ⟨sc, hrun, _⟩ := runRequest_read (fc := 0x03#8) (o := .fields w q) (bound := Config.maxWords)
    (k := .holding) (pack := packWords) htakes
  rw [hanswer] at hrun
  exact ⟨sc, congrArg _ hrun⟩

/-- One register is packed as its two bytes, the high byte first (R103). -/
theorem packWords_one (m : Memory) (a : Nat) :
    packWords m a 1 = [hiByte (Memory.get m a), loByte (Memory.get m a)] := by
  simp [packWords]

/-- Without `RESP_BYTE_COUNT` a read response holds the data alone (R191). -/
theorem countPrefix_absent {p : Params} (h : p.respByteCount = false) (data : List Byte) : countPrefix p data = [] := by
  simp [countPrefix, h]

/-- A request that is not a broadcast is answered with one frame (R164). -/
theorem ended_sent_addressed {u : Byte} (hu : u ≠ 0x00#8) (s : State) (sc : Scratch) (m : Memory) (o : CycleOutcome)
    (fc : Byte) (pl : List Byte) : (ended s sc m u o fc pl).sent = s.sent ++ [serialize s.unitId fc pl] :=
  if_neg hu

/-- Settles O31: the write ends its cycle with the value in the table, the block takes the read from there, and the read
answers with what `get` then finds. -/
theorem holdingReadsBackAfterWrite : Obligations.HoldingReadsBackAfterWrite := by
  intro s u w v ⟨hphase, haddressed⟩ hu hwf hw hroom hcount
  have hrising := Memory.wf_rising hwf
  have hone : (0x0001#16).toNat = 1 := rfl
  obtain ⟨sc, hwrite⟩ := exec_wrhold_room (v := v) ⟨hphase, haddressed⟩ hrising (by omega) hroom
  set t := ended s sc (Memory.set s.params.tableCap s.table (40000 + w.toNat) v) u .normal 0x06#8
    [hiByte w, loByte w, hiByte v, loByte v] with ht
  have hdata : packWords t.table (40000 + w.toNat) (0x0001#16).toNat = [hiByte v, loByte v] := by
    rw [hone, packWords_one, ht, ended_table, Memory.get_set_room hrising v hroom]
  have htakes : State.Takes t u := ⟨rfl, haddressed⟩
  obtain ⟨sc', hread⟩ := exec_rdhold_normal (w := w) (q := 0x0001#16) htakes (by decide) (by decide)
    (by rw [hone]; omega)
  rw [hdata, countPrefix_absent (p := t.params) hcount, List.nil_append] at hread
  exact ⟨t, _, hwrite, hread, rfl, ended_sent_addressed hu t sc' t.table .normal 0x03#8 _⟩

end Sys2Proof.Machine
end

section
/-! The statements about the encoding (spec/30_encoding.md): decoding undoes encoding, every good frame is one request, and
the reserved codes of the administrative port. -/

namespace Sys2Proof

open Sys2Proof.Machine

/-! ### A serialized frame -/

/-- A serialized frame is split into what it was made of, with the CRC of its body (spec/43_frame_codec.md R141, R143). -/
theorem parse_serialize (u fc : Byte) (p : List Byte) :
    parse (serialize u fc p) = some ⟨u, fc, p, bodyCrc u fc p⟩ := by
  have haddr : byteAt (serialize u fc p) 0 = u := rfl
  have hfc : byteAt (serialize u fc p) 1 = fc := rfl
  have hpayload : ((serialize u fc p).drop 2).take p.length = p := by simp [serialize]
  have hlow : byteAt (serialize u fc p) (p.length + 2) = loByte (bodyCrc u fc p) := by simp [serialize, byteAt]
  have hhigh : byteAt (serialize u fc p) (p.length + 3) = hiByte (bodyCrc u fc p) := by simp [serialize, byteAt]
  simp [parse, length_serialize, haddr, hfc, hpayload, hlow, hhigh]

/-- The frame of a request decodes to the request, because its CRC is good (R62). -/
theorem decode_serialize {ext : List Byte} {u fc : Byte} {p : List Byte} {i : Instr}
    (h : decodeRequest ext u fc p = some i) : decode ext (.frame (serialize u fc p)) = .instr i := by
  simp [decode, decodeFrame, parse_serialize, checkCrc, h]

/-! ### The rows of the opcode table -/

/-- The patterns of the two rows differ in a bit that both masks look at. -/
abbrev OpRow.Conflicts (r r' : OpRow) : Prop := r.mask &&& r'.mask &&& (r.pattern ^^^ r'.pattern) ≠ 0#8

/-- Rows that conflict cover no common function code. -/
theorem OpRow.Conflicts.not_covers {r r' : OpRow} (h : r.Conflicts r') {fc : Byte} (hfc : r'.covers fc = true) :
    ¬ r.covers fc = true := by
  intro hfc'
  rw [OpRow.covers, beq_iff_eq] at hfc hfc'
  apply h
  rw [← hfc, ← hfc']
  ext i hi
  cases hm : r.mask[i] <;> cases hm' : r'.mask[i] <;> simp [hm, hm']

/-- Among rows that conflict, the one that covers a function code is the one found. -/
theorem find?_covers {rows : List OpRow} (hconflict : rows.Pairwise OpRow.Conflicts) {row : OpRow} (hrow : row ∈ rows)
    {fc : Byte} (hfc : row.covers fc = true) : rows.find? (·.covers fc) = some row := by
  induction rows with
  | nil => cases hrow
  | cons r rows ih =>
    obtain ⟨hhead, htail⟩ := List.pairwise_cons.1 hconflict
    rcases List.mem_cons.1 hrow with rfl | hmem
    · exact List.find?_cons_of_pos hfc
    · simpa [(hhead row hmem).not_covers hfc] using ih htail hmem

/-- The rows of the opcode table are disjoint (R70, R71). -/
theorem protocolRows_conflict : protocolRows.Pairwise OpRow.Conflicts := by decide

/-- A function code that no extension claims is decoded by the row that covers it (R70, R71). -/
theorem decodeRequest_of_row {ext : List Byte} {row : OpRow} (hrow : row ∈ protocolRows) {fc : Byte}
    (hfc : row.covers fc = true) (hext : ext.contains fc = false) (u : Byte) (p : List Byte) :
    decodeRequest ext u fc p = some (row.build u fc p) := by
  rw [decodeRequest, hext, find?_covers protocolRows_conflict hrow hfc]
  rfl

/-! ### The encoding of a request, by the shape of its row -/

/-- A row for a range of codes: the request carries its code. -/
theorem decode_masked {ext : List Byte} {mask pattern : Byte} {build : Byte → Byte → List Byte → Instr}
    (hrow : ⟨mask, pattern, build⟩ ∈ protocolRows) {u fc : Byte} {p : List Byte}
    (h : rowCode ext mask pattern fc = true) :
    decode ext (.frame (serialize u fc p)) = .instr (build u fc p) := by
  obtain ⟨hfc, hext⟩ := Bool.and_eq_true_iff.1 h
  exact decode_serialize (decodeRequest_of_row hrow hfc (by simpa using hext) u p)

/-- A row for one code: the request carries the operands that the row reads in the payload. -/
theorem decode_single {ext : List Byte} {code : Byte} {α : Type} {ofBytes : List Byte → α} {build : Byte → α → Instr}
    (hrow : ⟨0xFF#8, code, fun u _ p => build u (ofBytes p)⟩ ∈ protocolRows) {u : Byte} {p : List Byte} {o : α}
    (hread : ofBytes p = o) (hext : (!ext.contains code) = true) :
    decode ext (.frame (serialize u code p)) = .instr (build u o) := by
  have hmask : code &&& 0xFF#8 = code := BitVec.and_allOnes
  have hcode : rowCode ext 0xFF#8 code code = true := by
    simp only [rowCode, hmask, hext, beq_self_eq_true, Bool.and_self]
  rw [decode_masked hrow hcode, hread]

/-- A code that an extension claims, whatever row covers it (spec/44_dispatcher.md R157). -/
theorem decode_ext {ext : List Byte} {u code : Byte} {p : List Byte} (h : ext.contains code = true) :
    decode ext (.frame (serialize u code p)) = .instr (.ext u code p) :=
  decode_serialize (if_pos h)

/-- Settles O54, by cases on the instruction: a request by the shape of its row, an operation of the administrative port by
its code. -/
theorem decodeOfEncodeIsTheInstruction : Obligations.DecodeOfEncodeIsTheInstruction := by
  intro ext i h
  cases i with
  | rdcoil | rddisc | rdhold | rdinp | wrcoil | wrhold =>
    obtain ⟨ho, hext⟩ := Bool.and_eq_true_iff.1 h
    exact decode_single (by simp [protocolRows, supportedRows]) (AqOperands.ofBytes_toBytes ho) hext
  | wrcoils | wrholds =>
    obtain ⟨ho, hext⟩ := Bool.and_eq_true_iff.1 h
    exact decode_single (by simp [protocolRows, supportedRows]) (AqbdOperands.ofBytes_toBytes ho) hext
  | ext => exact decode_ext h
  | unsupported0000 | unsupported0707 | unsupported0E0E | unsupported1111 =>
    exact decode_single (ofBytes := id) (by simp [protocolRows, unsupportedRows]) rfl h
  | unsupported080B | unsupported0C0D | unsupported1213 | unsupported1417 | unsupported181F | unsupported203F
  | unsupported407F | unsupported80FF => exact decode_masked (by simp [protocolRows, unsupportedRows]) h
  | admGet | admSet | admVset | admExists | admDelete | admReserved5 => rfl
  | admReserved67 low => cases low <;> rfl

/-! ### The converse -/

/-- Settles O55: the frame is split, its CRC lets the decoder through, and the request of its fields is written out as those
fields serialized, which is the frame. -/
theorem everyGoodFrameIsOneRequest : Obligations.EveryGoodFrameIsOneRequest := by
  intro ext raw hlen hcrc
  obtain ⟨f, hf⟩ := parse_isSome hlen
  obtain ⟨i, hdecode, hrequest⟩ := (decodeFrame_of_parse ext hf).1 hcrc
  obtain ⟨hwf, _, _, _, _, _, hencode⟩ := decodeRequest_spec hrequest
  refine ⟨i, hdecode, hwf, ?_⟩
  rw [hencode, serialize_of_parse hf hcrc]

/-! ### The reserved codes of the administrative port -/

/-- The operation codes 5, 6 and 7 decode to the reserved operations (R69). -/
theorem decodeAdm_reserved {op : BitVec 3} (hop : 5 ≤ op.toNat) (addr wdata : Word) :
    decodeAdm op addr wdata = .admReserved5 ∨ ∃ low, decodeAdm op addr wdata = .admReserved67 low := by
  have hcode : op = 5#3 ∨ op = 6#3 ∨ op = 7#3 := by bv_omega
  rcases hcode with rfl | rfl | rfl
  · exact .inl rfl
  · exact .inr ⟨false, rfl⟩
  · exact .inr ⟨true, rfl⟩

/-- Between cycles the reserved operation 5 drives zeros and changes nothing else (R69). -/
theorem exec_admReserved5 {s : State} (hphase : s.phase = .awaitingFrame) :
    exec .admReserved5 s = .next { s with admOut := ⟨some 0x0000#16, some false⟩ } :=
  congrArg _ (admPerform_awaiting _ hphase)

/-- Between cycles the reserved operations 6 and 7 drive zeros and change nothing else (R69). -/
theorem exec_admReserved67 {s : State} (hphase : s.phase = .awaitingFrame) (low : Bool) :
    exec (.admReserved67 low) s = .next { s with admOut := ⟨some 0x0000#16, some false⟩ } :=
  congrArg _ (admPerform_awaiting _ hphase)

/-- Settles O42, by cases on which reserved operation the code selects. -/
theorem admReservedCodesDoNothing : Obligations.AdmReservedCodesDoNothing := by
  intro s addr wdata hphase op hop
  have h5 := exec_admReserved5 hphase
  refine ⟨_, rfl, decodeAdm_reserved hop addr wdata, h5, ?_⟩
  rcases decodeAdm_reserved hop addr wdata with hi | ⟨low, hi⟩
  · rw [hi, h5]
  · rw [hi, exec_admReserved67 hphase]

end Sys2Proof
end

section
/-! The statements about the CRC engine (spec/40_crc16.md): one shift of the register is linear over XOR and loses nothing, so
the same holds of a byte and of a sequence; the table-driven form, the zero residue, the affine law and the detection of an
inverted bit follow. -/

namespace Sys2Proof

open Sys2Proof.Machine

/-! ### The shifts of the register -/

/-- One shift, bit by bit: the bit above, XOR the polynomial's bit where a 1 is shifted out (R93). -/
theorem getLsbD_crcBit (x : Word) (i : Nat) :
    (crcBit x).getLsbD i = (x.getLsbD (i + 1) ^^ (x.getLsbD 0 && Config.crcPoly.getLsbD i)) := by
  unfold crcBit
  split
  · next h => simp only [h, BitVec.getLsbD_xor, BitVec.getLsbD_ushiftRight, Nat.add_comm, Bool.true_and]
  · next h => simp only [h, BitVec.getLsbD_ushiftRight, Nat.add_comm, Bool.false_and, Bool.xor_false]

theorem crcBit_xor (x y : Word) : crcBit (x ^^^ y) = crcBit x ^^^ crcBit y := by
  apply BitVec.eq_of_getLsbD_eq
  intro i _
  simp only [getLsbD_crcBit, BitVec.getLsbD_xor, Bool.and_xor_distrib_right, Bool.xor_assoc, Bool.xor_left_comm]

/-- A shift loses nothing: the bit shifted out comes back as bit 15, the top bit of the polynomial. -/
theorem crcBit_injective : Function.Injective crcBit := by
  intro x y h
  have hbit (i : Nat) := congrArg (BitVec.getLsbD · i) h
  simp only [getLsbD_crcBit] at hbit
  have hzero : x.getLsbD 0 = y.getLsbD 0 := by simpa [Config.crcPoly] using hbit 15
  apply BitVec.eq_of_getLsbD_eq
  rintro (_ | i) _
  · exact hzero
  · simpa only [hzero, Bool.xor_left_inj] using hbit i

theorem crcShift_xor (n : Nat) (x y : Word) : crcShift n (x ^^^ y) = crcShift n x ^^^ crcShift n y := by
  induction n generalizing x y with
  | zero => rfl
  | succ n ih => rw [crcShift, crcBit_xor, ih, crcShift, crcShift]

theorem crcShift_injective (n : Nat) : Function.Injective (crcShift n) := by
  induction n with
  | zero => exact Function.injective_id
  | succ n ih => exact ih.comp crcBit_injective

/-- While only zeros are shifted out, the polynomial stays out of the register (R93). -/
theorem crcShift_eq_ushiftRight (n : Nat) {x : Word} (h : ∀ i < n, x.getLsbD i = false) : crcShift n x = x >>> n := by
  induction n generalizing x with
  | zero => rfl
  | succ n ih =>
    have hbit : crcBit x = x >>> 1 := if_neg (Bool.eq_false_iff.1 (h 0 n.succ_pos))
    have hrest : ∀ i < n, (x >>> 1).getLsbD i = false := fun i hi => by
      simpa [Nat.add_comm] using h (i + 1) (by omega)
    rw [crcShift, hbit, ih hrest, ← BitVec.shiftRight_add, Nat.add_comm]

/-! ### One byte -/

/-- The high byte of a word, alone in a word. -/
theorem ushiftRight_eight (x : Word) : x >>> 8 = (hiByte x).setWidth 16 := by
  apply BitVec.eq_of_getLsbD_eq
  intro i hi
  by_cases h8 : i < 8
  · simp [hiByte, h8, hi]
  · simp [hiByte, h8, BitVec.getLsbD_of_ge x (8 + i) (by omega)]

/-- Feeding the register its own low byte leaves its high byte. -/
theorem crcStep_loByte (c : Word) : crcStep c (loByte c) = (hiByte c).setWidth 16 := by
  have hlow : ∀ i < 8, (c ^^^ (loByte c).setWidth 16).getLsbD i = false := fun i hi => by
    have : i < 16 := by omega
    simp [loByte, hi, this]
  have hbyte : ((loByte c).setWidth 16 : Word) >>> 8 = 0x0000#16 :=
    BitVec.eq_of_getLsbD_eq fun i _ => by simp
  rw [crcStep, crcShift_eq_ushiftRight 8 hlow, BitVec.ushiftRight_xor_distrib, hbyte, BitVec.xor_zero, ushiftRight_eight]

/-- Feeding the register the byte it holds clears it. -/
theorem crcStep_setWidth (b : Byte) : crcStep (b.setWidth 16) b = 0x0000#16 := by
  rw [crcStep, BitVec.xor_self]
  rfl

theorem crcStep_xor (c d : Word) (a b : Byte) : crcStep (c ^^^ d) (a ^^^ b) = crcStep c a ^^^ crcStep d b := by
  rw [crcStep, crcStep, crcStep, ← crcShift_xor, BitVec.setWidth_xor]
  congr 1
  ac_rfl

theorem crcStep_left_injective (b : Byte) : Function.Injective (crcStep · b) :=
  fun _ _ h => (BitVec.xor_left_inj _).1 (crcShift_injective 8 h)

theorem crcStep_right_injective (c : Word) : Function.Injective (crcStep c) := by
  intro a b h
  have hwide : a.setWidth 16 = b.setWidth 16 := (BitVec.xor_right_inj _).1 (crcShift_injective 8 h)
  simpa using congrArg (BitVec.setWidth 8) hwide

/-- Settles O48: by linearity, feeding `b` is feeding the accumulator's own low byte, which leaves the high byte, XOR feeding
the rest of `b` to a zero accumulator, which is the table's entry. -/
theorem tableDrivenCrcEqualsBitSerial : Obligations.TableDrivenCrcEqualsBitSerial := by
  intro c b
  have hindex : loByte (c ^^^ b.setWidth 16) = loByte c ^^^ b := by
    apply BitVec.eq_of_getLsbD_eq
    intro i hi
    have : i < 16 := by omega
    simp [loByte, hi, this]
  calc crcStepByTable c b
      = crcStep c (loByte c) ^^^ crcStep 0x0000#16 (loByte c ^^^ b) := by
        rw [crcStepByTable, crcTable, hindex, crcStep_loByte, ushiftRight_eight]
    _ = crcStep c b := by
        rw [← crcStep_xor, BitVec.xor_zero, ← BitVec.xor_assoc, BitVec.xor_self, BitVec.zero_xor]

/-! ### A sequence of bytes -/

theorem crcFeed_injective (s : List Byte) : Function.Injective (crcFeed · s) := by
  induction s with
  | nil => exact Function.injective_id
  | cons b s ih => exact ih.comp (crcStep_left_injective b)

theorem crcFeed_xor {s t : List Byte} (h : s.length = t.length) (c d : Word) :
    crcFeed c s ^^^ crcFeed d t = crcFeed (c ^^^ d) (List.zipWith (· ^^^ ·) s t) := by
  induction s generalizing c d t with
  | nil =>
    obtain rfl := List.length_eq_zero_iff.1 h.symm
    rfl
  | cons a s ih =>
    obtain _ | ⟨b, t⟩ := t
    · cases h
    · calc crcFeed (crcStep c a) s ^^^ crcFeed (crcStep d b) t
          = crcFeed (crcStep c a ^^^ crcStep d b) (List.zipWith (· ^^^ ·) s t) := ih (Nat.succ.inj h) _ _
        _ = crcFeed (crcStep (c ^^^ d) (a ^^^ b)) (List.zipWith (· ^^^ ·) s t) := by rw [crcStep_xor]

/-- Settles O50: the engine is linear in accumulator and bytes, and three times `crc_init` XORed is `crc_init`. -/
theorem crcIsAffineOverXor : Obligations.CrcIsAffineOverXor := by
  intro s t u hst htu
  have hlen : (List.zipWith (· ^^^ ·) s t).length = u.length := by simp [hst, htu]
  rw [crc16, crc16, crc16, crc16, crcFeed_xor hst, crcFeed_xor hlen, BitVec.xor_self, BitVec.zero_xor]

/-- Feeding two bytes clears the register exactly when they are what it holds, the low byte first. -/
theorem crcFeed_pair_eq_zero_iff (c : Word) (l h : Byte) : crcFeed c [l, h] = 0x0000#16 ↔ c = be16 h l := by
  have hclears : crcFeed (be16 h l) [l, h] = 0x0000#16 := by
    have hlow := crcStep_loByte (be16 h l)
    rw [loByte_be16, hiByte_be16] at hlow
    rw [crcFeed, List.foldl_cons, List.foldl_cons, hlow, crcStep_setWidth, List.foldl_nil]
  rw [← hclears]
  exact (crcFeed_injective [l, h]).eq_iff

/-! ### A whole frame -/

theorem take_concat_byteAt {s : List Byte} {i : Nat} (h : i < s.length) : s.take i ++ [byteAt s i] = s.take (i + 1) := by
  rw [byteAt, List.getD_eq_getElem _ _ h, List.take_append_getElem h]

/-- A frame ends with the CRC of its other bytes exactly when the CRC of all its bytes is 0 (R95). -/
theorem crcCorrect_iff_crc16_eq_zero {raw : List Byte} (h : 2 ≤ raw.length) :
    crcCorrect raw ↔ crc16 raw = 0x0000#16 := by
  obtain ⟨n, hn⟩ := Nat.exists_eq_add_of_le' h
  have hraw : raw.take n ++ [byteAt raw n, byteAt raw (n + 1)] = raw := by
    rw [← List.singleton_append, ← List.append_assoc, take_concat_byteAt (by omega), take_concat_byteAt (by omega),
      List.take_of_length_le (by omega)]
  have hlast : raw.length - 1 = n + 1 := by omega
  have hbody : raw.length - 2 = n := by omega
  rw [crcCorrect, hlast, hbody, ← crcFeed_pair_eq_zero_iff, crc16, ← crcFeed_append, hraw, crc16]

/-- Settles O49: the two bytes that bring the register to 0 are the ones it holds, so the frame's last two bytes do so exactly
when they are the CRC of the rest. -/
theorem crcResidueIsZero : Obligations.CrcResidueIsZero := by
  constructor
  · intro s
    rw [crc16, crcFeed_append, ← crc16, crcFeed_pair_eq_zero_iff, be16_hiByte_loByte]
  · intro raw hlen
    obtain ⟨f, hf⟩ := parse_isSome hlen
    exact ⟨f, hf, (checkCrc_iff hf).trans (crcCorrect_iff_crc16_eq_zero (by omega)), checkCrc_iff hf⟩

/-- Changing one byte of a sequence changes its CRC. -/
theorem crcFeed_modify_ne {f : Byte → Byte} (hf : ∀ b, f b ≠ b) (c : Word) {s : List Byte} {i : Nat}
    (h : i < s.length) : crcFeed c (s.modify i f) ≠ crcFeed c s := by
  induction s generalizing c i with
  | nil => cases h
  | cons b s ih =>
    cases i with
    | zero => exact fun he => hf b (crcStep_right_injective c (crcFeed_injective s he))
    | succ i => exact ih (crcStep c b) (Nat.lt_of_succ_lt_succ h)

/-- Inverting one bit of a byte changes it. -/
theorem xor_one_shiftLeft_ne (b : Byte) {j : Nat} (h : j < 8) : b ^^^ (0x01#8 <<< j) ≠ b := by
  have hbit : ∀ j < 8, 0x01#8 <<< j ≠ 0#8 := by decide
  exact fun he => hbit j h (by simpa using he)

/-- Settles O51: a serialized frame has residue 0, and inverting a bit, which changes one byte, changes the residue. -/
theorem singleBitFlipIsDetected : Obligations.SingleBitFlipIsDetected := by
  intro addr fc payload k hk
  set raw := serialize addr fc payload with hraw
  have hlen : 4 ≤ raw.length := by rw [hraw, length_serialize]; omega
  have hlen' : 4 ≤ (flipBit raw k).length := by rwa [flipBit, List.length_modify]
  have hgood : crcCorrect raw := (checkCrc_iff (parse_serialize addr fc payload)).1 (beq_self_eq_true _)
  have hzero : crc16 raw = 0x0000#16 := (crcCorrect_iff_crc16_eq_zero (by omega)).1 hgood
  have hne : crc16 (flipBit raw k) ≠ crc16 raw :=
    crcFeed_modify_ne (fun b => xor_one_shiftLeft_ne b (Nat.mod_lt k (by omega))) _ (by omega)
  obtain ⟨f, hf⟩ := parse_isSome hlen'
  refine ⟨f, hf, Bool.eq_false_iff.2 fun hcheck => hne ?_⟩
  rw [hzero]
  exact (crcCorrect_iff_crc16_eq_zero (by omega)).1 ((checkCrc_iff hf).1 hcheck)

end Sys2Proof
end

section
/-! The statements about the bit-pack codec (spec/41_bitpack_codec.md): what packing and then unpacking reads in the table, and
that a run written to a table with a place for every address is there to be read. -/

namespace Sys2Proof.Machine

/-! ### The bits of a packed byte and of a packed run -/

/-- A byte built up from its first `n` bits, bit by bit (R101). -/
theorem getLsbD_foldl_bits (bit : Nat → Bool) (n k : Nat) :
    ((List.range n).foldl (fun b k => if bit k then b ||| (0x01#8 <<< k) else b) 0x00#8).getLsbD k =
      (decide (k < n) && decide (k < 8) && bit k) := by
  induction n with
  | zero => simp
  | succ n ih =>
    have hone : (0x01#8 <<< n).getLsbD k = (decide (n < 8) && decide (n = k)) := BitVec.getLsbD_twoPow n k
    rw [List.range_succ, List.foldl_append, List.foldl_cons, List.foldl_nil]
    rcases eq_or_ne n k with rfl | hne
    · cases hbit : bit n <;> simp [ih, hone, hbit]
    · have hlt : k < n + 1 ↔ k < n := by omega
      split <;> simp [ih, hone, hne, hlt]

theorem getLsbD_packByte (bit : Nat → Bool) {k : Nat} (h : k < 8) : (packByte bit).getLsbD k = bit k := by
  rw [packByte, getLsbD_foldl_bits, decide_eq_true h, Bool.true_and, Bool.true_and]

theorem length_packBits (m : Memory) (start count : Nat) : (packBits m start count).length = (count + 7) / 8 := by
  simp [packBits, ceil8_eq]

/-- Bit `i` of a packed run, in its byte (R101). -/
theorem getLsbD_byteAt_packBits (m : Memory) (start : Nat) {count i : Nat} (h : i < 8 * ((count + 7) / 8)) :
    (byteAt (packBits m start count) (i / 8)).getLsbD (i % 8) =
      (decide (i < count) && decide (Memory.get m (start + i) ≠ 0x0000#16)) := by
  have hbyte : i / 8 < (packBits m start count).length := by rw [length_packBits]; omega
  rw [byteAt, List.getD_eq_getElem _ _ hbyte]
  simp only [packBits, List.getElem_map, List.getElem_range]
  rw [getLsbD_packByte _ (Nat.mod_lt i (by decide)), Nat.div_add_mod]
  simp only [bne, beq_eq_decide, ne_eq, decide_not]

/-- Settles O44, from the bits of each packed byte. -/
theorem packBitsIsLsbFirst : Obligations.PackBitsIsLsbFirst :=
  fun m start count => ⟨length_packBits m start count, fun _ h => getLsbD_byteAt_packBits m start h⟩

/-! ### Unpacking what was packed -/

/-- Unpacking a packed run tells which registers of the run are nonzero (R101, R102). -/
theorem unpackBits_packBits (m : Memory) (start count : Nat) :
    unpackBits (packBits m start count) count =
      ((List.range count).map fun i => Memory.get m (start + i)).map fun v => decide (v ≠ 0x0000#16) := by
  rw [unpackBits, List.map_map]
  refine List.map_congr_left fun i hi => ?_
  have hlt : i < count := List.mem_range.1 hi
  rw [getLsbD_byteAt_packBits m start (by omega), decide_eq_true hlt, Bool.true_and]
  rfl

theorem packWords_succ (m : Memory) (start n : Nat) :
    packWords m start (n + 1) =
      packWords m start n ++ [hiByte (Memory.get m (start + n)), loByte (Memory.get m (start + n))] := by
  simp [packWords, List.range_succ]

theorem length_packWords (m : Memory) (start n : Nat) : (packWords m start n).length = 2 * n := by
  induction n with
  | zero => rfl
  | succ n ih => rw [packWords_succ, List.length_append, ih]; rfl

/-- The bytes at `2 i` and `2 i + 1` of a packed run are register `i` (R103). -/
theorem be16_byteAt_packWords (m : Memory) (start : Nat) {n i : Nat} (h : i < n) :
    be16 (byteAt (packWords m start n) (2 * i)) (byteAt (packWords m start n) (2 * i + 1)) =
      Memory.get m (start + i) := by
  induction n with
  | zero => cases h
  | succ n ih =>
    have hlen := length_packWords m start n
    rw [packWords_succ]
    rcases Nat.lt_succ_iff_lt_or_eq.1 h with hlt | rfl
    · rw [byteAt, byteAt, List.getD_append _ _ _ _ (by omega), List.getD_append _ _ _ _ (by omega)]
      exact ih hlt
    · rw [byteAt, byteAt, List.getD_append_right _ _ _ _ (by omega), List.getD_append_right _ _ _ _ (by omega), hlen,
        Nat.sub_self, Nat.add_sub_cancel_left]
      exact be16_hiByte_loByte _

/-- Unpacking a packed run gives the registers of the run (R103, R104). -/
theorem unpackWords_packWords (m : Memory) (start count : Nat) :
    unpackWords (packWords m start count) count = (List.range count).map fun i => Memory.get m (start + i) :=
  List.map_congr_left fun _ hi => be16_byteAt_packWords m start (List.mem_range.1 hi)

/-! ### A run written to a table with a place for every address -/

/-- A canonical table without an entry for some address has fewer entries than there are addresses
(spec/10_state.md R12, spec/42_register_table.md R128). -/
theorem Memory.length_lt_of_absent {m : Memory} (h : Memory.wf m = true) {a : Nat} (ha : a < 65536)
    (habsent : Memory.lookup m a = none) : m.length < 65536 := by
  obtain ⟨hrising, hbound⟩ := (Memory.wf_iff m).1 h
  have hfresh : a ∉ m.map Entry.addr := by simpa using (Memory.lookup_eq_none m a).1 habsent
  have hnodup : (a :: m.map Entry.addr).Nodup := List.nodup_cons.2 ⟨hfresh, hrising.imp Nat.ne_of_lt⟩
  have hsub : a :: m.map Entry.addr ⊆ List.range 65536 := by
    intro b hb
    rcases List.mem_cons.1 hb with rfl | hb
    · exact List.mem_range.2 ha
    · exact List.mem_range.2 ((Memory.addr_bound_iff m).1 hbound b hb)
  have hle := (List.subperm_of_subset hnodup hsub).length_le
  rwa [List.length_cons, List.length_map, List.length_range] at hle

/-- The writes of a range leave `get` of an address outside it as it was (R163). -/
theorem Memory.get_writeRange_outside (cap : Nat) (vs : List Word) {m : Memory} (h : Memory.Rising m) {a b : Nat}
    (hb : b < a ∨ a + vs.length ≤ b) : Memory.get (Memory.writeRange cap m a vs).1 b = Memory.get m b := by
  rw [Memory.get_eq (Memory.rising_writeRange cap vs h a), Memory.lookup_writeRange_outside cap vs h a b hb,
    Memory.get_eq h]

/-- With a place for every address, the registers of a written run are the values written: each write has room, and the
later writes leave it. -/
theorem Memory.map_get_writeRange (vs : List Word) {m : Memory} (h : Memory.wf m = true) {a : Nat}
    (ha : a + vs.length ≤ 65536) :
    ((List.range vs.length).map fun i => Memory.get (Memory.writeRange 65536 m a vs).1 (a + i)) = vs := by
  induction vs generalizing m a with
  | nil => rfl
  | cons v vs ih =>
    rw [List.length_cons] at ha
    have hwf : Memory.wf (Memory.set 65536 m a v) = true := Memory.wf_set 65536 h (by omega) v
    have hroom : m.length < 65536 ∨ Memory.lookup m a ≠ none :=
      or_iff_not_imp_right.2 fun hne => Memory.length_lt_of_absent h (by omega) (not_not.1 hne)
    have hfirst : Memory.get (Memory.writeRange 65536 (Memory.set 65536 m a v) (a + 1) vs).1 a = v := by
      rw [Memory.get_writeRange_outside _ _ (Memory.wf_rising hwf) (.inl a.lt_succ_self),
        Memory.get_set_room (Memory.wf_rising h) v hroom]
    have hrest := ih hwf (a := a + 1) (by omega)
    simp only [Nat.add_right_comm a 1, Nat.add_assoc a] at hrest
    rw [List.length_cons, List.range_succ_eq_map, List.map_cons, List.map_map]
    exact congrArg₂ List.cons hfirst hrest

/-- A stored coil is nonzero exactly when it is set (R185, R187). -/
theorem coilValue_ne_zero (b : Bool) : decide (coilValue b ≠ 0x0000#16) = b := by
  cases b <;> rfl

/-- Settles O45: unpacking tells which of the stored values are nonzero, which are the set coils. -/
theorem packBitsRoundTrip : Obligations.PackBitsRoundTrip := by
  intro m start xs hwf hfits
  have hstored := Memory.map_get_writeRange (xs.map coilValue) hwf (a := start) (by rwa [List.length_map])
  rw [List.length_map] at hstored
  rw [unpackBits_packBits, hstored, List.map_map]
  exact (List.map_congr_left fun b _ => coilValue_ne_zero b).trans (List.map_id xs)

/-- Settles O46: unpacking gives the registers of the run, which are the values stored. -/
theorem packWordsRoundTrip : Obligations.PackWordsRoundTrip := by
  intro m start xs hwf hfits
  rw [unpackWords_packWords, Memory.map_get_writeRange xs hwf hfits]

end Sys2Proof.Machine
end

section
/-! The statements about the register table (spec/42_register_table.md): where the binary search stops, what each operation of the
administrative port does between cycles, and that a cycle in progress holds the port. -/

namespace Sys2Proof.Machine

/-! ### The binary search -/

/-- No two entries of a table in order have the same address (spec/10_state.md R12). -/
theorem Memory.index_unique {m : Memory} (h : Memory.Rising m) {a i j : Nat} (hi : Memory.HitAt m a i)
    (hj : Memory.HitAt m a j) : i = j := by
  obtain ⟨e, he, hea⟩ := hi
  obtain ⟨f, hf, hfa⟩ := hj
  rcases Nat.lt_trichotomy i j with hlt | heq | hgt
  · exact absurd (Memory.rising_getElem h he hf hlt) (by omega)
  · exact heq
  · exact absurd (Memory.rising_getElem h hf he hgt) (by omega)

theorem Memory.gap_not_hit {m : Memory} {a i j : Nat} (hi : Memory.GapAt m a i) : ¬ Memory.HitAt m a j := by
  rintro ⟨e, he, hea⟩
  exact (Memory.lookup_eq_none m a).1 (Memory.gap_lookup hi) e (List.mem_of_getElem? he) hea

/-- The insertion point is the number of entries below. -/
theorem Memory.length_filter_lt_of_gap {m : Memory} {a i : Nat} (hi : Memory.GapAt m a i) :
    (m.filter fun e => decide (e.addr < a)).length = i := by
  obtain ⟨hle, hbelow, habove⟩ := hi
  have htake : (m.take i).filter (fun e => decide (e.addr < a)) = m.take i :=
    List.filter_eq_self.2 fun e he => decide_eq_true (hbelow e he)
  have hdrop : (m.drop i).filter (fun e => decide (e.addr < a)) = [] :=
    List.filter_eq_nil_iff.2 fun e he => by simpa using (habove e he).le
  rw [← List.take_append_drop i m, List.filter_append, htake, hdrop, List.append_nil, List.length_take,
    Nat.min_eq_left hle]

theorem Memory.find_of_hit {m : Memory} (h : Memory.Rising m) {a i : Nat} (hi : Memory.HitAt m a i) :
    Memory.find m a = (true, i) := by
  rcases Memory.find_cases h a with ⟨j, hfind, hj⟩ | ⟨j, _, hgap⟩
  · rw [hfind, Memory.index_unique h hj hi]
  · exact absurd hi (Memory.gap_not_hit hgap)

theorem Memory.find_of_absent {m : Memory} (h : Memory.Rising m) {a : Nat} (habsent : ∀ e ∈ m, e.addr ≠ a) :
    Memory.find m a = (false, (m.filter fun e => decide (e.addr < a)).length) := by
  rcases Memory.find_cases h a with ⟨j, _, e, he, hea⟩ | ⟨j, hfind, hgap⟩
  · exact absurd hea (habsent e (List.mem_of_getElem? he))
  · rw [hfind, Memory.length_filter_lt_of_gap hgap]

/-- Settles O35: the search stops at the one entry with the address, or at the insertion point. -/
theorem findAnswersIndexOrInsertionPoint : Obligations.FindAnswersIndexOrInsertionPoint :=
  fun _ _ hwf =>
    ⟨fun _ _ he => Memory.find_of_hit (Memory.wf_rising hwf) ⟨_, he, rfl⟩, Memory.find_of_absent (Memory.wf_rising hwf)⟩

/-! ### The operations of the administrative port between cycles -/

section Performed

variable {s : State} (hphase : s.phase = .awaitingFrame)
include hphase

theorem exec_admGet (addr : Word) :
    exec (.admGet addr) s = .next { s with admOut := ⟨some (Memory.get s.table addr.toNat), none⟩ } :=
  congrArg _ (admPerform_awaiting _ hphase)

theorem exec_admSet (addr v : Word) :
    exec (.admSet addr v) s =
      .next { s with table := Memory.set s.params.tableCap s.table addr.toNat v, admOut := ⟨none, none⟩ } :=
  congrArg _ (admPerform_awaiting _ hphase)

theorem exec_admVset (addr v : Word) :
    exec (.admVset addr v) s = .next { s with
      table := (Memory.verifyAndSet s.params.tableCap s.table addr.toNat v).1
      admOut := ⟨none, some (Memory.verifyAndSet s.params.tableCap s.table addr.toNat v).2⟩ } :=
  congrArg _ (admPerform_awaiting _ hphase)

theorem exec_admExists (addr : Word) :
    exec (.admExists addr) s = .next { s with admOut := ⟨none, some (Memory.present s.table addr.toNat)⟩ } :=
  congrArg _ (admPerform_awaiting _ hphase)

theorem exec_admDelete (addr : Word) :
    exec (.admDelete addr) s =
      .next { s with table := Memory.delete s.table addr.toNat, admOut := ⟨none, none⟩ } :=
  congrArg _ (admPerform_awaiting _ hphase)

end Performed

/-- Settles O36: on a table in order `get` reads the map. -/
theorem admGetReadsStoredValueOrZero : Obligations.AdmGetReadsStoredValueOrZero := by
  intro s addr hphase hwf
  rw [exec_admGet hphase, Memory.get_eq (Memory.wf_rising hwf)]

/-- Settles O37: the table is the one of `set`, whose map, order and length are known. -/
theorem admSetOverwritesOrInserts : Obligations.AdmSetOverwritesOrInserts := by
  intro s addr v hphase hwf
  have hrising := Memory.wf_rising hwf
  exact ⟨_, exec_admSet hphase addr v, Memory.wf_set _ hwf addr.isLt v, Memory.lookup_set hrising _ _ v,
    Memory.length_set hrising _ _ v⟩

/-- The answer of `verify_and_set` in terms of the map `set` leaves (R123). -/
theorem Memory.verifyAndSet_eq {m : Memory} (h : Memory.Rising m) (cap a : Nat) (v : Word) :
    Memory.verifyAndSet cap m a v =
      (Memory.set cap m a v, decide ((Memory.lookup (Memory.set cap m a v) a).getD 0x0000#16 = v)) := by
  rw [Memory.verifyAndSet, Memory.get_eq (Memory.rising_set h cap a v), beq_eq_decide]

/-- Settles O38: `verify_and_set` is `set`, and then the value read back from the table it leaves. -/
theorem admVsetSetsAndReadsBack : Obligations.AdmVsetSetsAndReadsBack := by
  intro s addr v hphase hwf
  refine ⟨_, exec_admSet hphase addr v, ?_⟩
  rw [exec_admVset hphase, Memory.verifyAndSet_eq (Memory.wf_rising hwf)]

/-- On a full table `verify_and_set` of an absent address drops the write and then reads 0 (R128). -/
theorem Memory.verifyAndSet_full {m : Memory} (h : Memory.Rising m) {cap a : Nat} (v : Word)
    (habsent : Memory.lookup m a = none) (hfull : ¬ m.length < cap) :
    Memory.verifyAndSet cap m a v = (m, decide (v = 0x0000#16)) := by
  rw [Memory.verifyAndSet_eq h, Memory.set_full h v habsent hfull, habsent, Option.getD_none]
  simp only [eq_comm]

/-- Settles O39: a full table drops the write of an absent address, and a present address is overwritten and read back. -/
theorem fullTableDropsNewEntries : Obligations.FullTableDropsNewEntries := by
  intro s addr v hphase hwf
  have hrising := Memory.wf_rising hwf
  constructor
  · intro hlength habsent
    have hfull : ¬ s.table.length < s.params.tableCap := hlength.not_lt
    constructor
    · rw [exec_admSet hphase, Memory.set_full hrising v habsent hfull]
    · rw [exec_admVset hphase, Memory.verifyAndSet_full hrising v habsent hfull]
  · intro hpresent
    obtain ⟨hlength, hlookup⟩ := Memory.set_hit hrising s.params.tableCap v hpresent
    refine ⟨Memory.set s.params.tableCap s.table addr.toNat v, ?_, (hlookup _).trans (if_pos rfl), hlength⟩
    rw [exec_admVset hphase, Memory.verifyAndSet_room hrising v (.inr hpresent)]

/-- Settles O40: on a table in order `exists` tells whether the map is defined. -/
theorem admExistsTellsPresence : Obligations.AdmExistsTellsPresence := by
  intro s addr hphase hwf
  rw [exec_admExists hphase, Memory.present_eq (Memory.wf_rising hwf)]

/-- Settles O41: on a table in order `delete` leaves the entries with another address. -/
theorem admDeleteRemovesTheEntry : Obligations.AdmDeleteRemovesTheEntry := by
  intro s addr hphase hwf
  rw [exec_admDelete hphase, Memory.delete_eq (Memory.wf_rising hwf)]

/-! ### The port during a cycle -/

@[simp] theorem admPerform_pending (op : Memory → Memory × AdmResult) (s : State) :
    (admPerform op s).pending = s.pending := by
  unfold admPerform; split <;> rfl

/-- In the middle of a cycle a step does what it would do with other events waiting, and takes none of them (R127). -/
theorem step_inCycle_pending {s : State} (hphase : s.phase ≠ .awaitingFrame) :
    ∃ t, step s = .next t ∧ t.phase = .awaitingFrame ∧ t.pending = s.pending ∧
      ∀ p, step { s with pending := p } = .next { t with pending := p } := by
  obtain ⟨i, r, hi, hr, hstep⟩ := step_inCycle hphase
  obtain ⟨⟨_, _, hpending, _⟩, hend⟩ := request_run hr s
  refine ⟨runRequest r s, hstep, hend, hpending, fun p => ?_⟩
  obtain ⟨i', r', hi', hr', hstep'⟩ := step_inCycle (s := { s with pending := p }) hphase
  cases hi.symm.trans hi'
  cases hr.symm.trans hr'
  rw [hstep', request_run_pending hr]

/-- Settles O43: a cycle ends without reading the events that wait, the step after it takes the operation, and an operation is
held or writes the table and its outputs alone. -/
theorem administrativePortIsHeldDuringACycle : Obligations.AdministrativePortIsHeldDuringACycle := by
  constructor
  · intro s op addr wdata rest hphase hwaits
    obtain ⟨t, hstep, hend, hpending, hother⟩ := step_inCycle_pending hphase
    have hkept := hpending.trans hwaits
    have htaken := step_adm hend hkept
    obtain ⟨admOp, hexec⟩ := exec_adm (decodeAdm_request op addr wdata) { t with pending := rest }
    exact ⟨t, _, hstep, hend, hkept, hother [], htaken, htaken.trans hexec, admPerform_pending admOp _⟩
  · intro i s hi
    obtain ⟨admOp, hexec⟩ := exec_adm hi s
    rw [hexec]
    constructor
    · intro hphase
      rw [admPerform_held admOp hphase]
    · intro hphase
      exact ⟨_, congrArg _ (admPerform_awaiting admOp hphase), rfl, rfl, rfl, rfl, rfl, rfl, rfl, rfl, rfl⟩

end Sys2Proof.Machine
end

section
/-! The statement about the frame codec (spec/43_frame_codec.md): splitting a frame loses none of its bytes. -/

namespace Sys2Proof

/-- A split frame is its fields in order, its CRC's low byte first, whether or not the CRC is good (R141). -/
theorem eq_fields_of_parse {raw : List Byte} {f : Frame} (h : parse raw = some f) :
    raw = [f.addr, f.fc] ++ f.payload ++ [loByte f.crc, hiByte f.crc] := by
  obtain ⟨hlen, _, _, _, hcrc⟩ := parse_fields h
  obtain ⟨n, hn⟩ : ∃ n, raw.length = n + 2 := ⟨raw.length - 2, by omega⟩
  have hbody : [f.addr, f.fc] ++ f.payload = raw.take n := by rw [body_of_parse h, hn, Nat.add_sub_cancel]
  have hlow : loByte f.crc = byteAt raw n := by rw [hcrc, loByte_be16, hn, Nat.add_sub_cancel]
  have hhigh : hiByte f.crc = byteAt raw (n + 1) := by rw [hcrc, hiByte_be16, hn, Nat.add_succ_sub_one]
  calc raw
      = raw.take n ++ [byteAt raw n] ++ [byteAt raw (n + 1)] := by
        rw [take_concat_byteAt (by omega), take_concat_byteAt (by omega), List.take_of_length_le (by omega)]
    _ = [f.addr, f.fc] ++ f.payload ++ [loByte f.crc, hiByte f.crc] := by
        rw [hbody, hlow, hhigh, List.append_assoc, List.singleton_append]

/-- Settles O52: a serialized frame carries the CRC of its body, a good frame is its fields serialized again, and the fields of a
split determine every byte, whatever the CRC. -/
theorem parseAndSerializeAgree : Obligations.ParseAndSerializeAgree := by
  refine ⟨fun addr fc payload => ?_, fun raw f hparse hcheck => ?_, fun raw raw' f hparse hparse' => ?_⟩
  · exact ⟨_, parse_serialize addr fc payload, rfl, rfl, rfl, beq_self_eq_true _⟩
  · exact serialize_of_parse hparse ((checkCrc_iff hparse).1 hcheck)
  · rw [eq_fields_of_parse hparse, ← eq_fields_of_parse hparse']

end Sys2Proof
end

section
/-! The statements about the dispatcher (spec/44_dispatcher.md): how a step ends and which event it takes, what becomes of a frame
that is dropped or kept, the broadcast, the identity 0, the edges of the state machine, and what the writes leave alone. -/

namespace Sys2Proof.Machine

/-! ### Every step ends, with at most one event taken -/

/-- The cycle of a delivered frame ends and takes no further event (R167). -/
theorem frame_ends (raw : List Byte) (s : State) :
    ∃ t, perform (fetchFrame raw s) = .next t ∧ t.phase = .awaitingFrame ∧ t.pending = s.pending := by
  rcases frame_cases raw s with ⟨_, sc, ht⟩ | ⟨_, _, _, f, _, ht⟩ | ⟨_, _, _, i, r, _, hr, _, _, _, _, _, ht⟩
  · exact ⟨_, ht, rfl, rfl⟩
  · exact ⟨_, ht, rfl, rfl⟩
  · obtain ⟨⟨_, _, hpending, _⟩, hend⟩ := request_run hr s
    exact ⟨_, ht, hend, hpending⟩

/-- Between cycles an operation of the administrative port that waits is taken and writes the table and its outputs alone
(spec/42_register_table.md R127). -/
theorem step_adm_performed {s : State} {op : BitVec 3} {addr wdata : Word} {rest : List Event}
    (hphase : s.phase = .awaitingFrame) (he : s.pending = .request (.adm op addr wdata) :: rest) :
    ∃ admOp : Memory → Memory × AdmResult, step s =
      .next { s with pending := rest, table := (admOp s.table).1, admOut := (admOp s.table).2 } := by
  obtain ⟨admOp, hexec⟩ := exec_adm (decodeAdm_request op addr wdata) { s with pending := rest }
  refine ⟨admOp, ?_⟩
  rw [step_adm hphase he, hexec, admPerform_awaiting (s := { s with pending := rest }) admOp hphase]

/-- Between cycles a step takes exactly the first event that waits, whatever it is (R151, spec/60_exceptions.md R206). -/
theorem step_takes_event {s : State} (hphase : s.phase = .awaitingFrame) {e : Event} {rest : List Event}
    (he : s.pending = e :: rest) : ∃ t, step s = .next t ∧ t.phase = .awaitingFrame ∧ t.pending = rest := by
  match e with
  | .request (.frame raw) =>
    rw [step_frame ⟨hphase, he⟩]
    exact frame_ends raw _
  | .request (.adm op addr wdata) =>
    obtain ⟨admOp, hstep⟩ := step_adm_performed hphase he
    exact ⟨_, hstep, hphase, rfl⟩
  | .timeout => exact ⟨_, step_timeout hphase he, rfl, rfl⟩
  | .reset cfg => exact ⟨_, step_reset hphase he, rfl, rfl⟩
  | .resetDuring raw cfg =>
    obtain ⟨u, hu, hstep⟩ := step_resetDuring hphase he
    obtain ⟨u', hu', _, hpending⟩ := frame_ends raw { s with pending := rest }
    cases hu.symm.trans hu'
    exact ⟨_, hstep, rfl, hpending⟩

/-- Settles O4, by cases on whether a cycle is in progress and, between cycles, on whether an event waits. -/
theorem everyStepEndsAndTakesAtMostOneEvent : Obligations.EveryStepEndsAndTakesAtMostOneEvent := by
  intro s
  by_cases hphase : s.phase = .awaitingFrame
  · rw [if_pos hphase]
    match he : s.pending with
    | [] => exact ⟨s, step_idle hphase he, hphase, he, fun _ _ => rfl⟩
    | e :: rest =>
      obtain ⟨t, hstep, hend, hpending⟩ := step_takes_event hphase he
      exact ⟨t, hstep, hend, hpending, fun _ hnone => nomatch hnone⟩
  · rw [if_neg hphase]
    obtain ⟨t, hstep, hend, hpending, _⟩ := step_inCycle_pending hphase
    exact ⟨t, hstep, hend, hpending, fun hwaits => absurd hwaits hphase⟩

/-- Settles O5: a frame that decodes is fetched as its instruction, and an operation of the administrative port always is. -/
theorem stepRunsTheDecodedInstruction : Obligations.StepRunsTheDecodedInstruction := by
  constructor
  · intro s raw rest i hreceives hfits hdecode
    rw [step_frame hreceives, fetchFrame_instr (s := { s with pending := rest }) hfits hdecode, perform]
  · intro s op addr wdata rest i hphase he hdecode
    cases hdecode
    exact step_adm hphase he

/-- Settles O6: the step drops the cycle with the outcome `Timeout`, in the phase it was in. -/
theorem timeoutOnlyReports : Obligations.TimeoutOnlyReports := by
  intro s rest hphase he
  rw [step_timeout hphase he, drop, ← hphase]

/-! ### Frames that are dropped, and frames that are kept -/

/-- A cycle that is dropped reports its outcome and sends nothing (spec/60_exceptions.md R202). -/
theorem drop_silent (s : State) (rest : List Event) (o : CycleOutcome) (sc : Scratch) :
    State.Silent s { drop o { s with pending := rest } with scratch := sc } o :=
  ⟨rfl, rfl, rfl, rfl, rfl, rfl, rfl, rfl, rfl⟩

/-- A frame with a good CRC that fits runs the request it decodes to, which has the address byte of the frame (R153, R154). -/
theorem frame_good {raw : List Byte} {s : State} (h4 : 4 ≤ raw.length) (hfits : fitsBuffer s.params raw)
    (hcrc : crcCorrect raw) :
    ∃ i r, decode s.params.extCodes (.frame raw) = .instr i ∧ Instr.request? i = some r ∧ r.addr = byteAt raw 0 ∧
      exec i s = .next (runRequest r s) ∧ perform (fetchFrame raw s) = .next (runRequest r s) := by
  rcases frame_cases raw s with ⟨herr, _⟩ | ⟨_, _, hbad, _⟩ | ⟨_, _, _, i, r, hi, hr, haddr, _, _, _, hexec, ht⟩
  · exact herr.elim (fun hlt => absurd h4 hlt.not_ge) (absurd hfits)
  · exact absurd hcrc hbad
  · exact ⟨i, r, hi, hr, haddr, hexec, ht⟩

/-- What the receive buffer and the parsed fields hold of the frame `raw` split into `f` (R153, spec/10_state.md R17, R18). -/
abbrev HoldsFrame (sc : Scratch) (raw : List Byte) (f : Frame) : Prop :=
  sc.raw = raw ∧ sc.fAddr = f.addr ∧ sc.fFc = f.fc ∧ sc.fPayload = f.payload ∧ sc.fCrc = f.crc

/-- A frame that is long enough and fits is split, and the split stands after the cycle, whatever the CRC (R153). -/
theorem frame_holds {raw : List Byte} {s : State} (hphase : s.phase = .awaitingFrame) (h4 : 4 ≤ raw.length)
    (hfits : fitsBuffer s.params raw) :
    ∃ f t, parse raw = some f ∧ perform (fetchFrame raw s) = .next t ∧ HoldsFrame t.scratch raw f := by
  rcases frame_cases raw s with ⟨herr, _⟩ | ⟨_, _, _, f, hf, ht⟩ | ⟨_, _, _, i, r, _, hr, _, _, _, hraw, _, ht⟩
  · exact herr.elim (fun hlt => absurd h4 hlt.not_ge) (absurd hfits)
  · exact ⟨f, _, hf, ht, rfl, rfl, rfl, rfl, rfl⟩
  · have hparse := parse_serialize r.addr r.fc r.payload
    have hkept := request_frame hr hphase
    rw [hraw] at hparse hkept
    exact ⟨_, _, hparse, ht, hkept⟩

/-- Settles O7: a frame that cannot be split is dropped, and the fields of every other one are those of `parse`. -/
theorem frameErrorOrParsedFields : Obligations.FrameErrorOrParsedFields := by
  intro s raw rest hreceives
  have ⟨hphase, _⟩ := hreceives
  have hstep := step_frame hreceives
  obtain ⟨t, ht, _, hpending⟩ := frame_ends raw { s with pending := rest }
  refine ⟨t, hstep.trans ht, hpending, ?_⟩
  split
  · next herr =>
    obtain ⟨sc, hdropped⟩ := frame_frameError (s := { s with pending := rest }) herr
    cases ht.symm.trans hdropped
    exact drop_silent s rest .frameError sc
  · next herr =>
    obtain ⟨hlt, hnotFits⟩ := not_or.1 herr
    obtain ⟨f, t', hf, ht', hraw, haddr, hfc, hpayload, hcrc⟩ := frame_holds (s := { s with pending := rest }) hphase
      (Nat.le_of_not_lt hlt) (not_not.1 hnotFits)
    cases ht.symm.trans ht'
    obtain ⟨_, faddr, ffc, fpayload, fcrc⟩ := parse_fields hf
    rw [List.drop_take]
    exact ⟨hraw, haddr.trans faddr, hfc.trans ffc, hpayload.trans fpayload, hcrc.trans fcrc⟩

/-- Settles O8: the cycle of the frame is dropped as `BadCrc`. -/
theorem wrongCrcIsDroppedSilently : Obligations.WrongCrcIsDroppedSilently := by
  intro s raw rest hreceives h4 hfits hcrc
  obtain ⟨sc, ht⟩ := frame_badCrc (s := { s with pending := rest }) h4 hfits hcrc
  exact ⟨_, (step_frame hreceives).trans ht, rfl, drop_silent s rest .badCrc sc⟩

/-- Settles O9: the frame is a request with the frame's address byte, which fails the address check. -/
theorem foreignFrameIsDroppedSilently : Obligations.ForeignFrameIsDroppedSilently := by
  intro s raw rest hreceives h4 hfits hcrc h0 hunit
  have ⟨hphase, _⟩ := hreceives
  obtain ⟨i, r, _, _, haddr, _, ht⟩ := frame_good (s := { s with pending := rest }) h4 hfits hcrc
  rw [← haddr] at h0 hunit
  rw [runRequest_other (s := { s with pending := rest }) hphase h0 hunit] at ht
  exact ⟨_, (step_frame hreceives).trans ht, rfl, drop_silent s rest .notRecipient _⟩

/-! ### The broadcast, and the identity 0 -/

/-- A broadcast is not answered (R155, R164). -/
theorem ended_sent_broadcast (s : State) (sc : Scratch) (m : Memory) (o : CycleOutcome) (fc : Byte) (pl : List Byte) :
    (ended s sc m 0x00#8 o fc pl).sent = s.sent := by
  rw [ended, if_pos rfl]

/-- Settles O10: the request ends with one table and one outcome under either address byte, and the byte alone decides whether it
is answered. -/
theorem broadcastExecutesLikeAddressed : Obligations.BroadcastExecutesLikeAddressed := by
  intro i r s hr hphase hunit
  obtain ⟨m, o, fc, pl, n, _, hruns⟩ := request_taken hr s
  obtain ⟨r₀, sc₀, hr₀, hrun₀⟩ := hruns 0x00#8 s rfl rfl rfl ⟨hphase, .inl rfl⟩
  obtain ⟨r₁, sc₁, hr₁, hrun₁⟩ := hruns s.unitId s rfl rfl rfl ⟨hphase, .inr rfl⟩
  have hsuppress : suppressFor s.unitId = false := beq_false_of_ne hunit
  refine ⟨_, _, (exec_request hr₀ s).trans (congrArg _ hrun₀), (exec_request hr₁ s).trans (congrArg _ hrun₁),
    rfl, rfl, rfl, rfl, hsuppress, rfl, ended_sent_broadcast s sc₀ m o fc pl, decide_eq_true hunit, _,
    ended_sent_addressed hunit s sc₁ m o fc pl⟩

/-- A request ends with `NotRecipient` only if it is dropped (R155). -/
theorem ends_ne_notRecipient {s : State} {r : Request} {m : Memory} {o : CycleOutcome} {fc : Byte} {pl : List Byte}
    (h : Ends s r m o fc pl) : o ≠ .notRecipient := by
  obtain ⟨⟨rfl, _⟩ | ⟨e, rfl, _⟩, _⟩ := h
  · decide
  · cases e <;> decide

/-- Under the identity 0 a request is answered to nobody: dropped, or a broadcast (R156). -/
theorem runRequest_unitIdZero {i : Instr} {r : Request} (hr : Instr.request? i = some r) {s : State}
    (hphase : s.phase = .awaitingFrame) (hunit : s.unitId = 0x00#8) :
    (runRequest r s).sent = s.sent ∧
    (r.addr ≠ 0x00#8 → (runRequest r s).outcome = .notRecipient ∧ (runRequest r s).table = s.table) ∧
    (r.addr = 0x00#8 → (runRequest r s).outcome ≠ .notRecipient) := by
  rcases request_cases hr hphase with ⟨h0, _, hdropped⟩ | ⟨⟨_, htakes⟩, sc, m, o, fc, pl, n, htaken, hends⟩
  · rw [hdropped]
    exact ⟨rfl, fun _ => ⟨rfl, rfl⟩, fun h => absurd h h0⟩
  · have h0 : r.addr = 0x00#8 := htakes.elim id (·.trans hunit)
    rw [htaken, h0]
    exact ⟨ended_sent_broadcast s sc m o fc pl, absurd rfl, fun _ => ends_ne_notRecipient hends⟩

/-- Under the identity 0 the cycle of a delivered frame sends nothing. -/
theorem frame_unitIdZero_sent (raw : List Byte) {s : State} (hphase : s.phase = .awaitingFrame)
    (hunit : s.unitId = 0x00#8) : ∃ t, perform (fetchFrame raw s) = .next t ∧ t.sent = s.sent := by
  rcases frame_cases raw s with ⟨_, sc, ht⟩ | ⟨_, _, _, f, _, ht⟩ | ⟨_, _, _, i, r, _, hr, _, _, _, _, _, ht⟩
  · exact ⟨_, ht, rfl⟩
  · exact ⟨_, ht, rfl⟩
  · obtain ⟨hsent, _⟩ := runRequest_unitIdZero hr hphase hunit
    exact ⟨_, ht, hsent⟩

/-- A reset that strikes a cycle in which nothing was sent leaves nothing sent (spec/70_reset_and_hazards.md R239). -/
theorem cutShort_sent_of_silent {before after : State} (h : after.sent = before.sent) (cfg : Byte) :
    (cutShort cfg before after).sent = before.sent := by
  simp [cutShort, h]

/-- Under the identity 0 no step sends anything (R156). -/
theorem step_unitIdZero_sent {s : State} (hphase : s.phase = .awaitingFrame) (hunit : s.unitId = 0x00#8) :
    ∃ t, step s = .next t ∧ t.sent = s.sent := by
  match he : s.pending with
  | [] => exact ⟨s, step_idle hphase he, rfl⟩
  | .request (.frame raw) :: rest =>
    rw [step_frame ⟨hphase, he⟩]
    exact frame_unitIdZero_sent raw (s := { s with pending := rest }) hphase hunit
  | .request (.adm op addr wdata) :: rest =>
    obtain ⟨admOp, hstep⟩ := step_adm_performed hphase he
    exact ⟨_, hstep, rfl⟩
  | .timeout :: rest => exact ⟨_, step_timeout hphase he, rfl⟩
  | .reset cfg :: rest => exact ⟨_, step_reset hphase he, rfl⟩
  | .resetDuring raw cfg :: rest =>
    obtain ⟨u, hu, hstep⟩ := step_resetDuring hphase he
    obtain ⟨u', hu', hsent⟩ := frame_unitIdZero_sent raw (s := { s with pending := rest }) hphase hunit
    cases hu.symm.trans hu'
    exact ⟨_, hstep, cutShort_sent_of_silent hsent cfg⟩

/-- Settles O11: nothing is sent whatever the event, and a good frame is a request, dropped or executed by its address byte. -/
theorem unitIdZeroNeverSends : Obligations.UnitIdZeroNeverSends := by
  intro s hphase hunit
  refine ⟨step_unitIdZero_sent hphase hunit, fun raw rest he h4 hfits hcrc => ?_⟩
  obtain ⟨i, r, hi, hr, haddr, hexec, ht⟩ := frame_good (s := { s with pending := rest }) h4 hfits hcrc
  obtain ⟨_, hforeign, hbroadcast⟩ := runRequest_unitIdZero hr (s := { s with pending := rest }) hphase hunit
  rw [haddr] at hforeign hbroadcast
  exact ⟨_, (step_frame ⟨hphase, he⟩).trans ht, hforeign, fun h0 => ⟨i, hi, hexec, hbroadcast h0⟩⟩

/-! ### The edges of the state machine -/

/-- Settles O17: an edge is one of R150's, and six more are enough from any phase. -/
theorem phaseMovesOnlyAlongTheEdges : Obligations.PhaseMovesOnlyAlongTheEdges := by
  intro i r hr s
  obtain ⟨_, hmove, _⟩ := request_edge hr s
  obtain ⟨_, _, hend⟩ := request_finish hr 6 (edge r s) (Phase.left_le _)
  exact ⟨hmove, hend⟩

/-! ### What the writes leave alone -/

/-- The table a single write leaves differs at its address alone (R163). -/
theorem lookup_writeAnswer_outside {m : Memory} (h : Memory.Rising m) (cap : Nat) (fc : Byte) (w q : Word)
    (valueOk : Word → Bool) (k : Kind) (stored : Word → Word) {a : Nat} (ha : a ≠ translate k w) :
    Memory.lookup (writeAnswer cap m fc (.fields w q) valueOk k stored).1 a = Memory.lookup m a := by
  unfold writeAnswer
  dsimp only
  split
  · rfl
  · exact (Memory.lookup_set h cap _ _ a).trans (if_neg fun hat => ha hat.1)

/-- The table a multiple write leaves differs inside its run alone (R163). -/
theorem lookup_writeManyAnswer_outside {m : Memory} (h : Memory.Rising m) (cap : Nat) (fc : Byte) (w q : Word) (bc : Byte)
    (data : List Byte) (valueOk : Word → Byte → List Byte → Bool) (k : Kind) {unpack : List Byte → Nat → List Word}
    (hlen : ∀ d n, (unpack d n).length = n) {a : Nat} (ha : a < translate k w ∨ translate k w + q.toNat ≤ a) :
    Memory.lookup (writeManyAnswer cap m fc (.fields w q bc data) valueOk k unpack).1 a = Memory.lookup m a := by
  unfold writeManyAnswer
  dsimp only
  split
  · rfl
  · exact Memory.lookup_writeRange_outside cap _ h _ a (by rwa [hlen])

theorem length_coilsStored (data : List Byte) (n : Nat) : (coilsStored data n).length = n := by
  simp [coilsStored_eq]

theorem length_unpackWords (data : List Byte) (n : Nat) : (unpackWords data n).length = n := by
  simp [unpackWords]

/-- The cycle of a single write leaves every other address as it was (R163). -/
theorem runRequest_write_outside {s : State} {u fc : Byte} {w q : Word} {valueOk : Word → Bool} {k : Kind}
    {stored : Word → Word} (htakes : State.Takes s u) (hrising : Memory.Rising s.table) {a : Nat}
    (ha : a ≠ translate k w) :
    Memory.lookup (runRequest (writeRequest u fc (.fields w q) valueOk k stored) s).table a =
      Memory.lookup s.table a := by
  obtain ⟨sc, hrun, _⟩ := runRequest_write (fc := fc) (o := .fields w q) (valueOk := valueOk) (k := k) (stored := stored)
    htakes
  rw [hrun, ended_table, lookup_writeAnswer_outside hrising _ _ _ _ _ _ _ ha]

/-- The cycle of a multiple write leaves every address outside its run as it was (R163). -/
theorem runRequest_writeMany_outside {s : State} {u fc : Byte} {w q : Word} {bc : Byte} {data : List Byte}
    {valueOk : Word → Byte → List Byte → Bool} {k : Kind} {unpack : List Byte → Nat → List Word}
    (htakes : State.Takes s u) (hrising : Memory.Rising s.table) (hlen : ∀ d n, (unpack d n).length = n) {a : Nat}
    (ha : a < translate k w ∨ translate k w + q.toNat ≤ a) :
    Memory.lookup (runRequest (writeManyRequest u fc (.fields w q bc data) valueOk k unpack) s).table a =
      Memory.lookup s.table a := by
  obtain ⟨sc, hrun, _⟩ := runRequest_writeMany (fc := fc) (o := .fields w q bc data) (valueOk := valueOk) (k := k)
    (unpack := unpack) htakes
  rw [hrun, ended_table, lookup_writeManyAnswer_outside hrising _ _ _ _ _ _ _ _ hlen ha]

/-- Settles O28: each of the four is the cycle of a single or of a multiple write, which stores as many values as its amount
says. -/
theorem writesTouchOnlyTheirRun : Obligations.WritesTouchOnlyTheirRun := by
  intro s u htakes hwf
  have hrising := Memory.wf_rising hwf
  refine ⟨fun w q => ?wrcoil, fun w q => ?wrhold, fun w q bc data => ?wrcoils, fun w q bc data => ?wrholds⟩
  case wrcoil | wrhold => exact ⟨_, rfl, fun _ => runRequest_write_outside htakes hrising⟩
  case wrcoils => exact ⟨_, rfl, fun _ => runRequest_writeMany_outside htakes hrising length_coilsStored⟩
  case wrholds => exact ⟨_, rfl, fun _ => runRequest_writeMany_outside htakes hrising length_unpackWords⟩

/-! ### The bands -/

/-- The bases of two kinds are at least a band of 10000 addresses apart (R160). -/
theorem Kind.base_apart {k k' : Kind} (h : k ≠ k') : k.base + 10000 ≤ k'.base ∨ k'.base + 10000 ≤ k.base := by
  revert h
  cases k <;> cases k' <;> decide

/-- What the address check of a range function lets pass (R162). -/
theorem add_le_of_rangeAddressOk {w q : Word} (h : rangeAddressOk w q = true) : w.toNat + q.toNat ≤ 9998 := by
  simp only [rangeAddressOk_eq, Bool.not_eq_true', decide_eq_false_iff_not] at h
  omega

/-- What the address check of a single write lets pass (R162). -/
theorem le_of_singleAddressOk {w : Word} (h : singleAddressOk w = true) : w.toNat ≤ 9998 := by
  simpa [singleAddressOk_eq] using h

/-- Settles O47: what passes lies within 9998 of its kind's base, and the bases are further apart than that. -/
theorem checkedAddressesStayInTheirBand : Obligations.CheckedAddressesStayInTheirBand := by
  intro k w q
  simp only [translate]
  constructor
  · intro hok
    have hle := add_le_of_rangeAddressOk hok
    refine ⟨by omega, by omega, fun k' w' q' hok' hne => ?_⟩
    have hle' := add_le_of_rangeAddressOk hok'
    have hapart := Kind.base_apart hne
    omega
  · intro hok
    have hle := le_of_singleAddressOk hok
    refine ⟨by omega, by omega, fun k' hne => ?_⟩
    have hapart := Kind.base_apart hne
    refine ⟨fun w' hok' => ?_, fun w' q' hok' => ?_⟩
    · have hle' := le_of_singleAddressOk hok'
      omega
    · have hle' := add_le_of_rangeAddressOk hok'
      omega

end Sys2Proof.Machine
end

section
/-! The statements about the functions (spec/45_functions.md): how each of the eight function codes, an unsupported code and an
extension code answers, and what it leaves in the table. -/

namespace Sys2Proof.Machine

/-! ### The read functions -/

/-- How a range read answers fields, check by check (R158, R161, R162, R191). -/
theorem readAnswer_fields (p : Params) (m : Memory) (fc : Byte) (w q : Word) (bound : Nat) (k : Kind)
    (pack : Memory → Nat → Nat → List Byte) :
    readAnswer p m fc (.fields w q) bound k pack =
      if q.toNat < 1 ∨ bound < q.toNat then exceptionAnswer fc .illegalValue
      else if 9998 < w.toNat ∨ 9998 < w.toNat + q.toNat then exceptionAnswer fc .illegalAddress
      else (.normal, fc, countPrefix p (pack m (translate k w) q.toNat) ++ pack m (translate k w) q.toNat) := by
  simp only [readAnswer, firstFailure_eq _ _ (amountOk_eq bound q) (rangeAddressOk_eq w q)]
  split_ifs <;> rfl

/-- The end `t` of a range read from `s`: the wording that R181 to R184 share. -/
def ReadRule (s t : State) (u fc : Byte) (o : AqOperands) (bound : Nat) (k : Kind)
    (pack : Memory → Nat → Nat → List Byte) : Prop :=
  match o with
  | .badLength _ => State.Answered s t u .illegalValue (exceptionFc fc) [0x03#8]
  | .fields w q =>
    if q.toNat < 1 ∨ bound < q.toNat then State.Answered s t u .illegalValue (exceptionFc fc) [0x03#8]
    else if 9998 < w.toNat ∨ 9998 < w.toNat + q.toNat then
      State.Answered s t u .illegalAddress (exceptionFc fc) [0x02#8]
    else ∃ data, data = pack s.table (translate k w) q.toNat ∧ t.scratch.wrOk = true ∧
      State.Answered s t u .normal fc (countPrefix s.params data ++ data)

/-- A range read that the block takes ends as the rules say, and leaves the table alone. -/
theorem exec_read {i : Instr} {s : State} {u fc : Byte} {o : AqOperands} {bound : Nat} {k : Kind}
    {pack : Memory → Nat → Nat → List Byte} (hi : Instr.request? i = some (readRequest u fc o bound k pack))
    (htakes : State.Takes s u) :
    ∃ t, exec i s = .next t ∧ State.CycleKeeps s t ∧ t.table = s.table ∧ t.freeCount = s.freeCount ∧
      ReadRule s t u fc o bound k pack := by
  obtain ⟨sc, hrun, hok⟩ := runRequest_read (fc := fc) (o := o) (bound := bound) (k := k) (pack := pack) htakes
  refine ⟨_, (exec_request hi s).trans (congrArg _ hrun), ended_keeps .., rfl, rfl, ?_⟩
  cases o with
  | badLength p => exact ended_answered ..
  | fields w q =>
    rw [readAnswer_fields] at hok ⊢
    unfold ReadRule
    dsimp only
    split_ifs at hok ⊢
    · exact ended_answered ..
    · exact ended_answered ..
    · exact ⟨_, rfl, hok rfl, ended_answered ..⟩

/-- Settles O20: Read Coils is the range read of the coils. -/
theorem readCoilsRule : Obligations.ReadCoilsRule := fun _ u o htakes =>
  exec_read (i := .rdcoil u o) (fc := 0x01#8) (bound := Config.maxBits) (k := .coil) (pack := packBits) rfl htakes

/-- Settles O21: Read Discretes is the range read of the discretes. -/
theorem readDiscretesRule : Obligations.ReadDiscretesRule := fun _ u o htakes =>
  exec_read (i := .rddisc u o) (fc := 0x02#8) (bound := Config.maxBits) (k := .discrete) (pack := packBits) rfl htakes

/-- Settles O22: Read Holdings is the range read of the holding registers. -/
theorem readHoldingsRule : Obligations.ReadHoldingsRule := fun _ u o htakes =>
  exec_read (i := .rdhold u o) (fc := 0x03#8) (bound := Config.maxWords) (k := .holding) (pack := packWords) rfl htakes

/-- Settles O23: Read Inputs is the range read of the input registers. -/
theorem readInputsRule : Obligations.ReadInputsRule := fun _ u o htakes =>
  exec_read (i := .rdinp u o) (fc := 0x04#8) (bound := Config.maxWords) (k := .input) (pack := packWords) rfl htakes

/-! ### The write functions -/

/-- The answer of a request that checks a value, then an address, then writes, with the table it leaves: `written` is the
table after the writes and `wr_ok` (R158, R163, R164). -/
def checkedWriteAnswer (m : Memory) (fc : Byte) (badValue badAddress : Prop) [Decidable badValue] [Decidable badAddress]
    (written : Memory × Bool) (echo : List Byte) : Memory × CycleOutcome × Byte × List Byte :=
  if badValue then (m, exceptionAnswer fc .illegalValue)
  else if badAddress then (m, exceptionAnswer fc .illegalAddress)
  else (written.1, if written.2 then (.normal, fc, echo) else exceptionAnswer fc .deviceFailure)

/-- How a single write answers fields, check by check (R185, R186). -/
theorem writeAnswer_fields (cap : Nat) (m : Memory) (fc : Byte) {w q v : Word} {valueOk : Word → Bool} (k : Kind)
    {stored : Word → Word} {badValue : Prop} [Decidable badValue] (hvalue : valueOk q = !decide badValue)
    (hstored : stored q = v) :
    writeAnswer cap m fc (.fields w q) valueOk k stored =
      checkedWriteAnswer m fc badValue (9998 < w.toNat) (Memory.verifyAndSet cap m (translate k w) v)
        [hiByte w, loByte w, hiByte q, loByte q] := by
  simp only [writeAnswer, checkedWriteAnswer, firstFailure_eq _ _ hvalue (singleAddressOk_eq w), hstored]
  split_ifs <;> rfl

/-- How a multiple write answers fields, check by check (R187, R188); its writes are the loop of the rules. -/
theorem writeManyAnswer_fields (cap : Nat) (m : Memory) (fc : Byte) {w q : Word} {bc : Byte} {data : List Byte}
    {valueOk : Word → Byte → List Byte → Bool} (k : Kind) {unpack : List Byte → Nat → List Word} {badValue : Prop}
    [Decidable badValue] (hvalue : valueOk q bc data = !decide badValue) {value : Nat → Word}
    (hunpack : unpack data q.toNat = (List.range q.toNat).map value) :
    writeManyAnswer cap m fc (.fields w q bc data) valueOk k unpack =
      checkedWriteAnswer m fc badValue (9998 < w.toNat ∨ 9998 < w.toNat + q.toNat)
        (writeLoop cap m (translate k w) q.toNat value) [hiByte w, loByte w, hiByte q, loByte q] := by
  simp only [writeManyAnswer, checkedWriteAnswer, firstFailure_eq _ _ hvalue (rangeAddressOk_eq w q), hunpack,
    writeLoop_eq]
  split_ifs <;> rfl

/-- The end `t` of a write from `s` that fails a check with the exception `e`. -/
abbrev RejectedWrite (s t : State) (u fc : Byte) (e : ModbusException) : Prop :=
  t.table = s.table ∧ State.Answered s t u (exceptionOutcome e) (exceptionFc fc) [exceptionCode e]

/-- The end `t` of a write from `s` with fields: the wording that R185 to R188 share. -/
def WriteRule (s t : State) (u fc : Byte) (badValue badAddress : Prop) [Decidable badValue] [Decidable badAddress]
    (written : Memory × Bool) (echo : List Byte) : Prop :=
  if badValue then RejectedWrite s t u fc .illegalValue
  else if badAddress then RejectedWrite s t u fc .illegalAddress
  else (t.table, t.scratch.wrOk) = written ∧
    (if t.scratch.wrOk then State.Answered s t u .normal fc echo
     else State.Answered s t u .deviceFailure (exceptionFc fc) [0x04#8])

/-- A cycle from `s` ends in `t` with the table and the answer `a`, and `wr_ok` says whether the writes went through. -/
abbrev EndsWith (s t : State) (u : Byte) (a : Memory × CycleOutcome × Byte × List Byte) : Prop :=
  t.table = a.1 ∧ State.Answered s t u a.2.1 a.2.2.1 a.2.2.2 ∧ (a.2.1 = .normal → t.scratch.wrOk = true) ∧
  (a.2.1 = .deviceFailure → t.scratch.wrOk = false)

/-- A check that fails ends the write and leaves the table alone. -/
theorem EndsWith.rejected {s t : State} {u fc : Byte} {e : ModbusException}
    (h : EndsWith s t u (s.table, exceptionAnswer fc e)) : RejectedWrite s t u fc e := by
  obtain ⟨htable, hanswered, _⟩ := h
  exact ⟨htable, hanswered⟩

/-- A cycle that ends with the checked answer has followed the rule. -/
theorem EndsWith.writeRule {s t : State} {u fc : Byte} {badValue badAddress : Prop} [Decidable badValue]
    [Decidable badAddress] {written : Memory × Bool} {echo : List Byte}
    (h : EndsWith s t u (checkedWriteAnswer s.table fc badValue badAddress written echo)) :
    WriteRule s t u fc badValue badAddress written echo := by
  obtain ⟨m, ok⟩ := written
  unfold checkedWriteAnswer at h
  unfold WriteRule
  by_cases hvalue : badValue
  · rw [if_pos hvalue] at h ⊢
    exact h.rejected
  by_cases haddress : badAddress
  · rw [if_neg hvalue, if_pos haddress] at h ⊢
    exact h.rejected
  rw [if_neg hvalue, if_neg haddress] at h ⊢
  obtain ⟨htable, hanswered, hok, hfail⟩ := h
  cases ok with
  | true => exact ⟨Prod.ext htable (hok rfl), (if_pos (hok rfl)).mpr hanswered⟩
  | false => exact ⟨Prod.ext htable (hfail rfl), (if_neg (by simp [hfail rfl])).mpr hanswered⟩

/-- A single write that the block takes ends with its answer (R185, R186). -/
theorem exec_write {i : Instr} {s : State} {u fc : Byte} {o : AqOperands} {valueOk : Word → Bool} {k : Kind}
    {stored : Word → Word} (hi : Instr.request? i = some (writeRequest u fc o valueOk k stored))
    (htakes : State.Takes s u) :
    ∃ t, exec i s = .next t ∧ State.CycleKeeps s t ∧ t.freeCount = s.freeCount ∧
      EndsWith s t u (writeAnswer s.params.tableCap s.table fc o valueOk k stored) := by
  obtain ⟨sc, hrun, hok, hfail⟩ := runRequest_write (fc := fc) (o := o) (valueOk := valueOk) (k := k)
    (stored := stored) htakes
  exact ⟨_, (exec_request hi s).trans (congrArg _ hrun), ended_keeps .., rfl, rfl, ended_answered .., hok, hfail⟩

/-- A multiple write that the block takes ends with its answer (R187, R188). -/
theorem exec_writeMany {i : Instr} {s : State} {u fc : Byte} {o : AqbdOperands}
    {valueOk : Word → Byte → List Byte → Bool} {k : Kind} {unpack : List Byte → Nat → List Word}
    (hi : Instr.request? i = some (writeManyRequest u fc o valueOk k unpack)) (htakes : State.Takes s u) :
    ∃ t, exec i s = .next t ∧ State.CycleKeeps s t ∧ t.freeCount = s.freeCount ∧
      EndsWith s t u (writeManyAnswer s.params.tableCap s.table fc o valueOk k unpack) := by
  obtain ⟨sc, hrun, hok, hfail⟩ := runRequest_writeMany (fc := fc) (o := o) (valueOk := valueOk) (k := k)
    (unpack := unpack) htakes
  exact ⟨_, (exec_request hi s).trans (congrArg _ hrun), ended_keeps .., rfl, rfl, ended_answered .., hok, hfail⟩

/-- Settles O24: Write Coil is the single write of a coil. -/
theorem writeCoilRule : Obligations.WriteCoilRule := by
  intro s u o htakes
  obtain ⟨t, hexec, hkeeps, hfree, hends⟩ := exec_write (i := .wrcoil u o) rfl htakes
  refine ⟨t, hexec, hkeeps, hfree, ?_⟩
  cases o with
  | badLength p => exact hends.rejected
  | fields w q =>
    rw [writeAnswer_fields _ _ _ _ (coilWireOk_eq q) (coilStored_eq q)] at hends
    exact hends.writeRule

/-- Settles O25: Write Holding is the single write of a holding register, and no value fails its check. -/
theorem writeHoldingRule : Obligations.WriteHoldingRule := by
  intro s u o htakes
  obtain ⟨t, hexec, hkeeps, hfree, hends⟩ := exec_write (i := .wrhold u o) rfl htakes
  refine ⟨t, hexec, hkeeps, hfree, ?_⟩
  cases o with
  | badLength p => exact hends.rejected
  | fields w q =>
    rw [writeAnswer_fields _ _ _ _ (badValue := False) rfl rfl] at hends
    exact hends.writeRule

/-- Settles O26: Write Coils is the multiple write of coils. -/
theorem writeCoilsRule : Obligations.WriteCoilsRule := by
  intro s u o htakes
  obtain ⟨t, hexec, hkeeps, hfree, hends⟩ := exec_writeMany (i := .wrcoils u o) rfl htakes
  refine ⟨t, hexec, hkeeps, hfree, ?_⟩
  cases o with
  | short p => exact hends.rejected
  | fields w q bc data =>
    rw [writeManyAnswer_fields _ _ _ _ (coilsValueOk_eq q bc data) (coilsStored_eq data _)] at hends
    exact hends.writeRule

/-- Settles O27: Write Holdings is the multiple write of holding registers. -/
theorem writeHoldingsRule : Obligations.WriteHoldingsRule := by
  intro s u o htakes
  obtain ⟨t, hexec, hkeeps, hfree, hends⟩ := exec_writeMany (i := .wrholds u o) rfl htakes
  refine ⟨t, hexec, hkeeps, hfree, ?_⟩
  cases o with
  | short p => exact hends.rejected
  | fields w q bc data =>
    rw [writeManyAnswer_fields _ _ _ _ (holdsValueOk_eq q bc data) rfl] at hends
    exact hends.writeRule

/-! ### Multiple writes with room for every entry -/

/-- With room for every entry the loop of R187 and R188 succeeds, and stores each value at its address (R122, R123). -/
theorem writeLoop_room {m : Memory} (h : Memory.Rising m) {cap count : Nat} (start : Nat) (value : Nat → Word)
    (hroom : m.length + count ≤ cap) :
    (writeLoop cap m start count value).2 = true ∧
    ∀ a, Memory.lookup (writeLoop cap m start count value).1 a =
      if start ≤ a ∧ a < start + count then some (value (a - start)) else Memory.lookup m a := by
  obtain ⟨hok, hlookup⟩ := Memory.writeRange_room cap ((List.range count).map value) h start (by simpa using hroom)
  rw [writeLoop_eq]
  refine ⟨hok, fun a => ?_⟩
  rw [hlookup, List.length_map, List.length_range]
  by_cases hin : start ≤ a ∧ a < start + count
  · rw [if_pos hin, if_pos hin, List.getElem?_map, List.getElem?_range (by omega), Option.map_some]
  · rw [if_neg hin, if_neg hin]

/-- A multiple write that passes its checks, with room for every entry, ends `Normal` and stores each value at its
address. -/
theorem WriteRule.stores {s t : State} {u fc : Byte} {badValue badAddress : Prop} [Decidable badValue]
    [Decidable badAddress] {start count : Nat} {value : Nat → Word} {echo : List Byte}
    (h : WriteRule s t u fc badValue badAddress (writeLoop s.params.tableCap s.table start count value) echo)
    (hvalue : ¬ badValue) (haddress : ¬ badAddress) (hrising : Memory.Rising s.table)
    (hroom : s.table.length + count ≤ s.params.tableCap) :
    t.outcome = .normal ∧ ∀ a, Memory.lookup t.table a =
      if start ≤ a ∧ a < start + count then some (value (a - start)) else Memory.lookup s.table a := by
  rw [WriteRule, if_neg hvalue, if_neg haddress] at h
  obtain ⟨hwritten, hanswered⟩ := h
  obtain ⟨hok, hlookup⟩ := writeLoop_room hrising start value hroom
  rw [← hwritten] at hok hlookup
  rw [if_pos hok] at hanswered
  exact ⟨hanswered.1, hlookup⟩

/-- Settles O29: the rule of Write Holdings, whose checks pass and whose writes all have room. -/
theorem writeHoldingsStoresEveryWord : Obligations.WriteHoldingsStoresEveryWord := by
  intro s u w q bc data htakes hwf hroom hq hq' hbc hdata hwq
  obtain ⟨t, hexec, _, _, hrule⟩ := writeHoldingsRule s u (.fields w q bc data) htakes
  exact ⟨t, hexec, WriteRule.stores hrule (by omega) (by omega) (Memory.wf_rising hwf) hroom⟩

/-- Settles O30: the rule of Write Coils, whose checks pass and whose writes all have room. -/
theorem writeCoilsStoresEveryBit : Obligations.WriteCoilsStoresEveryBit := by
  intro s u w q bc data htakes hwf hroom hq hbc hdata hwq hq'
  obtain ⟨t, hexec, _, _, hrule⟩ := writeCoilsRule s u (.fields w q bc data) htakes
  have hstores := WriteRule.stores hrule (by omega) (by omega) (Memory.wf_rising hwf) hroom
  rw [Nat.zero_add] at hstores
  exact ⟨t, hexec, hstores⟩

/-! ### Unsupported and extension codes -/

/-- A request with an unsupported code that the block takes answers with `IllegalFunction` and leaves the table alone
(R189). -/
theorem exec_unsupported {i : Instr} {s : State} {u fc : Byte} {p : List Byte}
    (hi : Instr.request? i = some (unsupportedRequest u fc p)) (htakes : State.Takes s u) :
    ∃ t, exec i s = .next t ∧ State.CycleKeeps s t ∧ t.table = s.table ∧ t.freeCount = s.freeCount ∧
      State.Answered s t u .illegalFunction (fc ||| 0x80#8) [0x01#8] := by
  obtain ⟨sc, hrun⟩ := runRequest_unsupported (fc := fc) (pl := p) htakes
  exact ⟨_, (exec_request hi s).trans (congrArg _ hrun), ended_keeps .., rfl, rfl, ended_answered ..⟩

/-- Settles O32: the request of each row is the unsupported one with the row's code. -/
theorem unsupportedRowsRaiseIllegalFunction : Obligations.UnsupportedRowsRaiseIllegalFunction := by
  intro s u fc p htakes i hi
  have hrequest : Instr.request? i.1 = some (unsupportedRequest u i.2 p) := by
    revert i
    simp [Instr.request?]
  exact exec_unsupported hrequest htakes

/-- A request of the protocol port whose code is neither an extension code nor one of the eight is the unsupported one. -/
theorem request_unsupported {ext : List Byte} {i : Instr} {r : Request} (hr : Instr.request? i = some r)
    (hwf : i.wellFormed ext = true) (hext : r.fc ∉ ext) (hcode : r.fc ∉ Config.supportedCodes) :
    r = unsupportedRequest r.addr r.fc r.payload := by
  cases i <;> simp only [Instr.request?, Option.some.injEq, reduceCtorEq] at hr <;> subst hr
  case ext => exact absurd (List.contains_iff_mem.1 hwf) hext
  case rdcoil | rddisc | rdhold | rdinp | wrcoil | wrhold | wrcoils | wrholds =>
    exact absurd (List.contains_iff_mem.1 rfl) hcode
  all_goals rfl

/-- Settles O33: the decoder finds a request for every code, and this one can only be the unsupported one. -/
theorem everyOtherCodeIsUnsupported : Obligations.EveryOtherCodeIsUnsupported := by
  intro s u fc p htakes hext hcode
  obtain ⟨i, hdecode⟩ := decodeRequest_isSome s.params.extCodes u fc p
  obtain ⟨hwf, r, hr, rfl, rfl, rfl, _⟩ := decodeRequest_spec hdecode
  rw [request_unsupported hr hwf hext hcode] at hr
  obtain ⟨t, hexec, _, htable, _, hanswered⟩ := exec_unsupported hr htakes
  exact ⟨i, t, hdecode, hexec, htable, hanswered⟩

/-- Settles O34: the extension codes are decoded first, and the cycle ends with the handler's answer. -/
theorem extensionCodesGoToTheHandler : Obligations.ExtensionCodesGoToTheHandler := by
  intro s u code p htakes
  obtain ⟨sc, hrun⟩ := runRequest_extension (code := code) (pl := p) htakes
  refine ⟨fun hmem => if_pos (List.contains_iff_mem.2 hmem), _, (exec_request rfl s).trans (congrArg _ hrun),
    ⟨rfl, rfl, rfl, rfl, rfl⟩, rfl, rfl, ?_⟩
  cases Config.extHandler s.freeCount code p with
  | normal payload => exact ended_answered s sc s.table u .normal code payload
  | exception e =>
    exact ended_answered s sc s.table u (exceptionOutcome e) (exceptionFc code) [exceptionCode e]

/-! ### The worked examples -/

/-- A frame that ends with the CRC of its body, low byte first, decodes to the request of its body (spec/30_encoding.md R62). -/
theorem decode_of_bodyCrc {ext : List Byte} {u fc l h : Byte} {p : List Byte} {i : Instr}
    (hcrc : bodyCrc u fc p = be16 h l) (hrequest : decodeRequest ext u fc p = some i) :
    decode ext (.frame ([u, fc] ++ p ++ [l, h])) = .instr i := by
  have hframe : serialize u fc p = [u, fc] ++ p ++ [l, h] := by rw [serialize, hcrc, hiByte_be16, loByte_be16]
  rw [← hframe, decode_serialize hrequest]

/-- Settles O53: each frame carries the CRC of its body. -/
theorem workedExamplesDecode : Obligations.WorkedExamplesDecode :=
  ⟨decode_of_bodyCrc (p := [0x00#8, 0x00#8, 0x00#8, 0x08#8]) (by decide +kernel) rfl,
    decode_of_bodyCrc (p := [0x00#8, 0x05#8, 0xFF#8, 0x00#8]) (by decide +kernel) rfl,
    decode_of_bodyCrc (p := [0x00#8, 0x08#8, 0x00#8, 0x0A#8, 0x02#8, 0xCD#8, 0x01#8]) (by decide +kernel) rfl,
    decode_of_bodyCrc (p := [0x00#8, 0x02#8, 0x00#8, 0x02#8, 0x04#8, 0xAB#8, 0xCD#8, 0x00#8, 0x01#8])
      (by decide +kernel) rfl,
    decode_of_bodyCrc (p := []) (by decide +kernel) rfl⟩

end Sys2Proof.Machine
end

section
/-! The statements about the exceptions (spec/60_exceptions.md): what a request may write, the frame that answers an exception,
and which frames are answered. -/

namespace Sys2Proof.Machine

/-! ### What a request may write -/

/-- Settles O19: a request that is dropped leaves the table alone, and one that is taken ends with a table that differs inside the
two bands alone and has lost no entry. -/
theorem requestsWriteOnlyCoilsAndHoldings : Obligations.RequestsWriteOnlyCoilsAndHoldings := by
  intro i r s hr hphase hwf
  refine ⟨_, exec_request hr s, ?_⟩
  rcases request_cases hr hphase with ⟨_, _, hdropped⟩ | ⟨_, sc, m, o, fc, pl, n, htaken, _, htable⟩
  · rw [hdropped]
    exact ⟨fun _ _ => rfl, fun _ hpresent => hpresent⟩
  · obtain ⟨_, _, houtside, hkept⟩ := htable hwf
    rw [htaken]
    exact ⟨houtside, hkept⟩

/-! ### The frame that answers an exception -/

theorem exceptionOutcome_ne_normal (e : ModbusException) : exceptionOutcome e ≠ .normal := by
  cases e <;> decide

theorem exceptionOutcome_injective : Function.Injective exceptionOutcome := by
  intro e e'
  cases e <;> cases e' <;> decide

/-- A cycle that ends with the outcome of an exception ends with its answer, and only `DeviceFailure` comes after a write (R203,
R204). -/
theorem ends_of_exceptionOutcome {s : State} {r : Request} {m : Memory} {fc : Byte} {pl : List Byte} {e : ModbusException}
    (h : Ends s r m (exceptionOutcome e) fc pl) :
    fc = exceptionFc r.fc ∧ pl = [exceptionCode e] ∧ (e ≠ .deviceFailure → m = s.table) := by
  obtain ⟨⟨hnormal, _⟩ | ⟨e', he', hfc, hpl, htable⟩, _⟩ := h
  · exact absurd hnormal (exceptionOutcome_ne_normal e)
  · cases exceptionOutcome_injective he'
    exact ⟨hfc, hpl, htable⟩

/-- Settles O18: the request is taken, and an outcome that is an exception's leaves that exception's answer to serialize. -/
theorem exceptionResponseFrame : Obligations.ExceptionResponseFrame := by
  intro i r s hr ⟨hphase, haddressed⟩
  refine ⟨_, exec_request hr s, fun e houtcome => ?_⟩
  rcases request_cases hr hphase with ⟨h0, hunit, _⟩ | ⟨_, sc, m, o, fc, pl, n, htaken, hends⟩
  · exact (haddressed.elim h0 hunit).elim
  · rw [htaken] at houtcome ⊢
    obtain rfl : o = exceptionOutcome e := houtcome
    obtain ⟨rfl, rfl, htable⟩ := ends_of_exceptionOutcome hends
    exact ⟨fun h0 => ⟨_, rfl, ended_sent_addressed h0 s sc m (exceptionOutcome e) (exceptionFc r.fc) [exceptionCode e]⟩,
      htable⟩

/-! ### Which frames are answered -/

/-- The frame is long enough, fits, has a good CRC and is addressed to this block and not to all (R208). -/
abbrev State.MustAnswer (s : State) (raw : List Byte) : Prop :=
  4 ≤ raw.length ∧ fitsBuffer s.params raw ∧ crcCorrect raw ∧ byteAt raw 0 = s.unitId ∧ s.unitId ≠ 0x00#8

/-- From `s` to `t` exactly one frame was sent, a response to a request with the function code `fc` (R208). -/
abbrev State.Replies (s t : State) (fc : Byte) : Prop :=
  t.replied = true ∧ ∃ reply, t.sent = s.sent ++ [reply] ∧ 4 ≤ reply.length ∧ crcCorrect reply ∧
    byteAt reply 0 = s.unitId ∧ (byteAt reply 1 = fc ∨ byteAt reply 1 = fc ||| 0x80#8)

/-- From `s` to `t` nothing was sent, and that is reported. -/
abbrev State.SendsNothing (s t : State) : Prop := t.replied = false ∧ t.sent = s.sent

/-- A serialized frame carries the CRC of its body (spec/43_frame_codec.md R143, R144). -/
theorem crcCorrect_serialize (u fc : Byte) (p : List Byte) : crcCorrect (serialize u fc p) :=
  (checkCrc_iff (parse_serialize u fc p)).1 (beq_self_eq_true _)

/-- The function code of an answer is the request's, or that code `or 0x80` (R164, R204). -/
theorem ends_fc {s : State} {r : Request} {m : Memory} {o : CycleOutcome} {fc : Byte} {pl : List Byte}
    (h : Ends s r m o fc pl) : fc = r.fc ∨ fc = r.fc ||| 0x80#8 := by
  obtain ⟨⟨_, hfc⟩ | ⟨_, _, hfc, _⟩, _⟩ := h
  · exact .inl hfc
  · exact .inr hfc

/-- A request for `UNIT_ID`, not 0, is answered with one frame; any other is dropped, or is a broadcast, and is not answered
(R155, R164). -/
theorem runRequest_replies {i : Instr} {r : Request} (hr : Instr.request? i = some r) {s : State}
    (hphase : s.phase = .awaitingFrame) :
    (r.addr = s.unitId ∧ s.unitId ≠ 0x00#8 → State.Replies s (runRequest r s) r.fc) ∧
    (¬ (r.addr = s.unitId ∧ s.unitId ≠ 0x00#8) → State.SendsNothing s (runRequest r s)) := by
  rcases request_cases hr hphase with ⟨_, hforeign, hdropped⟩ | ⟨⟨_, htakes⟩, sc, m, o, fc, pl, n, htaken, hends⟩
  · rw [hdropped]
    exact ⟨fun ⟨hunit, _⟩ => absurd hunit hforeign, fun _ => ⟨rfl, rfl⟩⟩
  · rw [htaken]
    constructor
    · rintro ⟨hunit, h0⟩
      rw [hunit]
      have hlen : 4 ≤ (serialize s.unitId fc pl).length := by rw [length_serialize]; exact Nat.le_add_left 4 _
      exact ⟨decide_eq_true h0, _, ended_sent_addressed h0 s sc m o fc pl, hlen, crcCorrect_serialize .., rfl,
        ends_fc hends⟩
    · intro hnot
      have h0 : r.addr = 0x00#8 := htakes.elim id fun hunit => by
        by_contra h0
        exact hnot ⟨hunit, hunit ▸ h0⟩
      rw [h0]
      exact ⟨rfl, ended_sent_broadcast s sc m o fc pl⟩

/-- The cycle of a delivered frame answers exactly the frames it must (R208). -/
theorem frame_replies (raw : List Byte) {s : State} (hphase : s.phase = .awaitingFrame) :
    ∃ t, perform (fetchFrame raw s) = .next t ∧ (State.MustAnswer s raw → State.Replies s t (byteAt raw 1)) ∧
      (¬ State.MustAnswer s raw → State.SendsNothing s t) := by
  rcases frame_cases raw s with ⟨herr, sc, ht⟩ | ⟨_, _, hbad, f, _, ht⟩ |
    ⟨h4, hfits, hcrc, i, r, _, hr, haddr, hfc, _, _, _, ht⟩
  · exact ⟨_, ht, fun ⟨h4, hfits, _⟩ => (herr.elim h4.not_gt (· hfits)).elim, fun _ => ⟨rfl, rfl⟩⟩
  · exact ⟨_, ht, fun ⟨_, _, hgood, _⟩ => absurd hgood hbad, fun _ => ⟨rfl, rfl⟩⟩
  · obtain ⟨hreplies, hsilent⟩ := runRequest_replies hr hphase
    rw [haddr] at hreplies hsilent
    rw [hfc] at hreplies
    exact ⟨_, ht, fun ⟨_, _, _, haddressed⟩ => hreplies haddressed,
      fun hnot => hsilent fun haddressed => hnot ⟨h4, hfits, hcrc, haddressed⟩⟩

/-- Between cycles a step that takes no frame, not even one whose cycle a reset strikes, sends nothing (R208). -/
theorem step_sent_of_no_frame {s : State} (hphase : s.phase = .awaitingFrame)
    (hframe : ∀ raw rest, s.pending ≠ .request (.frame raw) :: rest)
    (hduring : ∀ raw cfg rest, s.pending ≠ .resetDuring raw cfg :: rest) : ∃ t, step s = .next t ∧ t.sent = s.sent := by
  match he : s.pending with
  | [] => exact ⟨s, step_idle hphase he, rfl⟩
  | .request (.frame raw) :: rest => exact absurd he (hframe raw rest)
  | .request (.adm op addr wdata) :: rest =>
    obtain ⟨admOp, hstep⟩ := step_adm_performed hphase he
    exact ⟨_, hstep, rfl⟩
  | .timeout :: rest => exact ⟨_, step_timeout hphase he, rfl⟩
  | .reset cfg :: rest => exact ⟨_, step_reset hphase he, rfl⟩
  | .resetDuring raw cfg :: rest => exact absurd he (hduring raw cfg rest)

/-- Settles O12: the cycle of a frame answers exactly the frames it must, and no other event sends anything. -/
theorem alwaysAnswersExactlyOnce : Obligations.AlwaysAnswersExactlyOnce := by
  refine ⟨fun s raw rest hreceives => ?_, fun s => step_sent_of_no_frame⟩
  have ⟨hphase, _⟩ := hreceives
  obtain ⟨t, ht, hreplies, hsilent⟩ := frame_replies raw (s := { s with pending := rest }) hphase
  refine ⟨t, (step_frame hreceives).trans ht, ?_⟩
  split
  · next hmust => exact hreplies hmust
  · next hnot => exact hsilent hnot

end Sys2Proof.Machine
end

section
/-! The statements about reset (spec/70_reset_and_hazards.md): between two cycles, and in the middle of one. -/

namespace Sys2Proof.Machine

/-! ### The empty table -/

/-- In the empty table every address reads as 0 (R231, spec/42_register_table.md R121). -/
theorem Memory.get_nil (a : Nat) : Memory.get [] a = 0x0000#16 := rfl

/-- In the empty table every address is absent (R231, spec/42_register_table.md R124). -/
theorem Memory.present_nil (a : Nat) : Memory.present [] a = false := rfl

/-- Settles O1: the step is `resetBlock`, and an empty table holds no address. -/
theorem resetEmptiesTheTableAndLoadsUnitId : Obligations.ResetEmptiesTheTableAndLoadsUnitId := by
  intro s cfg rest hphase he
  exact ⟨_, step_reset hphase he, rfl, rfl, rfl, rfl, rfl, rfl, rfl, rfl,
    fun a => ⟨Memory.get_nil a, Memory.present_nil a⟩⟩

/-! ### A reset in the middle of a cycle -/

/-- The cycle of a delivered frame touches neither the parameters, the identity, the events that wait nor the outputs of the
administrative port. -/
theorem frame_cycleFixes {raw : List Byte} {s t : State} (h : perform (fetchFrame raw s) = .next t) : CycleFixes s t := by
  rcases frame_cases raw s with ⟨_, sc, h'⟩ | ⟨_, _, _, f, _, h'⟩ | ⟨_, _, _, i, r, _, hr, _, _, _, _, _, h'⟩
  · cases h.symm.trans h'
    exact ⟨rfl, rfl, rfl, rfl⟩
  · cases h.symm.trans h'
    exact ⟨rfl, rfl, rfl, rfl⟩
  · cases h.symm.trans h'
    obtain ⟨hfixes, _⟩ := request_run hr s
    exact hfixes

/-- The cycle of a delivered frame sends nothing, or one response (spec/60_exceptions.md R208). -/
theorem frame_sent {raw : List Byte} {s t : State} (hphase : s.phase = .awaitingFrame)
    (h : perform (fetchFrame raw s) = .next t) : t.sent = s.sent ∨ ∃ reply, t.sent = s.sent ++ [reply] := by
  obtain ⟨t', h', hreplies, hsilent⟩ := frame_replies raw hphase
  cases h.symm.trans h'
  by_cases hmust : State.MustAnswer s raw
  · obtain ⟨_, reply, hsent, _⟩ := hreplies hmust
    exact .inr ⟨reply, hsent⟩
  · obtain ⟨_, hsent⟩ := hsilent hmust
    exact .inl hsent

/-- A reset that strikes a cycle in which one response was sent leaves nothing of it sent, or a nonempty beginning, whatever
the free value `Config.inFlight` is (R239). -/
theorem cutShort_sent_of_reply {before after : State} {reply : List Byte} (h : after.sent = before.sent ++ [reply])
    (cfg : Byte) :
    (cutShort cfg before after).sent = before.sent ∨
      ∃ n, 0 < n ∧ (cutShort cfg before after).sent = before.sent ++ [reply.take n] := by
  by_cases hlost : reply.take (Config.inFlight after.freeCount) = []
  · exact .inl (by simp [cutShort, h, hlost])
  · have hpos : 0 < Config.inFlight after.freeCount :=
      Nat.pos_of_ne_zero fun h0 => hlost (by rw [h0, List.take_zero])
    exact .inr ⟨_, hpos, by simp [cutShort, h, hlost]⟩

/-- Settles O13: the step is `cutShort` of the cycle the frame alone would have run, which sends nothing or one response. -/
theorem resetDuringCycleAbandonsIt : Obligations.ResetDuringCycleAbandonsIt := by
  intro s raw cfg rest hphase he
  obtain ⟨u, hu, hstep⟩ := step_resetDuring hphase he
  have hwhole : step { s with pending := .request (.frame raw) :: rest } = .next u :=
    (step_frame (s := { s with pending := .request (.frame raw) :: rest }) ⟨hphase, rfl⟩).trans hu
  obtain ⟨hparams, _, hpending, hadmOut⟩ := frame_cycleFixes hu
  refine ⟨_, u, hstep, hwhole, rfl, rfl, rfl, rfl, rfl, hpending, hparams, hadmOut, ?_⟩
  rcases frame_sent (s := { s with pending := rest }) hphase hu with hsilent | ⟨reply, hreply⟩
  · exact .inl (cutShort_sent_of_silent hsilent cfg)
  · rcases cutShort_sent_of_reply hreply cfg with hlost | ⟨n, hpos, hcut⟩
    · exact .inl hlost
    · exact .inr ⟨reply, n, hreply, hpos, hcut⟩

end Sys2Proof.Machine
end
